-- ==== Sys2Proof/Word.lean ====
section
/-! DEFINITION. The block's word types (00_scope.md R8, R10): unsigned integers of a stated width. -/

namespace Sys2Proof

/-- An 8-bit unsigned integer: the opcode field (R82) and the fault code (R34). -/
abbrev U8 := BitVec 8
/-- A 16-bit unsigned integer: the epoch and slot fields of the loop status (R71). -/
abbrev U16 := BitVec 16
/-- A 32-bit unsigned integer: a register value, a register offset, an interrupt mask, a command word. -/
abbrev U32 := BitVec 32
/-- A 64-bit unsigned integer: the counters, lengths, byte counts and bus addresses (R8, R37). -/
abbrev U64 := BitVec 64

end Sys2Proof
end

