-- ==== Sys2Proof/Syntax.lean ====
section
/-! DEFINITION. Directions, opcodes and the instruction type: one constructor per row of spec/opcode_table.json. -/

namespace Sys2Proof

/-- A direction of a channel (R12): `rd` is the source's reader (host to device), `wr` its writer (device to host). -/
inductive Dir where
  | rd
  | wr
  deriving DecidableEq, Repr, Inhabited

/-- A direction instance `d = (c, dir)` (R12). -/
structure DirId where
  ch : Nat
  dir : Dir
  deriving DecidableEq, Repr, Inhabited

/-- The ten operations of the opcode map (R83). -/
inductive Op where
  | start
  | stop
  | merge
  | updateHw
  | available
  | service
  | topHalf
  | bottomHalf
  | irqEnable
  | irqDisable
  deriving DecidableEq, Repr, Inhabited

/-- A command as its word gives it (R82, R83): the channel and direction, or the interrupt bit index, where the opcode
uses them.  MERGE's and SERVICE's further operands travel in the operand record (R84), which is not in the word. -/
inductive Instr where
  | start (ch : Nat) (dir : Dir)
  | stop (ch : Nat) (dir : Dir)
  | merge
  | updateHw (ch : Nat) (dir : Dir)
  | available (ch : Nat) (dir : Dir)
  | service (ch : Nat) (dir : Dir)
  | topHalf
  | bottomHalf
  | irqEnable (n : Nat)
  | irqDisable (n : Nat)
  deriving DecidableEq, Repr, Inhabited

/-- The operation an instruction selects. -/
def Instr.op : Instr → Op
  | .start _ _ => .start
  | .stop _ _ => .stop
  | .merge => .merge
  | .updateHw _ _ => .updateHw
  | .available _ _ => .available
  | .service _ _ => .service
  | .topHalf => .topHalf
  | .bottomHalf => .bottomHalf
  | .irqEnable _ => .irqEnable
  | .irqDisable _ => .irqDisable

/-- The direction an instruction names, for the operations that take one (R82). -/
def Instr.dirId? : Instr → Option DirId
  | .start ch dir => some ⟨ch, dir⟩
  | .stop ch dir => some ⟨ch, dir⟩
  | .merge => none
  | .updateHw ch dir => some ⟨ch, dir⟩
  | .available ch dir => some ⟨ch, dir⟩
  | .service ch dir => some ⟨ch, dir⟩
  | .topHalf => none
  | .bottomHalf => none
  | .irqEnable _ => none
  | .irqDisable _ => none

end Sys2Proof
end

