-- ==== Sys2Proof/WellFormed.lean ====
section
/-! DEFINITION. Which instructions the command word can carry (R82): an 8-bit channel index, a 5-bit interrupt index. -/

namespace Sys2Proof

/-- The channel index fits the word's `ch` field, bits 23:16 (R82). -/
def chFits (ch : Nat) : Bool := decide (ch < 256)

/-- The interrupt bit index fits the word's `irq` field, bits 4:0 (R82). -/
def irqFits (n : Nat) : Bool := decide (n < 32)

/-- An instruction is well formed when each field fits its place in the command word. -/
def Instr.wf : Instr → Bool
  | .start ch _ => chFits ch
  | .stop ch _ => chFits ch
  | .merge => true
  | .updateHw ch _ => chFits ch
  | .available ch _ => chFits ch
  | .service ch _ => chFits ch
  | .topHalf => true
  | .bottomHalf => true
  | .irqEnable n => irqFits n
  | .irqDisable n => irqFits n

end Sys2Proof
end

