-- ==== Sys2Proof/Decode.lean ====
section
/-! DEFINITION. The command word (30_encoding.md Part B): the opcode map, the decoder, the encoder, the assembler's text. -/

namespace Sys2Proof

/-- The opcode of an operation, `op` of R83. -/
def Op.code : Op → U8
  | .start => 0x01#8
  | .stop => 0x02#8
  | .merge => 0x03#8
  | .updateHw => 0x04#8
  | .available => 0x05#8
  | .service => 0x06#8
  | .topHalf => 0x07#8
  | .bottomHalf => 0x08#8
  | .irqEnable => 0x09#8
  | .irqDisable => 0x0A#8

/-- One row of the opcode map (R83): a word selects `op` when `word AND mask = pat`. -/
structure OpRow where
  op : Op
  pat : U32
  mask : U32
  deriving DecidableEq, Repr

/-- The opcode map, row for row (R83). -/
def opRows : List OpRow :=
  [⟨.start, 0x01000000#32, 0xFF007FFF#32⟩,
   ⟨.stop, 0x02000000#32, 0xFF007FFF#32⟩,
   ⟨.merge, 0x03000000#32, 0xFFFFFFFF#32⟩,
   ⟨.updateHw, 0x04000000#32, 0xFF007FFF#32⟩,
   ⟨.available, 0x05000000#32, 0xFF007FFF#32⟩,
   ⟨.service, 0x06000000#32, 0xFF007FFF#32⟩,
   ⟨.topHalf, 0x07000000#32, 0xFFFFFFFF#32⟩,
   ⟨.bottomHalf, 0x08000000#32, 0xFFFFFFFF#32⟩,
   ⟨.irqEnable, 0x09000000#32, 0xFFFFFFE0#32⟩,
   ⟨.irqDisable, 0x0A000000#32, 0xFFFFFFE0#32⟩]

/-- The word selects the row. -/
def OpRow.selects (r : OpRow) (w : U32) : Bool := (w &&& r.mask) == r.pat

/-- `op`, bits 31:24 (R82). -/
def wordOp (w : U32) : U8 := w.extractLsb' 24 8
/-- `ch`, bits 23:16, zero-extended (R82). -/
def wordCh (w : U32) : Nat := (w.extractLsb' 16 8).toNat
/-- `dir`, bit 15: 0 = RD, 1 = WR (R82). -/
def wordDir (w : U32) : Dir := if w.getLsbD 15 then .wr else .rd
/-- `rsv`, bits 14:5, must be 0 (R82). -/
def wordRsv (w : U32) : BitVec 10 := w.extractLsb' 5 10
/-- `irq`, bits 4:0, zero-extended (R82). -/
def wordIrq (w : U32) : Nat := (w.extractLsb' 0 5).toNat

/-- The instruction a word stands for once its row is known: the fields its opcode uses. -/
def Op.instr (w : U32) : Op → Instr
  | .start => .start (wordCh w) (wordDir w)
  | .stop => .stop (wordCh w) (wordDir w)
  | .merge => .merge
  | .updateHw => .updateHw (wordCh w) (wordDir w)
  | .available => .available (wordCh w) (wordDir w)
  | .service => .service (wordCh w) (wordDir w)
  | .topHalf => .topHalf
  | .bottomHalf => .bottomHalf
  | .irqEnable => .irqEnable (wordIrq w)
  | .irqDisable => .irqDisable (wordIrq w)

/-- Why a word is illegal, in R86's words: an unassigned opcode, a non-zero reserved field, or a non-zero field that its
opcode does not use. -/
inductive Illegal where
  | opcode
  | reserved
  | unusedField
  deriving DecidableEq, Repr

/-- The first of R86's reasons that holds of an illegal word.  All three raise the same fault. -/
def illegalReason (w : U32) : Illegal :=
  if opRows.all (fun r => r.op.code != wordOp w) then .opcode
  else if wordRsv w != 0#10 then .reserved
  else .unusedField

/-- The decoder, total on every 32-bit word (R91): the one row that matches, or the verdict that none does (R86). -/
def decode (w : U32) : Except Illegal Instr :=
  match opRows.find? (fun r => r.selects w) with
  | some r => .ok (r.op.instr w)
  | none => .error (illegalReason w)

/-- The direction's bit in the word (R82). -/
def Dir.bit : Dir → BitVec 1
  | .rd => 0#1
  | .wr => 1#1

/-- A word from its fields, most significant first: `op`, `ch`, `dir`, `rsv = 0`, `irq` (R82). -/
def packWord (op : Op) (ch : Nat) (dir : BitVec 1) (irq : Nat) : U32 :=
  op.code ++ BitVec.ofNat 8 ch ++ dir ++ 0#10 ++ BitVec.ofNat 5 irq

/-- The encoder: the command word of an instruction (R82); the fields an opcode does not use are 0. -/
def encode : Instr → U32
  | .start ch dir => packWord .start ch dir.bit 0
  | .stop ch dir => packWord .stop ch dir.bit 0
  | .merge => packWord .merge 0 0#1 0
  | .updateHw ch dir => packWord .updateHw ch dir.bit 0
  | .available ch dir => packWord .available ch dir.bit 0
  | .service ch dir => packWord .service ch dir.bit 0
  | .topHalf => packWord .topHalf 0 0#1 0
  | .bottomHalf => packWord .bottomHalf 0 0#1 0
  | .irqEnable n => packWord .irqEnable 0 0#1 n
  | .irqDisable n => packWord .irqDisable 0 0#1 n

/-- The instruction the decoder reads from a word whose bits are numbered as spec/opcode_table.json numbers them.  A command
is exactly one 32-bit word (R87), so bits above `nbits` are 0 and a longer row does not exist. -/
def decodeTableWord (nbits w : Nat) : Option Instr :=
  if nbits ≤ 32 then
    match decode (BitVec.ofNat 32 (w % 2 ^ nbits)) with
    | .ok i => some i
    | .error _ => none
  else none

/-- `rd` or `wr`, as the assembler writes a direction (R89). -/
def Dir.asm : Dir → String
  | .rd => "rd"
  | .wr => "wr"

/-- The operation's mnemonic (R89). -/
def Op.mnemonic : Op → String
  | .start => "START"
  | .stop => "STOP"
  | .merge => "MERGE"
  | .updateHw => "UPDATE_HW"
  | .available => "AVAILABLE"
  | .service => "SERVICE"
  | .topHalf => "TOP_HALF"
  | .bottomHalf => "BOTTOM_HALF"
  | .irqEnable => "IRQ_ENABLE"
  | .irqDisable => "IRQ_DISABLE"

end Sys2Proof
end

