-- ==== Sys2Proof/Config.lean ====
section
/-! DEFINITION. The configuration record `Cfg` (00_scope.md R7) and the model's free values.

A configuration is fixed at initialisation and no step changes it (R7, R46).  The model's statements are for every
configuration; `Cfg.example16` is the one that `State.reset` stands on. -/

namespace Sys2Proof

/-- One ring slot's addresses, `RING[c][dir][i]` (R7): a local address and a 64-bit bus address. -/
structure Slot where
  localAddr : Nat
  bus : U64
  deriving DecidableEq, Repr, Inhabited

/-- The register offsets of one direction, `OFF_x[dir]` (R70). -/
structure DirOffsets where
  loopStatus : U32
  dirEnable : U32
  tableFlush : U32
  loopMode : U32
  descCtrl : U32
  descAddrLo : U32
  descAddrHi : U32
  deriving DecidableEq, Repr, Inhabited

/-- The parameters of one channel (R7); both directions share `cap`, `blockSize` and `perIrq`. -/
structure ChanCfg where
  /-- `CAP[c]`, the ring capacity in slots. -/
  cap : Nat
  /-- `B[c]`, bytes per ring slot. -/
  blockSize : Nat
  /-- `K[c]`, buffers per interrupt. -/
  perIrq : Nat
  /-- `BASE[c]`, the register base offset. -/
  base : U32
  /-- `IRQ[c][RD]`. -/
  irqRd : Nat
  /-- `IRQ[c][WR]`. -/
  irqWr : Nat
  /-- `RING[c][RD]`. -/
  ringRd : List Slot
  /-- `RING[c][WR]`. -/
  ringWr : List Slot
  /-- `CONTIGUOUS[c]`. -/
  contiguous : Bool
  /-- `IRQ_PHASE[c]`. -/
  irqPhase : Nat
  deriving DecidableEq, Repr, Inhabited

/-- The configuration (R7).  `N_CH` is the length of `chans`. -/
structure Cfg where
  chans : List ChanCfg
  /-- `OFF_INT_VECTOR`, `OFF_INT_CLEAR`, `OFF_INT_ENABLE` (R70). -/
  offIntVector : U32
  offIntClear : U32
  offIntEnable : U32
  /-- The per-direction offsets of the reader and of the writer (R70). -/
  offRd : DirOffsets
  offWr : DirOffsets
  /-- The control values of R80. -/
  valDisable : U32
  valEnable : U32
  valFlush : U32
  valLoopOff : U32
  valLoopOn : U32
  /-- The descriptor word's bit positions (R76). -/
  descSizeBits : Nat
  descNoirqBit : Nat
  descNotlastBit : Nat
  /-- The settling interval; no rule uses its value (R7, R254). -/
  settleWait : Nat
  deriving DecidableEq, Repr, Inhabited

/-- A ring of `n` slots of `b` bytes, laid out from a bus address. -/
def Cfg.exampleRing (bus0 b n : Nat) : List Slot :=
  (List.range n).map fun i => ⟨b * i, BitVec.ofNat 64 (bus0 + b * i)⟩

/-- The channel of 95_test_vectors.md's common configuration: `CAP = 16`, `B = 4096`, `K = 4`, `IRQ_PHASE = 0`, not
contiguous, and program P1's writer ring.  DESIGN CHOICE (log entry 2): unsafe. -/
def Cfg.exampleChan (base : U32) (irqRd irqWr : Nat) : ChanCfg where
  cap := 16
  blockSize := 4096
  perIrq := 4
  base := base
  irqRd := irqRd
  irqWr := irqWr
  ringRd := Cfg.exampleRing 0x200000000 4096 16
  ringWr := Cfg.exampleRing 0x100000000 4096 16
  contiguous := false
  irqPhase := 0

/-- The common configuration of 95_test_vectors.md with the given channels: the default control values of R80, the example
descriptor positions of R105, and offsets of the model's own.  DESIGN CHOICE (log entry 2): unsafe. -/
def Cfg.exampleOf (chans : List ChanCfg) : Cfg where
  chans := chans
  offIntVector := 0x0#32
  offIntClear := 0x4#32
  offIntEnable := 0x8#32
  offRd := ⟨0x00#32, 0x04#32, 0x08#32, 0x0C#32, 0x10#32, 0x14#32, 0x18#32⟩
  offWr := ⟨0x20#32, 0x24#32, 0x28#32, 0x2C#32, 0x30#32, 0x34#32, 0x38#32⟩
  valDisable := 0#32
  valEnable := 1#32
  valFlush := 1#32
  valLoopOff := 0#32
  valLoopOn := 1#32
  descSizeBits := 24
  descNoirqBit := 24
  descNotlastBit := 25
  settleWait := 0

/-- The configuration `State.reset` stands on: one channel of 95_test_vectors.md.  DESIGN CHOICE (log entry 2): unsafe. -/
def Cfg.example16 : Cfg := Cfg.exampleOf [Cfg.exampleChan 0x100#32 0 1]

/-- The oracle's answer to a register read when the environment has laid down no answer (R53): any u32.  A free value; `n`
is State's own counter `freeCount`. -/
opaque Config.oracleDraw : Nat → U32

/-- The scheduler's choice among the agents that have an enabled step when the environment has laid down no choice (R212).
A free value; `n` is State's own counter `freeCount`. -/
opaque Config.schedulerPick : Nat → Nat

end Sys2Proof
end

