-- ==== Sys2Proof/Machine/Params.lean ====
section
/-! DEFINITION. What the configuration's parameters determine: derived values, register offsets, well-formedness
(00_scope.md R7 to R9, 30_encoding.md R70, R76). -/

namespace Sys2Proof

/-- `k` with `n = 2^k` and `0 <= k <= 16`, if there is one (R7, R122). -/
def capLog2 (n : Nat) : Option Nat := (List.range 17).find? fun k => 2 ^ k == n

/-- `N_CH` (R7). -/
def Cfg.nCh (g : Cfg) : Nat := g.chans.length

/-- The parameters of channel `c`. -/
def Cfg.chan (g : Cfg) (c : Nat) : ChanCfg := g.chans[c]?.getD default

/-- `CAP[c]`. -/
def Cfg.cap (g : Cfg) (c : Nat) : Nat := (g.chan c).cap

/-- `k[c] = log2(CAP[c])` (R7). -/
def Cfg.k (g : Cfg) (c : Nat) : Nat := (capLog2 (g.cap c)).getD 0

/-- `W = k + 16`, the width of the merged field (R121). -/
def fieldWidth (k : Nat) : Nat := k + 16

/-- The epoch span `2^W = CAP << 16` (R121). -/
def epochSpan (k : Nat) : Nat := 2 ^ fieldWidth k

/-- `B[c]`. -/
def Cfg.blockSize (g : Cfg) (c : Nat) : Nat := (g.chan c).blockSize

/-- `K[c]`. -/
def Cfg.perIrq (g : Cfg) (c : Nat) : Nat := (g.chan c).perIrq

/-- `bit(d) = IRQ[c][dir]` (R12). -/
def Cfg.irq (g : Cfg) (d : DirId) : Nat :=
  match d.dir with
  | .rd => (g.chan d.ch).irqRd
  | .wr => (g.chan d.ch).irqWr

/-- `RING[c][dir]`. -/
def Cfg.ring (g : Cfg) (d : DirId) : List Slot :=
  match d.dir with
  | .rd => (g.chan d.ch).ringRd
  | .wr => (g.chan d.ch).ringWr

/-- `RING[c][dir][i].bus`. -/
def Cfg.slotBus (g : Cfg) (d : DirId) (i : Nat) : U64 := ((g.ring d)[i]?.getD default).bus

/-- The per-direction offsets of a direction. -/
def Cfg.offs (g : Cfg) (dir : Dir) : DirOffsets :=
  match dir with
  | .rd => g.offRd
  | .wr => g.offWr

/-- `BASE[c] + OFF_LOOP_STATUS[dir]` (R70).  Offsets are u32 and the sum is taken modulo 2^32: DESIGN CHOICE (log entry 9),
unsafe. -/
def Cfg.offLoopStatus (g : Cfg) (d : DirId) : U32 := (g.chan d.ch).base + (g.offs d.dir).loopStatus
/-- `BASE[c] + OFF_DIR_ENABLE[dir]` (R70). -/
def Cfg.offDirEnable (g : Cfg) (d : DirId) : U32 := (g.chan d.ch).base + (g.offs d.dir).dirEnable
/-- `BASE[c] + OFF_TABLE_FLUSH[dir]` (R70). -/
def Cfg.offTableFlush (g : Cfg) (d : DirId) : U32 := (g.chan d.ch).base + (g.offs d.dir).tableFlush
/-- `BASE[c] + OFF_LOOP_MODE[dir]` (R70). -/
def Cfg.offLoopMode (g : Cfg) (d : DirId) : U32 := (g.chan d.ch).base + (g.offs d.dir).loopMode
/-- `BASE[c] + OFF_DESC_CTRL[dir]` (R70). -/
def Cfg.offDescCtrl (g : Cfg) (d : DirId) : U32 := (g.chan d.ch).base + (g.offs d.dir).descCtrl
/-- `BASE[c] + OFF_DESC_ADDR_LO[dir]` (R70). -/
def Cfg.offDescAddrLo (g : Cfg) (d : DirId) : U32 := (g.chan d.ch).base + (g.offs d.dir).descAddrLo
/-- `BASE[c] + OFF_DESC_ADDR_HI[dir]` (R70). -/
def Cfg.offDescAddrHi (g : Cfg) (d : DirId) : U32 := (g.chan d.ch).base + (g.offs d.dir).descAddrHi

/-- A register offset the block may use: a multiple of 4 (R51). -/
def aligned (off : U32) : Bool := off.toNat % 4 == 0

/-- The seven offsets of a direction are multiples of 4. -/
def DirOffsets.aligned (o : DirOffsets) : Bool :=
  Sys2Proof.aligned o.loopStatus && Sys2Proof.aligned o.dirEnable && Sys2Proof.aligned o.tableFlush &&
  Sys2Proof.aligned o.loopMode && Sys2Proof.aligned o.descCtrl && Sys2Proof.aligned o.descAddrLo &&
  Sys2Proof.aligned o.descAddrHi

/-- Every parameter of a channel is in its legal range (R7), its rings have `CAP` slots (R60) and its block size fits the
descriptor's size field (R76). -/
def ChanCfg.wf (sizeBits : Nat) (x : ChanCfg) : Bool :=
  (capLog2 x.cap).isSome &&
  decide (1 ≤ x.blockSize) && decide (x.blockSize < 2 ^ 32) && decide (x.blockSize < 2 ^ sizeBits) &&
  decide (1 ≤ x.perIrq) && decide (x.perIrq ≤ x.cap) && decide (x.irqPhase < x.perIrq) &&
  Sys2Proof.aligned x.base && decide (x.irqRd < 32) && decide (x.irqWr < 32) &&
  (x.ringRd.length == x.cap) && (x.ringWr.length == x.cap)

/-- The descriptor positions are legal (R76). -/
def Cfg.descWf (g : Cfg) : Bool :=
  decide (g.descSizeBits ≤ g.descNoirqBit) && decide (g.descSizeBits ≤ g.descNotlastBit) &&
  decide (g.descNoirqBit ≠ g.descNotlastBit) && decide (g.descNoirqBit ≤ 31) && decide (g.descNotlastBit ≤ 31)

/-- Every register offset is a multiple of 4 (R51). -/
def Cfg.offsetsWf (g : Cfg) : Bool :=
  aligned g.offIntVector && aligned g.offIntClear && aligned g.offIntEnable && g.offRd.aligned && g.offWr.aligned

/-- The configuration is well formed (R9): `N_CH` is 1 to 256 and every field is in its legal range. -/
def Cfg.wf (g : Cfg) : Bool :=
  decide (1 ≤ g.nCh) && decide (g.nCh ≤ 256) && g.descWf && g.offsetsWf && g.chans.all (ChanCfg.wf g.descSizeBits)

end Sys2Proof
end

