-- ==== Sys2Proof/Machine/State.lean ====
section
/-! DEFINITION. Everything the spec gives the block (10_state.md), the environment's side of it, and the state after
construction (R45).  Plain data throughout. -/

namespace Sys2Proof.Machine

/-- An agent (R210): the one interrupt agent (id 0), the one lifecycle agent (id 1), client `n` (id `2 + n`). -/
inductive AgentId where
  | interrupt
  | lifecycle
  | client (n : Nat)
  deriving DecidableEq, Repr, Inhabited

/-- An opaque handle to a client buffer (R37). -/
structure BufferRef where
  handle : Nat
  deriving DecidableEq, Repr, Inhabited

/-- `RequestId`: an opaque 64-bit tag, compared only for equality (R37). -/
abbrev RequestId := U64

/-- A completion's status (R39). -/
inductive Status where
  | success
  | channelNotActive
  | cancelled
  | superseded
  deriving DecidableEq, Repr, Inhabited

/-- A direction's lifecycle state (R21). -/
inductive Life where
  | stopped
  | starting
  | running
  | stopping
  deriving DecidableEq, Repr, Inhabited

/-- The deferred request: its identity, its buffer and its remaining length (R27). -/
structure DeferredReq where
  req : RequestId
  buf : BufferRef
  left : U64
  deriving DecidableEq, Repr, Inhabited

/-- One direction's record (R21 to R29).  The direction's lock has no state (R30). -/
structure DirState where
  st : Life
  hwCount : U64
  hwCountLast : U64
  swCount : U64
  deferred : Option DeferredReq
  overflow : U64
  claim : Option AgentId
  deriving DecidableEq, Repr, Inhabited

/-- The two direction records of one channel. -/
structure Chan where
  rd : DirState
  wr : DirState
  deriving DecidableEq, Repr, Inhabited

/-- A servicer frame's step phase (R41). -/
inductive SvcPhase where
  | enter
  | snapshot
  | copy (slot : U16)
  | commit
  | outcome
  deriving DecidableEq, Repr, Inhabited

/-- A servicer frame (R41): `left` is the remaining length `L`, `bytes` what this call has transferred so far. -/
structure SvcFrame where
  d : DirId
  req : RequestId
  buf : BufferRef
  left : U64
  bytes : U64
  ph : SvcPhase
  deriving DecidableEq, Repr, Inhabited

/-- A bottom-half frame (R42): the snapshot of pending and enabled bits, the clear-mask so far, the cursor. -/
structure BhFrame where
  snap : U32
  clear : U32
  cur : DirId
  deriving DecidableEq, Repr, Inhabited

/-- A bottom half's sub-phase (R40), and `finish`, the phase R171 calls BH_END. -/
inductive BhPhase where
  | test
  | updRead
  | updMerge (status : U32)
  | deferCheck
  | svc (f : SvcFrame)
  | accum
  | finish
  deriving DecidableEq, Repr, Inhabited

/-- The sub-phase of a standalone UPDATE_HW (R40, R43). -/
inductive UpdPhase where
  | read
  | merge (status : U32)
  deriving DecidableEq, Repr, Inhabited

/-- The interrupt agent's phase (R40). -/
inductive IntPhase where
  | idle
  | bh (f : BhFrame) (p : BhPhase)
  | upd (d : DirId) (p : UpdPhase)
  deriving DecidableEq, Repr, Inhabited

/-- The lifecycle agent's phase (R40). -/
inductive LifePhase where
  | idle
  | startEnd (d : DirId)
  | stopEnd (d : DirId)
  deriving DecidableEq, Repr, Inhabited

/-- The spec's fault codes (R202). -/
inductive FaultCode where
  | illegalCommand
  | invalidChannel
  | wrongAgent
  | availableNegative
  | loopStatusSlotRange
  | hwCountOverflow
  | concurrentServicer
  | lifecycleRace
  | startWhileActive
  | mergeArgument
  deriving DecidableEq, Repr, Inhabited

/-- The fault record (R34). -/
structure FaultRecord where
  code : FaultCode
  agent : AgentId
  op : U8
  d : Option DirId
  info : U64
  deriving DecidableEq, Repr, Inhabited

/-- An externally visible action (R35). -/
inductive Event where
  | regRead (off v : U32)
  | regWrite (off v : U32)
  | copy (dir : Dir) (c : Nat) (slot : U16) (req : RequestId) (buf : BufferRef) (boff n : U64)
  | settle (c : Nat) (dir : Dir)
  | complete (req : RequestId) (bytes : U64) (status : Status)
  | deferred (req : RequestId) (left : U64)
  | handled (b : Bool)
  deriving DecidableEq, Repr, Inhabited

/-- A result record (R85); `done` is the completion without a result. -/
inductive Result where
  | merged (v : U64)
  | available (v : U64)
  | deferred
  | completed (bytes : U64) (status : Status)
  | handled (b : Bool)
  | done
  deriving DecidableEq, Repr, Inhabited

/-- The operand record of a command (R84): MERGE reads `last`, `raw` and `capacity`, SERVICE reads `req`, `buf` and `len`,
the others read none of it. -/
structure OperandRecord where
  last : U64
  raw : U32
  capacity : U32
  req : RequestId
  buf : BufferRef
  len : U64
  deriving DecidableEq, Repr, Inhabited

/-- A command as an agent issues it (R81): the agent, the command word, the operand record. -/
structure Call where
  agent : AgentId
  word : U32
  operands : OperandRecord
  deriving DecidableEq, Repr, Inhabited

/-- One choice of the scheduler (R212).  `issue`: an Idle agent issues a command and takes its first step.  `post`: an Idle
agent's command passes the issue checks and waits at its first step's own phase, where R40 gives it one (R109).  `run`: an
agent that is not Idle takes its next step. -/
inductive Input where
  | issue (c : Call)
  | post (c : Call)
  | run (a : AgentId)
  deriving DecidableEq, Repr, Inhabited

/-- The state (R20): the direction records, the device's interrupt state, the agents' phases, the fault, the history; and
the environment's side of the block. -/
structure State where
  /-- The configuration (R7).  It is a parameter, not state of the block (R46): no step changes it. -/
  cfg : Cfg
  /-- `dir[c][dir]` for `c < N_CH` (R20). -/
  chans : List Chan
  /-- `pending_mask` (R31). -/
  pendingMask : U32
  /-- `enabled_mask` (R32). -/
  enabledMask : U32
  /-- `bh_scheduled` (R33). -/
  bhScheduled : Bool
  /-- The interrupt agent's phase (R40). -/
  intPhase : IntPhase
  /-- The lifecycle agent's phase (R40). -/
  lifePhase : LifePhase
  /-- The clients that are not Idle, by rising client number, each with its frame (R40); every other client is Idle. -/
  clients : List (Nat × SvcFrame)
  /-- `fault` (R34). -/
  fault : Option FaultRecord
  /-- `history`, oldest event first (R35). -/
  history : List Event
  /-- The result records delivered so far, oldest first, each with the agent it went to (R40, R85).  The model's own field. -/
  results : List (AgentId × Result)
  /-- The scheduler's choices to come, next first (R212).  The environment's, the model's own field. -/
  inputs : List Input
  /-- The command being issued (R81): latched from the input that the step consumes, and vacant again once the step is over
  (R37).  The model's own field. -/
  port : Call
  /-- The oracle's answers to the register reads to come, next first (R53).  The environment's, the model's own field. -/
  oracle : List U32
  /-- How many free values have been used (`Config.oracleDraw`, `Config.schedulerPick`).  The model's own field. -/
  freeCount : Nat
  deriving DecidableEq, Repr

/-- Why the machine stops with a fault.  The spec's own faults are no reason here: raising one is a next state, in which
the fault record is set (R201). -/
inductive Fault where
  /-- A fault is recorded, so no agent has a step and the run has ended (R201, R220).  Raised by every step and every meaning
  in such a state.  Safe: the spec gives the block no further step. -/
  | halted (r : FaultRecord)
  /-- The environment has stopped issuing and every agent is Idle (R220).  Raised by the step when no input is left.  Safe: the
  spec gives the block no further step. -/
  | endOfRun
  deriving DecidableEq, Repr

/-- Why the model refuses a step. -/
inductive Refusal where
  /-- The instruction has no meaning in this model yet.  Raised by exec's arms only.  Safe. -/
  | notModelled (mnemonic : String)
  /-- The configuration is ill formed, so no step runs under it (R9).  Raised by every step and every meaning.  Safe. -/
  | illFormedConfig
  /-- The command's agent is not Idle: no agent issues then (R40, R88).  Raised by every meaning.  Safe: no run of the spec
  holds such a step. -/
  | agentNotIdle
  /-- The scheduler chose an agent that has no enabled step (R212).  Raised by an agent's next step.  Safe: no run of the
  spec holds such a step. -/
  | noEnabledStep
  deriving DecidableEq, Repr

/-- A direction as constructed: inert (R45). -/
def DirState.inert : DirState where
  st := .stopped
  hwCount := 0#64
  hwCountLast := 0#64
  swCount := 0#64
  deferred := none
  overflow := 0#64
  claim := none

/-- The operand record of zeros. -/
def OperandRecord.zero : OperandRecord := ⟨0#64, 0#32, 0#32, 0#64, ⟨0⟩, 0#64⟩

/-- What the port holds while no command is being issued (log entry 16). -/
def Call.vacant : Call := ⟨.client 0, 0#32, OperandRecord.zero⟩

/-- The block as constructed under a configuration (R45, R240): every direction inert, the masks 0, every agent Idle,
nothing recorded, nothing issued. -/
def State.construct (cfg : Cfg) : State where
  cfg := cfg
  chans := cfg.chans.map fun _ => ⟨DirState.inert, DirState.inert⟩
  pendingMask := 0#32
  enabledMask := 0#32
  bhScheduled := false
  intPhase := .idle
  lifePhase := .idle
  clients := []
  fault := none
  history := []
  results := []
  inputs := []
  port := Call.vacant
  oracle := []
  freeCount := 0

/-- The machine right after reset, which is construction (R45), under the example configuration.  DESIGN CHOICE (log
entries 2 and 3): the configuration, and the values of the model's own fields. -/
def State.reset : State := State.construct Cfg.example16

end Sys2Proof.Machine
end

