-- ==== Sys2Proof/Machine/Ops.lean ====
section
/-! DEFINITION. The named operations the meanings are written over: direction records, agents' phases, register accesses
and the oracle, events and results, raising a fault, the checks at issue. -/

namespace Sys2Proof.Machine

/-- What a step, a meaning or an agent's next step answers. -/
abbrev Answer := Host.Outcome State Fault Refusal

/-! ## Agents -/

/-- The agent's id (R210): 0 interrupt, 1 lifecycle, `2 + n` client `n`. -/
def AgentId.id : AgentId → Nat
  | .interrupt => 0
  | .lifecycle => 1
  | .client n => 2 + n

/-- The agent's class (R202): 0 interrupt, 1 lifecycle, 2 client. -/
def AgentId.cls : AgentId → Nat
  | .interrupt => 0
  | .lifecycle => 1
  | .client _ => 2

/-- The agent's id as a fault's `info` (R202).  An id of 2^64 or more is taken modulo 2^64: DESIGN CHOICE (log entry 10),
unsafe. -/
def AgentId.info (a : AgentId) : U64 := BitVec.ofNat 64 a.id

/-- The permission table of R211: which agent class may issue which operation. -/
def mayIssue : Op → AgentId → Bool
  | .start, a => a.cls == 1
  | .stop, a => a.cls == 1
  | .merge, _ => true
  | .updateHw, a => a.cls == 0
  | .available, _ => true
  | .service, a => a.cls == 2
  | .topHalf, a => a.cls == 0
  | .bottomHalf, a => a.cls == 0
  | .irqEnable, a => a.cls == 1
  | .irqDisable, a => a.cls == 1

/-- The frame of client `n` in a list of busy clients, if it is not Idle. -/
def clientGet : List (Nat × SvcFrame) → Nat → Option SvcFrame
  | [], _ => none
  | (m, f) :: rest, n => if m = n then some f else clientGet rest n

/-- Give client `n` a frame, keeping the list in rising order. -/
def clientPut : List (Nat × SvcFrame) → Nat → SvcFrame → List (Nat × SvcFrame)
  | [], n, f => [(n, f)]
  | (m, g) :: rest, n, f =>
    if n < m then (n, f) :: (m, g) :: rest
    else if n = m then (n, f) :: rest
    else (m, g) :: clientPut rest n f

/-- Make client `n` Idle. -/
def clientDel : List (Nat × SvcFrame) → Nat → List (Nat × SvcFrame)
  | [], _ => []
  | (m, g) :: rest, n => if m = n then clientDel rest n else (m, g) :: clientDel rest n

/-- The list's canonical form: client numbers strictly rising. -/
def clientsWf : List (Nat × SvcFrame) → Bool
  | [] => true
  | (m, _) :: rest => rest.all (fun p => decide (m < p.1)) && clientsWf rest

/-- A number above every busy client's. -/
def freshClient : List (Nat × SvcFrame) → Nat
  | [] => 0
  | (m, _) :: rest => max (m + 1) (freshClient rest)

/-- Client `n`'s frame; none when it is Idle. -/
def State.client (s : State) (n : Nat) : Option SvcFrame := clientGet s.clients n

/-- The agent is Idle (R40). -/
def State.agentIdle (s : State) : AgentId → Bool
  | .interrupt => s.intPhase == .idle
  | .lifecycle => s.lifePhase == .idle
  | .client n => (s.client n).isNone

/-- Set the interrupt agent's phase. -/
def State.setInt (s : State) (p : IntPhase) : State := { s with intPhase := p }

/-- Set the lifecycle agent's phase. -/
def State.setLife (s : State) (p : LifePhase) : State := { s with lifePhase := p }

/-- Set client `n`'s frame; `none` makes it Idle. -/
def State.setClient (s : State) (n : Nat) : Option SvcFrame → State
  | some f => { s with clients := clientPut s.clients n f }
  | none => { s with clients := clientDel s.clients n }

/-! ## Direction records -/

/-- The record of one direction of a channel. -/
def Chan.side (x : Chan) : Dir → DirState
  | .rd => x.rd
  | .wr => x.wr

/-- Change the record of one direction of a channel. -/
def Chan.upd (x : Chan) (dir : Dir) (f : DirState → DirState) : Chan :=
  match dir with
  | .rd => { x with rd := f x.rd }
  | .wr => { x with wr := f x.wr }

/-- `dir[c][dir]` (R20).  A channel that the state does not hold reads as the type's default record: DESIGN CHOICE (log
entry 11), unsafe. -/
def State.dir (s : State) (d : DirId) : DirState := (s.chans[d.ch]?.getD default).side d.dir

/-- Change one direction's record; every other direction's stays (R57: one locked section is one uninterrupted part of a
step). -/
def State.updDir (s : State) (d : DirId) (f : DirState → DirState) : State :=
  { s with chans := s.chans.modify d.ch fun x => x.upd d.dir f }

/-- The direction exists: `c < N_CH` (R12). -/
def State.hasDir (s : State) (d : DirId) : Bool := decide (d.ch < s.cfg.nCh)

/-- Zero the three counters, as START_END and STOP_END do (R103, R108). -/
def DirState.zeroed (x : DirState) : DirState := { x with hwCount := 0#64, hwCountLast := 0#64, swCount := 0#64 }

/-- The interrupt agent is between the loop-status read and the end of the deferred check of `d` (R44). -/
def IntPhase.updating (p : IntPhase) (d : DirId) : Bool :=
  match p with
  | .bh f (.updMerge _) => f.cur == d
  | .bh f .deferCheck => f.cur == d
  | .upd e (.merge _) => e == d
  | _ => false

/-- Direction `d` is busy (R44). -/
def State.busy (s : State) (d : DirId) : Bool := (s.dir d).claim.isSome || s.intPhase.updating d

/-! ## Events and results -/

/-- Append one event to the history (R11, R35). -/
def State.emit (s : State) (e : Event) : State := { s with history := s.history ++ [e] }

/-- Append events to the history, first event first. -/
def State.emits (s : State) (es : List Event) : State := { s with history := s.history ++ es }

/-- Deliver a result record to an agent (R40, R85). -/
def State.deliver (s : State) (a : AgentId) (r : Result) : State := { s with results := s.results ++ [(a, r)] }

/-! ## Register accesses -/

/-- The value the next register read returns: the oracle's next answer, any u32 (R53). -/
def State.nextDraw (s : State) : U32 :=
  match s.oracle with
  | v :: _ => v
  | [] => Config.oracleDraw s.freeCount

/-- The state once that answer is used. -/
def State.drawn (s : State) : State :=
  match s.oracle with
  | _ :: rest => { s with oracle := rest }
  | [] => { s with freeCount := s.freeCount + 1 }

/-- `MMIORead32(off)`: the answer is `nextDraw`; the read is recorded (R53). -/
def State.mmioRead (s : State) (off : U32) : State := s.drawn.emit (.regRead off s.nextDraw)

/-- `MMIOWrite32(off, v)`: the write is recorded (R52, R56). -/
def State.mmioWrite (s : State) (off v : U32) : State := s.emit (.regWrite off v)

/-- The events of register writes made in the order listed (R56). -/
def writeEvents (ws : List (U32 × U32)) : List Event := ws.map fun w => .regWrite w.1 w.2

/-! ## Faults -/

/-- The fault's numeric code (R202). -/
def FaultCode.code : FaultCode → U8
  | .illegalCommand => 0x01#8
  | .invalidChannel => 0x02#8
  | .wrongAgent => 0x03#8
  | .availableNegative => 0x04#8
  | .loopStatusSlotRange => 0x05#8
  | .hwCountOverflow => 0x06#8
  | .concurrentServicer => 0x07#8
  | .lifecycleRace => 0x08#8
  | .startWhileActive => 0x09#8
  | .mergeArgument => 0x0A#8

/-- A fault a step detects: its code and its `info` (R201). -/
structure Trap where
  code : FaultCode
  info : U64
  deriving DecidableEq, Repr

/-- `raise Fault(code, info)` (R201): the fault record is set and nothing else of the step happens. -/
def State.raise (s : State) (a : AgentId) (op : U8) (d : Option DirId) (t : Trap) : State :=
  { s with fault := some ⟨t.code, a, op, d, t.info⟩ }

/-- One atomic step: its effect on the state, or the fault it detects, which then is its only effect (R201). -/
def runStep (a : AgentId) (op : U8) (d : Option DirId) (body : State → Except Trap State) (s : State) : Answer :=
  .next (match body s with
    | .ok t => t
    | .error e => s.raise a op d e)

/-- No step runs under an ill-formed configuration (R9), and no agent has a step once a fault is recorded (R201). -/
def guarded (s : State) (k : Answer) : Answer :=
  if s.cfg.wf then
    match s.fault with
    | some r => .fault (.halted r)
    | none => k
  else .refused .illFormedConfig

/-! ## Checks at issue -/

/-- The issue checks after decoding, in R88's order: the agent's class, the channel's range, the agent is Idle; then the
operation's first step.  `d` is the direction the command names, if its operation takes one. -/
def issue (op : Op) (d : Option DirId) (body : State → Except Trap State) (s : State) : Answer :=
  guarded s <|
    if mayIssue op s.port.agent then
      if d.all s.hasDir then
        if s.agentIdle s.port.agent then runStep s.port.agent op.code d body s
        else .refused .agentNotIdle
      else .next (s.raise s.port.agent op.code none
        ⟨.invalidChannel, BitVec.ofNat 64 ((d.map DirId.ch).getD 0)⟩)
    else .next (s.raise s.port.agent op.code d ⟨.wrongAgent, BitVec.ofNat 64 s.port.agent.cls⟩)

end Sys2Proof.Machine
end

