-- ==== Sys2Proof/Machine/Operands.lean ====
section
/-! DEFINITION. Operand and register-word forms: the loop-status word (R71, R72), MERGE's operands (R122), the descriptor
entry (R76 to R79), the source's call names (R90), the result codes (R92), the assembler's lines (R89). -/

namespace Sys2Proof.Machine

/-- `epoch = status[31:16]` (R71). -/
def statusEpoch (status : U32) : Nat := (status.extractLsb' 16 16).toNat

/-- `slot = status[15:0]` (R71). -/
def statusSlot (status : U32) : Nat := (status.extractLsb' 0 16).toNat

/-- `raw = epoch * CAP + slot`; none when `slot >= CAP` (R72). -/
def statusRaw (cap : Nat) (status : U32) : Option Nat :=
  if statusSlot status < cap then some (statusEpoch status * cap + statusSlot status) else none

/-- MERGE's operand checks, in R122's order: `k` of a legal capacity for a raw in range, or the offending operand. -/
def mergeOperands (o : OperandRecord) : Except Trap Nat :=
  match capLog2 o.capacity.toNat with
  | none => .error ⟨.mergeArgument, o.capacity.zeroExtend 64⟩
  | some k =>
    if o.raw.toNat < epochSpan k then .ok k
    else .error ⟨.mergeArgument, o.raw.zeroExtend 64⟩

/-- A one-bit flag placed at a bit position of a 32-bit word. -/
def flagAt (b : Bool) (pos : Nat) : U32 := (if b then 1#32 else 0#32) <<< pos

/-- "Generate no interrupt": 0 exactly when `i mod K = IRQ_PHASE` (R77). -/
def noirq (g : Cfg) (c i : Nat) : Bool := i % g.perIrq c != (g.chan c).irqPhase

/-- "Not-last": 1 on every slot unless the buffers are contiguous (R78). -/
def notlast (g : Cfg) (c : Nat) : Bool := !(g.chan c).contiguous

/-- `ctrl(i)`: the transfer size and the two flags (R76, R79). -/
def descCtrl (g : Cfg) (c i : Nat) : U32 :=
  BitVec.ofNat 32 (g.blockSize c) ||| flagAt (noirq g c i) g.descNoirqBit ||| flagAt (notlast g c) g.descNotlastBit

/-- The low half of a bus address (R62). -/
def busLo (bus : U64) : U32 := bus.extractLsb' 0 32

/-- The high half of a bus address (R62). -/
def busHi (bus : U64) : U32 := bus.extractLsb' 32 32

/-- The three writes of slot `i`'s descriptor entry, in order; the address words carry slot `i`'s own bus address (R76,
R104). -/
def descWrites (g : Cfg) (d : DirId) (i : Nat) : List (U32 × U32) :=
  [(g.offDescCtrl d, descCtrl g d.ch i),
   (g.offDescAddrLo d, busLo (g.slotBus d i)),
   (g.offDescAddrHi d, busHi (g.slotBus d i))]

/-- A command without its agent: the instruction and its operand record. -/
abbrev Command := Instr × OperandRecord

/-- `start(c, dir)` (R90). -/
def callStart (c : Nat) (dir : Dir) : Command := (.start c dir, OperandRecord.zero)
/-- `stop(c, dir)` (R90). -/
def callStop (c : Nat) (dir : Dir) : Command := (.stop c dir, OperandRecord.zero)
/-- A SERVICE operand record (R84). -/
def serviceRecord (req : RequestId) (buf : BufferRef) (len : U64) : OperandRecord :=
  { OperandRecord.zero with req := req, buf := buf, len := len }
/-- `serviceRead(c, req, buf, len)`: device to host, the writer direction (R90, R157). -/
def callServiceRead (c : Nat) (req : RequestId) (buf : BufferRef) (len : U64) : Command :=
  (.service c .wr, serviceRecord req buf len)
/-- `serviceWrite(c, req, buf, len)`: host to device, the reader direction (R90, R157). -/
def callServiceWrite (c : Nat) (req : RequestId) (buf : BufferRef) (len : U64) : Command :=
  (.service c .rd, serviceRecord req buf len)
/-- `onInterruptTopHalf()` (R90). -/
def callTopHalf : Command := (.topHalf, OperandRecord.zero)
/-- `onInterruptBottomHalf()` (R90). -/
def callBottomHalf : Command := (.bottomHalf, OperandRecord.zero)
/-- `available(c, dir)` (R90). -/
def callAvailable (c : Nat) (dir : Dir) : Command := (.available c dir, OperandRecord.zero)
/-- `ENABLE_DIR_IRQ c, dir` (R90). -/
def callEnableDirIrq (g : Cfg) (d : DirId) : Command := (.irqEnable (g.irq d), OperandRecord.zero)
/-- `DISABLE_DIR_IRQ c, dir` (R90). -/
def callDisableDirIrq (g : Cfg) (d : DirId) : Command := (.irqDisable (g.irq d), OperandRecord.zero)

/-- A command as an agent issues it: the instruction's word with the operand record (R81). -/
def callBy (a : AgentId) (x : Command) : Call := ⟨a, encode x.1, x.2⟩

/-- A completion status's numeric code (R92). -/
def Status.code : Status → Nat
  | .success => 0
  | .channelNotActive => 1
  | .cancelled => 2
  | .superseded => 3

/-- A service result's kind code (R92); none for the results that are no ServiceResult. -/
def Result.kindCode : Result → Option Nat
  | .deferred => some 0
  | .completed _ _ => some 1
  | .merged _ => none
  | .available _ => none
  | .handled _ => none
  | .done => none

/-- `handled` as a number (R92). -/
def handledCode (b : Bool) : Nat := if b then 1 else 0

/-- A lifecycle state's code, START_BEGIN's `info` (R102, R202). -/
def Life.code : Life → U64
  | .stopped => 0#64
  | .starting => 1#64
  | .running => 2#64
  | .stopping => 3#64

/-- The assembler's line for a command (R89). -/
def asmLine : Command → String
  | (.start c d, _) => "START " ++ toString c ++ ", " ++ d.asm
  | (.stop c d, _) => "STOP " ++ toString c ++ ", " ++ d.asm
  | (.merge, o) => "MERGE " ++ toString o.last.toNat ++ ", " ++ toString o.raw.toNat ++ ", " ++ toString o.capacity.toNat
  | (.updateHw c d, _) => "UPDATE_HW " ++ toString c ++ ", " ++ d.asm
  | (.available c d, _) => "AVAILABLE " ++ toString c ++ ", " ++ d.asm
  | (.service c d, o) =>
    "SERVICE " ++ toString c ++ ", " ++ d.asm ++ ", " ++ toString o.req.toNat ++ ", " ++ toString o.buf.handle ++ ", " ++
      toString o.len.toNat
  | (.topHalf, _) => "TOP_HALF"
  | (.bottomHalf, _) => "BOTTOM_HALF"
  | (.irqEnable n, _) => "IRQ_ENABLE " ++ toString n
  | (.irqDisable n, _) => "IRQ_DISABLE " ++ toString n

end Sys2Proof.Machine
end

