-- ==== Sys2Proof/Machine/CounterTracker.lean ====
section
/-! DEFINITION. The counter tracker (41_counter_tracker.md): the merge, MERGE, UPDATE_HW, AVAILABLE. -/

namespace Sys2Proof.Machine

/-- `last`'s bits above the merged field, with `raw` in the field (R121). -/
def mergeField (h : U64) (raw k : Nat) : Nat :=
  (h &&& ~~~(BitVec.ofNat 64 (epochSpan k - 1)) ||| BitVec.ofNat 64 raw).toNat

/-- The merge of R121: the field replaced, one epoch span added when the value fell below `last`; a result of 2^64 or more
is the fault `HwCountOverflow`. -/
def merge2 (h last : U64) (raw k : Nat) : Except Trap U64 :=
  if mergeField h raw k < last.toNat then
    if mergeField h raw k + epochSpan k < 2 ^ 64 then .ok (BitVec.ofNat 64 (mergeField h raw k + epochSpan k))
    else .error ⟨.hwCountOverflow, last⟩
  else .ok (BitVec.ofNat 64 (mergeField h raw k))

/-- `merge(last, raw, k) = merge2(last, last, raw, k)` (R121). -/
def merge (last : U64) (raw k : Nat) : Except Trap U64 := merge2 last last raw k

/-- MERGE's one step (R122). -/
def mergeStep (s : State) : Except Trap State :=
  match mergeOperands s.port.operands with
  | .error e => .error e
  | .ok k =>
    match merge s.port.operands.last s.port.operands.raw.toNat k with
    | .error e => .error e
    | .ok m => .ok (s.deliver s.port.agent (.merged m))

/-- MERGE (R122): pure; any agent class. -/
def execMerge (s : State) : Answer := issue .merge none mergeStep s

/-- Both counters take the merged value (R124). -/
def DirState.setHw (x : DirState) (m : U64) : DirState := { x with hwCount := m, hwCountLast := m }

/-- The locked merge of a loop-status word into a direction's counters (R124). -/
def mergeStatus (d : DirId) (status : U32) (s : State) : Except Trap State :=
  match statusRaw (s.cfg.cap d.ch) status with
  | none => .error ⟨.loopStatusSlotRange, status.zeroExtend 64⟩
  | some raw =>
    match merge2 (s.dir d).hwCount (s.dir d).hwCountLast raw (s.cfg.k d.ch) with
    | .error e => .error e
    | .ok m => .ok (s.updDir d (·.setHw m))

/-- UpdRead of a standalone UPDATE_HW (R123): not Running, it finishes with no read; else it reads the loop status. -/
def updReadStep (d : DirId) (s : State) : Except Trap State :=
  if (s.dir d).st = .running then
    .ok ((s.mmioRead (s.cfg.offLoopStatus d)).setInt (.upd d (.merge s.nextDraw)))
  else .ok ((s.setInt .idle).deliver .interrupt .done)

/-- UpdMerge of a standalone UPDATE_HW (R124), its last step. -/
def updMergeStep (d : DirId) (status : U32) (s : State) : Except Trap State :=
  match mergeStatus d status s with
  | .error e => .error e
  | .ok t => .ok ((t.setInt .idle).deliver .interrupt .done)

/-- The next step of a standalone UPDATE_HW. -/
def updStep (d : DirId) : UpdPhase → State → Except Trap State
  | .read => updReadStep d
  | .merge status => updMergeStep d status

/-- UPDATE_HW (R123): its first step, the loop-status read.  `updStep` is the second. -/
def execUpdateHw (ch : Nat) (dir : Dir) (s : State) : Answer :=
  issue .updateHw (some ⟨ch, dir⟩) (updReadStep ⟨ch, dir⟩) s

/-- `available`, the snapshot `hw_count - sw_count` as an integer; below 0 it is the fault `AvailableNegative` (R126). -/
def availableOf (x : DirState) : Except Trap Nat :=
  if x.hwCount.toNat < x.swCount.toNat then .error ⟨.availableNegative, x.swCount - x.hwCount⟩
  else .ok (x.hwCount.toNat - x.swCount.toNat)

/-- AVAILABLE's one step (R126). -/
def availableStep (d : DirId) (s : State) : Except Trap State :=
  match availableOf (s.dir d) with
  | .error e => .error e
  | .ok a => .ok (s.deliver s.port.agent (.available (BitVec.ofNat 64 a)))

/-- AVAILABLE (R126): any agent class. -/
def execAvailable (ch : Nat) (dir : Dir) (s : State) : Answer :=
  issue .available (some ⟨ch, dir⟩) (availableStep ⟨ch, dir⟩) s

end Sys2Proof.Machine
end

