-- ==== Sys2Proof/Machine/DescriptorProgrammer.lean ====
section
/-! DEFINITION. The descriptor programmer (40_descriptor_programmer.md): START and STOP, each a begin step and an end step. -/

namespace Sys2Proof.Machine

/-- Set a direction's lifecycle state. -/
def DirState.setSt (x : DirState) (l : Life) : DirState := { x with st := l }

/-- START_BEGIN (R102). -/
def startBegin (d : DirId) (s : State) : Except Trap State :=
  if (s.dir d).st ≠ .stopped then .error ⟨.startWhileActive, (s.dir d).st.code⟩
  else if s.busy d then .error ⟨.lifecycleRace, 0#64⟩
  else .ok ((s.updDir d (·.setSt .starting)).setLife (.startEnd d))

/-- START_END's three opening writes (R103). -/
def startOpening (g : Cfg) (d : DirId) : List (U32 × U32) :=
  [(g.offDirEnable d, g.valDisable), (g.offTableFlush d, g.valFlush), (g.offLoopMode d, g.valLoopOff)]

/-- START_END's entry writes: slots in ascending order, three writes each (R103). -/
def startEntries (g : Cfg) (d : DirId) : List (U32 × U32) := (List.range (g.cap d.ch)).flatMap (descWrites g d)

/-- START_END (R103): the opening writes, the entries, loop mode on; the counters zeroed in one locked section; the enable
write; the direction is Running. -/
def startEnd (d : DirId) (s : State) : Except Trap State :=
  let s1 := s.emits (writeEvents (startOpening s.cfg d ++ startEntries s.cfg d ++ [(s.cfg.offLoopMode d, s.cfg.valLoopOn)]))
  let s2 := s1.updDir d DirState.zeroed
  let s3 := s2.mmioWrite (s.cfg.offDirEnable d) s.cfg.valEnable
  .ok (((s3.updDir d (·.setSt .running)).setLife .idle).deliver .lifecycle .done)

/-- START (R101): its first step, START_BEGIN.  `startEnd` is the second. -/
def execStart (ch : Nat) (dir : Dir) (s : State) : Answer :=
  issue .start (some ⟨ch, dir⟩) (startBegin ⟨ch, dir⟩) s

/-- The completion STOP_BEGIN gives a deferred request (R107). -/
def cancelEvents : Option DeferredReq → List Event
  | some r => [.complete r.req 0#64 .cancelled]
  | none => []

/-- STOP_BEGIN (R107): the direction is Stopping and its deferred request, if any, is cancelled. -/
def stopBegin (d : DirId) (s : State) : Except Trap State :=
  if s.busy d then .error ⟨.lifecycleRace, 0#64⟩
  else
    let s1 := s.updDir d (fun x => { x.setSt .stopping with deferred := none })
    .ok ((s1.emits (cancelEvents (s.dir d).deferred)).setLife (.stopEnd d))

/-- STOP_END (R108): loop mode off, flush, settle, disable, flush; the counters zeroed; the direction is Stopped. -/
def stopEnd (d : DirId) (s : State) : Except Trap State :=
  let s1 := s.emits (writeEvents [(s.cfg.offLoopMode d, s.cfg.valLoopOff), (s.cfg.offTableFlush d, s.cfg.valFlush)])
  let s2 := s1.emit (.settle d.ch d.dir)
  let s3 := s2.emits (writeEvents [(s.cfg.offDirEnable d, s.cfg.valDisable), (s.cfg.offTableFlush d, s.cfg.valFlush)])
  .ok (((s3.updDir d (·.zeroed.setSt .stopped)).setLife .idle).deliver .lifecycle .done)

/-- STOP (R106): its first step, STOP_BEGIN.  `stopEnd` is the second. -/
def execStop (ch : Nat) (dir : Dir) (s : State) : Answer :=
  issue .stop (some ⟨ch, dir⟩) (stopBegin ⟨ch, dir⟩) s

end Sys2Proof.Machine
end

