-- ==== Sys2Proof/Machine/Flags.lean ====
section
/-! DEFINITION. The interrupt masks' computations.  The block has no condition flags; its flags are the bits of the masks
and the top half's `handled` (R38, R73, R160). -/

namespace Sys2Proof.Machine

/-- The mask of interrupt bit `n`, `1 << n` as a u32 (R12, R174). -/
def bitMask (n : Nat) : U32 := 1#32 <<< n

/-- `mask(d) = 1 << bit(d)` (R12). -/
def dirMask (g : Cfg) (d : DirId) : U32 := bitMask (g.irq d)

/-- "Merge into" a mask: bitwise OR (R162, R174). -/
def maskMerge (m v : U32) : U32 := m ||| v

/-- "Subtract from" a mask: AND NOT (R172, R175). -/
def maskSubtract (m v : U32) : U32 := m &&& ~~~v

/-- The bottom half's snapshot, `pending_mask AND enabled_mask` (R166). -/
def snapshotMask (pending enabled : U32) : U32 := pending &&& enabled

/-- The direction's interrupt bit is set in the mask (R167). -/
def maskHas (m : U32) (g : Cfg) (d : DirId) : Bool := (m &&& dirMask g d) != 0#32

/-- `handled`: the vector read was not zero (R38). -/
def handledFlag (v : U32) : Bool := v != 0#32

end Sys2Proof.Machine
end

