-- ==== Sys2Proof/Machine/RequestServicer.lean ====
section
/-! DEFINITION. The request servicer (42_request_servicer.md): the steps of a servicer call, for a client's SERVICE and for
the bottom half's re-invocation alike. -/

namespace Sys2Proof.Machine

/-- What a servicer step leaves its call at: a further step, or its result (R141 to R149). -/
inductive SvcNext where
  | more (f : SvcFrame)
  | finish (r : Result)
  deriving DecidableEq, Repr

/-- The loop's test, "loop while L ≥ block_size": the phase of the next iteration, or the outcome (R141, R146). -/
def loopPhase (block : Nat) (left : U64) : SvcPhase := if block ≤ left.toNat then .snapshot else .outcome

/-- Set a direction's claim. -/
def DirState.setClaim (x : DirState) (c : Option AgentId) : DirState := { x with claim := c }

/-- `Enter` (R141): a direction that is not Running completes the call at once; a held claim is the fault
`ConcurrentServicer`; else the call takes the claim. -/
def svcEnter (me : AgentId) (f : SvcFrame) (s : State) : Except Trap (State × SvcNext) :=
  if (s.dir f.d).st = .running then
    match (s.dir f.d).claim with
    | some holder => .error ⟨.concurrentServicer, holder.info⟩
    | none =>
      .ok (s.updDir f.d (·.setClaim (some me)), .more { f with ph := loopPhase (s.cfg.blockSize f.d.ch) f.left })
  else .ok (s.emit (.complete f.req 0#64 .channelNotActive), .finish (.completed 0#64 .channelNotActive))

/-- Count one overflow when the snapshot exceeds `CAP - K`, modulo 2^64 (R143). -/
def countOverflow (g : Cfg) (c a : Nat) (x : DirState) : DirState :=
  if g.cap c - g.perIrq c < a then { x with overflow := x.overflow + 1#64 } else x

/-- The slot of a count, `sw_count mod CAP` (R61). -/
def slotOf (g : Cfg) (c : Nat) (count : U64) : U16 := BitVec.ofNat 16 (count.toNat % g.cap c)

/-- `Snapshot` (R142, R144). -/
def svcSnapshot (f : SvcFrame) (s : State) : Except Trap (State × SvcNext) :=
  match availableOf (s.dir f.d) with
  | .error e => .error e
  | .ok 0 => .ok (s, .more { f with ph := .outcome })
  | .ok a =>
    .ok (s.updDir f.d (countOverflow s.cfg f.d.ch a),
      .more { f with ph := .copy (slotOf s.cfg f.d.ch (s.dir f.d).swCount) })

/-- `Copy(slot)`, outside the lock: one block at the buffer offset of the bytes transferred so far (R145). -/
def svcCopy (slot : U16) (f : SvcFrame) (s : State) : Except Trap (State × SvcNext) :=
  .ok (s.emit (.copy f.d.dir f.d.ch slot f.req f.buf f.bytes (BitVec.ofNat 64 (s.cfg.blockSize f.d.ch))),
    .more { f with ph := .commit })

/-- `Commit` (R146). -/
def svcCommit (f : SvcFrame) (s : State) : Except Trap (State × SvcNext) :=
  let b := BitVec.ofNat 64 (s.cfg.blockSize f.d.ch)
  .ok (s.updDir f.d (fun x => { x with swCount := x.swCount + 1#64 }),
    .more { f with left := f.left - b, bytes := f.bytes + b, ph := loopPhase (s.cfg.blockSize f.d.ch) (f.left - b) })

/-- The signal to a different request that an outcome drops from the deferred slot (R150). -/
def displaceEvents (req : RequestId) : Option DeferredReq → List Event
  | some r => if r.req = req then [] else [.complete r.req 0#64 .superseded]
  | none => []

/-- What the outcome leaves in the deferred slot: nothing after progress (R148), the request itself without (R149). -/
def outcomeDeferred (f : SvcFrame) : Option DeferredReq :=
  if f.bytes = 0#64 then some ⟨f.req, f.buf, f.left⟩ else none

/-- The outcome's own event (R148, R149). -/
def outcomeEvent (f : SvcFrame) : Event :=
  if f.bytes = 0#64 then .deferred f.req f.left else .complete f.req f.bytes .success

/-- The outcome's result record (R148, R149). -/
def outcomeResult (f : SvcFrame) : Result :=
  if f.bytes = 0#64 then .deferred else .completed f.bytes .success

/-- `Outcome` (R148 to R150): the displaced request's signal, the deferred slot, the claim released, the call's event. -/
def svcOutcome (f : SvcFrame) (s : State) : Except Trap (State × SvcNext) :=
  let s1 := s.updDir f.d (fun x => { x.setClaim none with deferred := outcomeDeferred f })
  .ok (s1.emits (displaceEvents f.req (s.dir f.d).deferred ++ [outcomeEvent f]), .finish (outcomeResult f))

/-- One step of a servicer call by agent `me` (R41). -/
def svcStep (me : AgentId) (f : SvcFrame) (s : State) : Except Trap (State × SvcNext) :=
  match f.ph with
  | .enter => svcEnter me f s
  | .snapshot => svcSnapshot f s
  | .copy slot => svcCopy slot f s
  | .commit => svcCommit f s
  | .outcome => svcOutcome f s

/-- A client's servicer step: its frame moves on, or it is Idle and its result is delivered (R151). -/
def clientStep (n : Nat) (f : SvcFrame) (s : State) : Except Trap State :=
  match svcStep (.client n) f s with
  | .error e => .error e
  | .ok (t, .more f') => .ok (t.setClient n (some f'))
  | .ok (t, .finish r) => .ok ((t.setClient n none).deliver (.client n) r)

/-- The frame a SERVICE starts with: the call's operands, `L = len`, no bytes (R41, R141). -/
def serviceFrame (d : DirId) (o : OperandRecord) : SvcFrame := ⟨d, o.req, o.buf, o.len, 0#64, .enter⟩

/-- SERVICE's first step, for the client that issues it.  No other agent class may issue it, so the last case is never
met (R211). -/
def serviceStep (d : DirId) (s : State) : Except Trap State :=
  match s.port.agent with
  | .client n => clientStep n (serviceFrame d s.port.operands) s
  | .interrupt => .error ⟨.wrongAgent, 0#64⟩
  | .lifecycle => .error ⟨.wrongAgent, 1#64⟩

/-- SERVICE (R140): its first step, `Enter`.  `clientStep` takes the others. -/
def execService (ch : Nat) (dir : Dir) (s : State) : Answer :=
  issue .service (some ⟨ch, dir⟩) (serviceStep ⟨ch, dir⟩) s

end Sys2Proof.Machine
end

