-- ==== Sys2Proof/Machine/InterruptDispatcher.lean ====
section
/-! DEFINITION. The interrupt dispatcher (43_interrupt_dispatcher.md): TOP_HALF, BOTTOM_HALF, IRQ_ENABLE, IRQ_DISABLE. -/

namespace Sys2Proof.Machine

/-- Set the captured pending mask. -/
def State.setPending (s : State) (m : U32) : State := { s with pendingMask := m }

/-- Set the enabled mask. -/
def State.setEnabled (s : State) (m : U32) : State := { s with enabledMask := m }

/-- Set the scheduling flag of the bottom half. -/
def State.setScheduled (s : State) (b : Bool) : State := { s with bhScheduled := b }

/-- What TOP_HALF does once its vector read returned `v`: nothing for a zero vector (R163), else capture, clear and
schedule (R162). -/
def topHalfCapture (v : U32) (s : State) : State :=
  if handledFlag v then
    ((s.setPending (maskMerge s.pendingMask v)).mmioWrite s.cfg.offIntClear v).setScheduled true
  else s

/-- TOP_HALF's one step (R162). -/
def topHalfStep (s : State) : Except Trap State :=
  .ok (((topHalfCapture s.nextDraw (s.mmioRead s.cfg.offIntVector)).emit (.handled (handledFlag s.nextDraw))).deliver
    .interrupt (.handled (handledFlag s.nextDraw)))

/-- TOP_HALF (R161). -/
def execTopHalf (s : State) : Answer := issue .topHalf none topHalfStep s

/-- The first direction in processing order (R167). -/
def firstDir : DirId := ⟨0, .rd⟩

/-- The direction after `d` in processing order: RD before WR, channels ascending; none after `(N_CH - 1, WR)` (R167,
R171). -/
def nextDir (g : Cfg) (d : DirId) : Option DirId :=
  match d.dir with
  | .rd => some ⟨d.ch, .wr⟩
  | .wr => if d.ch + 1 < g.nCh then some ⟨d.ch + 1, .rd⟩ else none

/-- `advance(cur)` (R171): the next direction's `Test`, or BH_END after the last. -/
def bhAdvance (g : Cfg) (f : BhFrame) : IntPhase :=
  match nextDir g f.cur with
  | some d => .bh { f with cur := d } .test
  | none => .bh f .finish

/-- BH_BEGIN (R166). -/
def bhBegin (s : State) : Except Trap State :=
  .ok ((s.setScheduled false).setInt
    (.bh ⟨snapshotMask s.pendingMask s.enabledMask, 0#32, firstDir⟩ .test))

/-- `Test` (R167). -/
def bhTest (f : BhFrame) (s : State) : Except Trap State :=
  if maskHas f.snap s.cfg f.cur then .ok (s.setInt (.bh f .updRead)) else .ok (s.setInt (bhAdvance s.cfg f))

/-- `UpdRead` in a bottom half (R168): a direction that is not Running is not read; its bit is only consumed. -/
def bhUpdRead (f : BhFrame) (s : State) : Except Trap State :=
  if (s.dir f.cur).st = .running then
    .ok ((s.mmioRead (s.cfg.offLoopStatus f.cur)).setInt (.bh f (.updMerge s.nextDraw)))
  else .ok (s.setInt (.bh f .accum))

/-- `UpdMerge(status)` in a bottom half (R168, R124). -/
def bhUpdMerge (f : BhFrame) (status : U32) (s : State) : Except Trap State :=
  match mergeStatus f.cur status s with
  | .error e => .error e
  | .ok t => .ok (t.setInt (.bh f .deferCheck))

/-- The frame of a re-invocation of the servicer for a deferred request (R152, R169). -/
def reinvokeFrame (g : Cfg) (d : DirId) (r : DeferredReq) : SvcFrame :=
  ⟨d, r.req, r.buf, r.left, 0#64, loopPhase (g.blockSize d.ch) r.left⟩

/-- `DeferCheck` (R169): a deferred request is re-invoked under the interrupt agent's claim; a claim held by another call is
the fault `ConcurrentServicer`. -/
def bhDeferCheck (f : BhFrame) (s : State) : Except Trap State :=
  match (s.dir f.cur).deferred with
  | none => .ok (s.setInt (.bh f .accum))
  | some r =>
    match (s.dir f.cur).claim with
    | some holder => .error ⟨.concurrentServicer, holder.info⟩
    | none =>
      .ok ((s.updDir f.cur (·.setClaim (some .interrupt))).setInt (.bh f (.svc (reinvokeFrame s.cfg f.cur r))))

/-- A step of a re-invocation (R170): its frame moves on, or the bottom half goes on to `Accum` (R152). -/
def bhSvc (f : BhFrame) (v : SvcFrame) (s : State) : Except Trap State :=
  match svcStep .interrupt v s with
  | .error e => .error e
  | .ok (t, .more v') => .ok (t.setInt (.bh f (.svc v')))
  | .ok (t, .finish _) => .ok (t.setInt (.bh f .accum))

/-- `Accum` (R171): the direction's bit joins the clear-mask; advance. -/
def bhAccum (f : BhFrame) (s : State) : Except Trap State :=
  .ok (s.setInt (bhAdvance s.cfg { f with clear := maskMerge f.clear (dirMask s.cfg f.cur) }))

/-- BH_END (R172), the last step. -/
def bhEnd (f : BhFrame) (s : State) : Except Trap State :=
  .ok (((s.setPending (maskSubtract s.pendingMask f.clear)).setInt .idle).deliver .interrupt .done)

/-- The next step of a bottom half. -/
def bhStep (f : BhFrame) : BhPhase → State → Except Trap State
  | .test => bhTest f
  | .updRead => bhUpdRead f
  | .updMerge status => bhUpdMerge f status
  | .deferCheck => bhDeferCheck f
  | .svc v => bhSvc f v
  | .accum => bhAccum f
  | .finish => bhEnd f

/-- BOTTOM_HALF (R165): its first step, BH_BEGIN.  `bhStep` takes the others. -/
def execBottomHalf (s : State) : Answer := issue .bottomHalf none bhBegin s

/-- IRQ_ENABLE's one step (R174): the enable and the clear register take the whole updated mask, in that order. -/
def irqEnableStep (n : Nat) (s : State) : Except Trap State :=
  let m := maskMerge s.enabledMask (bitMask n)
  .ok ((((s.setEnabled m).mmioWrite s.cfg.offIntEnable m).mmioWrite s.cfg.offIntClear m).deliver .lifecycle .done)

/-- IRQ_ENABLE (R174). -/
def execIrqEnable (n : Nat) (s : State) : Answer := issue .irqEnable none (irqEnableStep n) s

/-- IRQ_DISABLE's one step (R175): only the enable register is rewritten. -/
def irqDisableStep (n : Nat) (s : State) : Except Trap State :=
  let m := maskSubtract s.enabledMask (bitMask n)
  .ok (((s.setEnabled m).mmioWrite s.cfg.offIntEnable m).deliver .lifecycle .done)

/-- IRQ_DISABLE (R175). -/
def execIrqDisable (n : Nat) (s : State) : Answer := issue .irqDisable none (irqDisableStep n) s

end Sys2Proof.Machine
end

