-- ==== Sys2Proof/Machine/Dispatch.lean ====
section
/-! DEFINITION. One arm per instruction: the first step of the command at the port (R40, R81). -/

namespace Sys2Proof.Machine

-- The command's agent and operand record are at State's port; the later steps are the agent's own (Agents.lean).
def exec (i : Instr) (s : State) : Host.Outcome State Fault Refusal :=
  match i with
  | .start ch dir => Sys2Proof.Machine.execStart ch dir s
  | .stop ch dir => Sys2Proof.Machine.execStop ch dir s
  | .merge => Sys2Proof.Machine.execMerge s
  | .updateHw ch dir => Sys2Proof.Machine.execUpdateHw ch dir s
  | .available ch dir => Sys2Proof.Machine.execAvailable ch dir s
  | .service ch dir => Sys2Proof.Machine.execService ch dir s
  | .topHalf => Sys2Proof.Machine.execTopHalf s
  | .bottomHalf => Sys2Proof.Machine.execBottomHalf s
  | .irqEnable n => Sys2Proof.Machine.execIrqEnable n s
  | .irqDisable n => Sys2Proof.Machine.execIrqDisable n s

end Sys2Proof.Machine
end

