-- ==== Sys2Proof/Machine/Agents.lean ====
section
/-! DEFINITION. The scheduler's side of a step (60_exceptions.md R210 to R212, R220): an agent's next step, the issue of a
command word, and the choice when the environment has laid down none. -/

namespace Sys2Proof.Machine

/-- The next step of an agent that is not Idle (R40, R212).  A fault in a bottom half names BOTTOM_HALF as its operation, and
no direction, since that operation has none (R201). -/
def agentStep (a : AgentId) (s : State) : Answer :=
  guarded s <|
    match a with
    | .interrupt =>
      match s.intPhase with
      | .idle => .refused .noEnabledStep
      | .upd d p => runStep .interrupt Op.updateHw.code (some d) (updStep d p) s
      | .bh f p => runStep .interrupt Op.bottomHalf.code none (bhStep f p) s
    | .lifecycle =>
      match s.lifePhase with
      | .idle => .refused .noEnabledStep
      | .startEnd d => runStep .lifecycle Op.start.code (some d) (startEnd d) s
      | .stopEnd d => runStep .lifecycle Op.stop.code (some d) (stopEnd d) s
    | .client n =>
      match s.client n with
      | none => .refused .noEnabledStep
      | some f => runStep (.client n) Op.service.code (some f.d) (clientStep n f) s

/-- An issued word that no row matches: `IllegalCommand` with the word (R86), its operation the word's bits 31:24 and no
direction (R201). -/
def illegalCommand (s : State) : Answer :=
  guarded s (runStep s.port.agent (wordOp s.port.word) none
    (fun _ => .error ⟨.illegalCommand, s.port.word.zeroExtend 64⟩) s)

/-- The issue of the word at the port: decode first (R88), then the instruction's meaning. -/
def issueWord (s : State) : Answer :=
  match decode s.port.word with
  | .ok i => exec i s
  | .error _ => illegalCommand s

/-- Latch a command at the port. -/
def State.latch (s : State) (c : Call) : State := { s with port := c }

/-- Clear the port. -/
def State.release (s : State) : State := s.latch Call.vacant

/-- The answer of an issue, with the port cleared: no operand record survives its operation (R37).  SERVICE's frame has its
copy by then, and no other operation of more than one step has operands (R84). -/
def released : Answer → Answer
  | .next t => .next t.release
  | .fault r => .fault r
  | .refused r => .refused r

/-- Leave UPDATE_HW at its `UpdRead` phase (R40). -/
def postUpdateHw (d : DirId) (s : State) : Except Trap State := .ok (s.setInt (.upd d .read))

/-- Leave a client's SERVICE at its `Enter` phase (R41, R109).  The permission check has seen to it that the agent is a
client. -/
def postService (d : DirId) (s : State) : Except Trap State :=
  match s.port.agent with
  | .client n => .ok (s.setClient n (some (serviceFrame d s.port.operands)))
  | .interrupt => .error ⟨.wrongAgent, 0#64⟩
  | .lifecycle => .error ⟨.wrongAgent, 1#64⟩

/-- The issue checks of the word at the port without its first step, where R40 gives the first step a phase of its own
(SERVICE, UPDATE_HW); the other operations take their first step from Idle, so they are issued whole. -/
def postWord (s : State) : Answer :=
  match decode s.port.word with
  | .ok (.updateHw ch dir) => issue .updateHw (some ⟨ch, dir⟩) (postUpdateHw ⟨ch, dir⟩) s
  | .ok (.service ch dir) => issue .service (some ⟨ch, dir⟩) (postService ⟨ch, dir⟩) s
  | .ok i => exec i s
  | .error _ => illegalCommand s

/-- One choice of the scheduler. -/
def takeInput (x : Input) (s : State) : Answer :=
  match x with
  | .issue c => released (issueWord (s.latch c))
  | .post c => released (postWord (s.latch c))
  | .run a => agentStep a s

/-- The agents that still have a step when the environment has stopped issuing: those that are not Idle (R212, R220). -/
def State.candidates (s : State) : List AgentId :=
  (if s.intPhase != .idle then [.interrupt] else []) ++
  (if s.lifePhase != .idle then [.lifecycle] else []) ++
  s.clients.map fun p => .client p.1

/-- The candidate the free value picks. -/
def State.pick (s : State) : Option AgentId :=
  s.candidates[Config.schedulerPick s.freeCount % s.candidates.length]?

/-- A step with no input left: that of one of the candidates, which one being free, or the end of the run (R212, R220). -/
def drain (s : State) : Answer :=
  guarded s <|
    match s.pick with
    | some a => agentStep a { s with freeCount := s.freeCount + 1 }
    | none => .fault .endOfRun

/-- The agent that `withFetchWord` issues a word for: one whose class may issue it (R211). -/
def defaultIssuer (s : State) (w : U32) : AgentId :=
  match decode w with
  | .ok (.start _ _) => .lifecycle
  | .ok (.stop _ _) => .lifecycle
  | .ok .merge => .client (freshClient s.clients)
  | .ok (.updateHw _ _) => .interrupt
  | .ok (.available _ _) => .client (freshClient s.clients)
  | .ok (.service _ _) => .client (freshClient s.clients)
  | .ok .topHalf => .interrupt
  | .ok .bottomHalf => .interrupt
  | .ok (.irqEnable _) => .lifecycle
  | .ok (.irqDisable _) => .lifecycle
  | .error _ => .client (freshClient s.clients)

/-- The call that `withFetchWord` lays down: the word, an agent that may issue it, and a record of zeros but for MERGE's
capacity, which is 1, the least legal one (R122).  DESIGN CHOICE (log entry 4): unsafe. -/
def fetchCall (s : State) (nbits w : Nat) : Call :=
  let word : U32 := BitVec.ofNat 32 (w % 2 ^ nbits)
  ⟨defaultIssuer s word, word, { OperandRecord.zero with capacity := 1#32 }⟩

end Sys2Proof.Machine
end

