-- ==== Sys2Proof/Machine/Step.lean ====
section
/-! DEFINITION. One step of the machine: the scheduler's next choice (R212). -/

namespace Sys2Proof.Machine

/-- One step: the next input is taken and consumed; with none left, `drain`. -/
def step (s : State) : Host.Outcome State Fault Refusal :=
  match s.inputs with
  | x :: rest => takeInput x { s with inputs := rest }
  | [] => drain s

/-- `s` with the instruction word laid down as the environment's next command (log entry 4). -/
def State.withFetchWord (s : State) (nbits w : Nat) : State :=
  { s with inputs := .issue (fetchCall s nbits w) :: s.inputs }

end Sys2Proof.Machine
end

