-- ==== Sys2Proof/Safety.lean ====
section
/-! DEFINITION. The words the statements use: when an agent may issue, which agent a step belongs to, the block's invariant,
the hardware's contract.  The step assumes none of them. -/

namespace Sys2Proof.Machine

/-- Every direction instance of a configuration, in the bottom half's processing order (R167). -/
def allDirs (g : Cfg) : List DirId := (List.range g.nCh).flatMap fun c => [⟨c, .rd⟩, ⟨c, .wr⟩]

/-- A configuration that may run and a block that has recorded no fault (R9, R201). -/
abbrev State.live (s : State) : Prop := s.cfg.wf = true ∧ s.fault = none

/-- Every channel has its record (R20). -/
abbrev State.shaped (s : State) : Prop := s.chans.length = s.cfg.nCh

/-- The agent at the port may issue now: the block is live and the agent is Idle (R40, R88). -/
abbrev State.ready (s : State) : Prop := s.live ∧ s.agentIdle s.port.agent = true

/-- The state in which one step records a fault: the fault record is the step's only effect (R201). -/
def State.faulted (s : State) (code : FaultCode) (op : Op) (d : Option DirId) (info : U64) : State :=
  { s with fault := some ⟨code, s.port.agent, op.code, d, info⟩ }

/-- The agent that takes the next step: the input's, or the one the free value picks (R212). -/
def State.stepper (s : State) : Option AgentId :=
  match s.inputs with
  | .issue c :: _ => some c.agent
  | .post c :: _ => some c.agent
  | .run a :: _ => some a
  | [] => s.pick

/-- The interrupt agent is re-invoking the servicer on `d` (R170). -/
def IntPhase.serving (p : IntPhase) (d : DirId) : Bool :=
  match p with
  | .bh f (.svc v) => f.cur == d && v.d == d
  | _ => false

/-- The interrupt agent's next step is the locked merge of `d` (R124, R168). -/
def IntPhase.merging (p : IntPhase) (d : DirId) : Bool :=
  match p with
  | .bh f (.updMerge _) => f.cur == d
  | .upd e (.merge _) => e == d
  | _ => false

/-- A servicer call that agent `a` has in progress (R41). -/
def State.frameOf (s : State) : AgentId → Option SvcFrame
  | .client n => s.client n
  | .lifecycle => none
  | .interrupt =>
    match s.intPhase with
    | .bh _ (.svc v) => some v
    | .bh _ .test => none
    | .bh _ .updRead => none
    | .bh _ (.updMerge _) => none
    | .bh _ .deferCheck => none
    | .bh _ .accum => none
    | .bh _ .finish => none
    | .idle => none
    | .upd _ _ => none

/-! ## The block's invariant -/

/-- A held claim belongs to a servicer call in progress on that direction (R29). -/
def claimInv (s : State) (d : DirId) : Option AgentId → Bool
  | none => true
  | some .interrupt => s.intPhase.serving d
  | some .lifecycle => false
  | some (.client n) => (s.client n).any fun f => f.d == d && f.ph != .enter

/-- One direction's part: R25, R26, what a Stopped direction holds (R110), the lifecycle agent's phase (R21), the claim. -/
def dirInv (s : State) (d : DirId) : Bool :=
  ((s.dir d).hwCount == (s.dir d).hwCountLast) &&
  decide ((s.dir d).swCount.toNat ≤ (s.dir d).hwCount.toNat) &&
  ((s.dir d).deferred.isNone || (s.dir d).st == .running) &&
  ((s.dir d).claim.isNone || (s.dir d).st == .running) &&
  ((s.dir d).st == .running || (s.dir d).st == .stopping ||
    ((s.dir d).hwCount == 0#64 && (s.dir d).swCount == 0#64)) &&
  (((s.dir d).st == .starting) == (s.lifePhase == .startEnd d)) &&
  (((s.dir d).st == .stopping) == (s.lifePhase == .stopEnd d)) &&
  claimInv s d (s.dir d).claim

/-- A servicer frame's part: its direction exists, its lengths do not overflow, and in an iteration a block remains to be
transferred into a slot that is available (R142, R146). -/
def frameInv (s : State) (f : SvcFrame) : Bool :=
  s.hasDir f.d && decide (f.bytes.toNat + f.left.toNat < 2 ^ 64) &&
  match f.ph with
  | .enter => f.bytes == 0#64
  | .snapshot => decide (s.cfg.blockSize f.d.ch ≤ f.left.toNat)
  | .copy slot =>
    decide (s.cfg.blockSize f.d.ch ≤ f.left.toNat) &&
    decide ((s.dir f.d).swCount.toNat < (s.dir f.d).hwCount.toNat) &&
    slot == slotOf s.cfg f.d.ch (s.dir f.d).swCount
  | .commit =>
    decide (s.cfg.blockSize f.d.ch ≤ f.left.toNat) &&
    decide ((s.dir f.d).swCount.toNat < (s.dir f.d).hwCount.toNat)
  | .outcome => true

/-- The clients' part: canonical list, sound frames, and a frame past `Enter` holds its direction's claim (R29). -/
def clientsInv (s : State) : Bool :=
  clientsWf s.clients &&
  s.clients.all fun p => frameInv s p.2 && (p.2.ph == .enter || (s.dir p.2.d).claim == some (.client p.1))

/-- A re-invocation's part: it holds the claim of the cursor's direction, and the deferred entry it serves stays in place
(R169). -/
def reinvokeInv (s : State) (f : BhFrame) (v : SvcFrame) : Bool :=
  v.d == f.cur && v.ph != .enter && frameInv s v && (s.dir f.cur).claim == some .interrupt &&
  (s.dir f.cur).deferred.any fun r =>
    r.req == v.req && r.buf == v.buf && r.left.toNat == v.left.toNat + v.bytes.toNat

/-- The interrupt agent's part: the cursor exists, the clear-mask lies within the snapshot and the snapshot within the
pending mask (R160, R171, R172), a direction being updated is Running (R125). -/
def intInv (s : State) : Bool :=
  match s.intPhase with
  | .idle => true
  | .upd d .read => s.hasDir d
  | .upd d (.merge _) => s.hasDir d && (s.dir d).st == .running
  | .bh f p =>
    s.hasDir f.cur && (f.clear &&& ~~~f.snap) == 0#32 && (f.snap &&& ~~~s.pendingMask) == 0#32 &&
    match p with
    | .test => true
    | .updRead => maskHas f.snap s.cfg f.cur
    | .updMerge _ => maskHas f.snap s.cfg f.cur && (s.dir f.cur).st == .running
    | .deferCheck => maskHas f.snap s.cfg f.cur && (s.dir f.cur).st == .running
    | .svc v => maskHas f.snap s.cfg f.cur && reinvokeInv s f v
    | .accum => maskHas f.snap s.cfg f.cur
    | .finish => true

/-- The lifecycle agent's part: the direction it is at exists. -/
def lifeInv (s : State) : Bool :=
  match s.lifePhase with
  | .idle => true
  | .startEnd d => s.hasDir d
  | .stopEnd d => s.hasDir d

/-- The block's invariant.  No step assumes it (R26); construction meets it and every step keeps it. -/
def BlockInv (s : State) : Prop :=
  s.cfg.wf = true ∧ s.shaped ∧ (∀ d ∈ allDirs s.cfg, dirInv s d = true) ∧ clientsInv s = true ∧ intInv s = true ∧
  lifeInv s = true

/-! ## The hardware's contract -/

/-- The loop-status word of a DMA core whose true count is `T` (R131 (b)): epoch `floor(T / CAP) mod 2^16`, slot
`T mod CAP`. -/
def statusOf (cap T : Nat) : U32 := BitVec.ofNat 32 (T / cap % 2 ^ 16 * 2 ^ 16 + T % cap)

/-- True counts sampled in turn from a count of `T0`: each is reached by an advance of less than one span (R131 (a), (c)). -/
def TrueCounts (span : Nat) : Nat → List Nat → Prop
  | _, [] => True
  | T0, T :: rest => T0 ≤ T ∧ T < T0 + span ∧ TrueCounts span T rest

/-- The last of the sampled true counts. -/
def lastCount : Nat → List Nat → Nat
  | T0, [] => T0
  | _, T :: rest => lastCount T rest

/-! ## Whole operations -/

/-- A command issued by its agent, and then `m` further steps of that agent. -/
def opInputs (c : Call) (m : Nat) : List Input := .issue c :: List.replicate m (.run c.agent)

/-- UPDATE_HW issued and completed once for each sample (R123, R124). -/
def updateInputs (d : DirId) (n : Nat) : List Input :=
  (List.replicate n [Input.issue ⟨.interrupt, encode (.updateHw d.ch d.dir), OperandRecord.zero⟩,
    Input.run .interrupt]).flatten

/-- How many of the snapshots `A, A - 1, ..., A - (q - 1)` exceed `bound` (R154). -/
def overflowCount (bound : Nat) : Nat → Nat → Nat
  | _, 0 => 0
  | A, q + 1 => (if bound < A then 1 else 0) + overflowCount bound (A - 1) q

/-- The bits that a bottom half consumes: those of the snapshot that a direction is assigned to (R171, R173). -/
def assignedBits (g : Cfg) (snap : U32) : U32 :=
  ((allDirs g).filter (maskHas snap g)).foldl (fun m d => m ||| dirMask g d) 0#32

end Sys2Proof.Machine
end

