-- ==== Sys2Proof/Certificates/Slice0/Obligations.lean ====
section
/-! DEFINITION. The statements for the provers: what the spec's numbered rules say of the block, over every configuration
and every state that the hypotheses admit. -/

open Sys2Proof Sys2Proof.Machine

/-! ## Encoding -/

/-- 95_test_vectors.md Part 6: the words V-D1 to V-D12 decode as the spec says, the words V-D14 to V-D20 do not. -/
def Obligations.DecodeReadsTheSpecsWords : Prop :=
  decode 0x01008000#32 = .ok (.start 0 .wr) ∧ decode 0x01000000#32 = .ok (.start 0 .rd) ∧
  decode 0x02008000#32 = .ok (.stop 0 .wr) ∧ decode 0x03000000#32 = .ok .merge ∧
  decode 0x04008000#32 = .ok (.updateHw 0 .wr) ∧ decode 0x05008000#32 = .ok (.available 0 .wr) ∧
  decode 0x06008000#32 = .ok (.service 0 .wr) ∧ decode 0x06000000#32 = .ok (.service 0 .rd) ∧
  decode 0x07000000#32 = .ok .topHalf ∧ decode 0x08000000#32 = .ok .bottomHalf ∧
  decode 0x09000001#32 = .ok (.irqEnable 1) ∧ decode 0x0A00001F#32 = .ok (.irqDisable 31) ∧
  decode 0x06018000#32 = .ok (.service 1 .wr) ∧
  decode 0x00000000#32 = .error .opcode ∧ decode 0x0B000000#32 = .error .opcode ∧
  decode 0x01004000#32 = .error .reserved ∧ decode 0x01008001#32 = .error .unusedField ∧
  decode 0x03008000#32 = .error .unusedField ∧ decode 0x09010001#32 = .error .unusedField ∧
  decode 0x09000020#32 = .error .reserved

/-- R82, R83: no bit of an encoding is dropped, for every instruction the command word can carry. -/
def Obligations.DecodeOfEncodeIsTheInstruction : Prop :=
  ∀ i : Instr, i.wf = true → decode (encode i) = .ok i

/-- R83, R91: each legal word has one meaning and is the one encoding of it. -/
def Obligations.EncodeOfDecodeIsTheWord : Prop :=
  ∀ (w : U32) (i : Instr), decode w = .ok i → i.wf = true ∧ encode i = w

/-- R91: the decoder is total; a word decodes to exactly one row of R83, with the fields of R82, or to a verdict that it is
illegal. -/
def Obligations.EveryWordDecodesToOneRowOrIsIllegal : Prop :=
  ∀ w : U32,
    (∃ r ∈ opRows, r.selects w = true ∧ decode w = .ok (r.op.instr w) ∧
      ∀ r' ∈ opRows, r'.selects w = true → r' = r) ∨
    ((∀ r ∈ opRows, r.selects w = false) ∧ ∃ e, decode w = .error e)

/-- R86: which words are illegal, field by field, and that issuing one raises `IllegalCommand` with the word, whoever issues
it, its operation the word's bits 31:24 and no direction (R201).  The inputs, and the vacant port that the issuing step leaves, are
the model's own (log entries 5 and 16). -/
def Obligations.IllegalWordsRaiseIllegalCommand : Prop :=
  (∀ w : U32, (∃ e, decode w = .error e) ↔
    ((wordOp w).toNat = 0 ∨ 0x0B ≤ (wordOp w).toNat) ∨ wordRsv w ≠ 0#10 ∨
    ((wordOp w).toNat ∈ [1, 2, 4, 5, 6] ∧ wordIrq w ≠ 0) ∨
    ((wordOp w).toNat ∈ [3, 7, 8] ∧ (wordCh w ≠ 0 ∨ wordDir w ≠ .rd ∨ wordIrq w ≠ 0)) ∨
    ((wordOp w).toNat ∈ [9, 10] ∧ (wordCh w ≠ 0 ∨ wordDir w ≠ .rd))) ∧
  (∀ (s : State) (c : Call) (rest : List Input) (e : Illegal), s.live → s.inputs = .issue c :: rest →
    decode c.word = .error e →
    step s = .next { s with inputs := rest, port := Call.vacant,
                            fault := some ⟨.illegalCommand, c.agent, wordOp c.word, none, c.word.zeroExtend 64⟩ })

/-! ## The issue of a command -/

/-- R81, R88: a command that the environment issues is decoded, and the step is the meaning of the instruction it decodes
to, with the input consumed and the command at the port, which is vacant again after it (R37).  The inputs and the port are the model's own (log entries 5 and 16). -/
def Obligations.StepRunsTheDecodedInstruction : Prop :=
  ∀ (s : State) (c : Call) (rest : List Input) (i : Instr), s.inputs = .issue c :: rest → decode c.word = .ok i →
    step s = released (exec i { s with inputs := rest, port := c })

/-- R212, R220: an agent that the environment chooses takes its next step; with no input left, a step is that of some agent
that is not Idle, and the run ends exactly when there is none, whether or not a bottom half is scheduled.  How the scheduler's
choices are held is the model's choice (log entry 5). -/
def Obligations.StepIsTheChosenAgentsStep : Prop :=
  (∀ (s : State) (a : AgentId) (rest : List Input), s.inputs = .run a :: rest →
    step s = agentStep a { s with inputs := rest }) ∧
  (∀ s : State, s.live → s.inputs = [] →
    (step s = .fault .endOfRun ↔ s.intPhase = .idle ∧ s.lifePhase = .idle ∧ s.clients = [])) ∧
  (∀ s : State, s.live → s.inputs = [] → step s ≠ .fault .endOfRun →
    ∃ a : AgentId, s.stepper = some a ∧ s.agentIdle a = false ∧
      step s = agentStep a { s with freeCount := s.freeCount + 1 })

/-- R211: the permission table.  A command raises `WrongAgent` with the agent's class exactly when its operation is not the
agent's to issue.  That the record names the direction of an out-of-range channel too is the model's reading (log entry
23). -/
def Obligations.WrongAgentExactlyOutsideThePermissionTable : Prop :=
  ∀ (i : Instr) (s : State), s.live →
    (((i.op ∈ [Op.start, Op.stop, Op.irqEnable, Op.irqDisable] ∧ s.port.agent ≠ .lifecycle) ∨
      (i.op ∈ [Op.updateHw, Op.topHalf, Op.bottomHalf] ∧ s.port.agent ≠ .interrupt) ∨
      (i.op = .service ∧ ∀ n, s.port.agent ≠ .client n)) ↔
     ∃ cls : Nat, exec i s = .next (s.faulted .wrongAgent i.op i.dirId? (BitVec.ofNat 64 cls)) ∧
      s.port.agent.cls = cls)

/-- R88: the checks at issue in their order.  Decoding comes first (an illegal word is `IllegalCommand` whoever issues it),
then the agent's class, then the channel's range, then that the agent is Idle.  That the model refuses a command of an
agent that is not Idle is its own choice (log entry 8).  So is that a WrongAgent record names the direction of an
out-of-range channel too (log entry 23). -/
def Obligations.IssueChecksComeInOrder : Prop :=
  ∀ s : State, s.live →
    (∀ e, decode s.port.word = .error e → issueWord s =
      .next (s.raise s.port.agent (wordOp s.port.word) none ⟨.illegalCommand, s.port.word.zeroExtend 64⟩)) ∧
    (∀ i, decode s.port.word = .ok i →
      (mayIssue i.op s.port.agent = false →
        issueWord s = .next (s.faulted .wrongAgent i.op i.dirId? (BitVec.ofNat 64 s.port.agent.cls))) ∧
      (∀ d, mayIssue i.op s.port.agent = true → i.dirId? = some d → s.cfg.nCh ≤ d.ch →
        issueWord s = .next (s.faulted .invalidChannel i.op none (BitVec.ofNat 64 d.ch))) ∧
      (mayIssue i.op s.port.agent = true → (∀ d, i.dirId? = some d → d.ch < s.cfg.nCh) →
        s.agentIdle s.port.agent = false → issueWord s = .refused .agentNotIdle) ∧
      (mayIssue i.op s.port.agent = true → (∀ d, i.dirId? = some d → d.ch < s.cfg.nCh) →
        s.agentIdle s.port.agent = true → ∃ t, issueWord s = .next t))

/-- R201: a fault is the whole effect of the step that raises it (no state write, no event, no result), it names the agent
that stepped, and from then on no step answers a next state.  That the model's step then stops under the name `halted` is its
own choice (log entry 8). -/
def Obligations.FaultIsTheStepsOnlyEffectAndEndsTheRun : Prop :=
  (∀ (s t : State) (r : FaultRecord), s.fault = none → step s = .next t → t.fault = some r →
    t = { s with inputs := t.inputs, port := t.port, freeCount := t.freeCount, fault := some r } ∧
    s.stepper = some r.agent ∧
    (r.code = .illegalCommand ∨ r.code = .invalidChannel → r.d = none)) ∧
  (∀ (s : State) (r : FaultRecord), s.fault = some r →
    (∀ t, step s ≠ .next t) ∧ (∀ i t, exec i s ≠ .next t) ∧ (∀ a t, agentStep a s ≠ .next t) ∧
    (s.cfg.wf = true → step s = .fault (.halted r)))

/-- R9, R7, R51, R76: a configuration is well formed exactly when every parameter is in its legal range, and no step runs
under an ill-formed one.  That a ring's list has `CAP` slots is the model's reading of R60 (log entry 12). -/
def Obligations.NoStepRunsUnderAnIllFormedConfiguration : Prop :=
  (∀ s : State, s.cfg.wf = false →
    step s = .refused .illFormedConfig ∧ (∀ i, exec i s = .refused .illFormedConfig) ∧
    (∀ a, agentStep a s = .refused .illFormedConfig)) ∧
  ∀ g : Cfg, g.wf = true ↔
    (1 ≤ g.nCh ∧ g.nCh ≤ 256) ∧
    (g.descSizeBits ≤ g.descNoirqBit ∧ g.descSizeBits ≤ g.descNotlastBit ∧ g.descNoirqBit ≠ g.descNotlastBit ∧
      g.descNoirqBit ≤ 31 ∧ g.descNotlastBit ≤ 31) ∧
    (∀ off ∈ [g.offIntVector, g.offIntClear, g.offIntEnable], 4 ∣ off.toNat) ∧
    (∀ o ∈ [g.offRd, g.offWr], ∀ off ∈ [o.loopStatus, o.dirEnable, o.tableFlush, o.loopMode, o.descCtrl, o.descAddrLo,
      o.descAddrHi], 4 ∣ off.toNat) ∧
    (∀ c < g.nCh,
      (∃ k ≤ 16, g.cap c = 2 ^ k ∧ g.k c = k) ∧
      (1 ≤ g.blockSize c ∧ g.blockSize c ≤ 2 ^ 32 - 1 ∧ g.blockSize c < 2 ^ g.descSizeBits) ∧
      (1 ≤ g.perIrq c ∧ g.perIrq c ≤ g.cap c) ∧ (g.chan c).irqPhase ≤ g.perIrq c - 1 ∧ 4 ∣ (g.chan c).base.toNat ∧
      (∀ dir, g.irq ⟨c, dir⟩ ≤ 31 ∧ (g.ring ⟨c, dir⟩).length = g.cap c))

/-! ## START and STOP -/

/-- R102: START_BEGIN.  A direction that is not Stopped is `StartWhileActive` with its state's code (Stopped 0, Starting 1,
Running 2, Stopping 3); a busy one is `LifecycleRace`; else the direction is Starting and nothing else is written but the
lifecycle agent's phase.  Under the invariant a Stopped direction is not busy. -/
def Obligations.StartBeginFollowsItsRule : Prop :=
  ∀ (s : State) (d : DirId), s.ready → s.shaped → s.port.agent = .lifecycle → d.ch < s.cfg.nCh →
    ((s.dir d).st = .starting → exec (.start d.ch d.dir) s = .next (s.faulted .startWhileActive .start (some d) 1#64)) ∧
    ((s.dir d).st = .running → exec (.start d.ch d.dir) s = .next (s.faulted .startWhileActive .start (some d) 2#64)) ∧
    ((s.dir d).st = .stopping → exec (.start d.ch d.dir) s = .next (s.faulted .startWhileActive .start (some d) 3#64)) ∧
    ((s.dir d).st = .stopped → s.busy d = true →
      exec (.start d.ch d.dir) s = .next (s.faulted .lifecycleRace .start (some d) 0#64)) ∧
    ((s.dir d).st = .stopped → s.busy d = false →
      ∃ t, exec (.start d.ch d.dir) s = .next t ∧ t.dir d = { s.dir d with st := .starting } ∧
        (∀ q, q ≠ d → t.dir q = s.dir q) ∧ t = { s with chans := t.chans, lifePhase := .startEnd d }) ∧
    (BlockInv s → (s.dir d).st = .stopped → s.busy d = false)

/-- R103: START_END's register writes in their order, the three counters zeroed, the direction Running; `deferred`,
`overflow`, `claim`, the masks and every other direction are not touched, and no fault is raised.  The result record `done`
is the model's own (log entry 7). -/
def Obligations.StartEndWritesTheRingAndZeroesTheCounters : Prop :=
  ∀ (s : State) (d : DirId), s.live → s.shaped → d.ch < s.cfg.nCh → s.lifePhase = .startEnd d →
    ∃ t ws, agentStep .lifecycle s = .next t ∧
      t.history = s.history ++ ws ∧ ws.length = 3 + 3 * s.cfg.cap d.ch + 2 ∧
      ws = [.regWrite (s.cfg.offDirEnable d) s.cfg.valDisable, .regWrite (s.cfg.offTableFlush d) s.cfg.valFlush,
            .regWrite (s.cfg.offLoopMode d) s.cfg.valLoopOff] ++
        (List.range (s.cfg.cap d.ch)).flatMap (fun i =>
          [.regWrite (s.cfg.offDescCtrl d) (descCtrl s.cfg d.ch i),
           .regWrite (s.cfg.offDescAddrLo d) ((s.cfg.slotBus d i).extractLsb' 0 32),
           .regWrite (s.cfg.offDescAddrHi d) ((s.cfg.slotBus d i).extractLsb' 32 32)]) ++
        [.regWrite (s.cfg.offLoopMode d) s.cfg.valLoopOn, .regWrite (s.cfg.offDirEnable d) s.cfg.valEnable] ∧
      t.dir d = { s.dir d with st := .running, hwCount := 0#64, hwCountLast := 0#64, swCount := 0#64 } ∧
      (∀ q, q ≠ d → t.dir q = s.dir q) ∧
      t = { s with chans := t.chans, lifePhase := .idle, history := t.history,
                   results := s.results ++ [(.lifecycle, .done)] }

/-- R104: in what START_END appends, the entry of slot `i` stands at writes `3 + 3 i` to `3 + 3 i + 2`, and its address words
carry slot `i`'s own bus address, low half then high half. -/
def Obligations.DescriptorEntriesCarryTheirOwnSlot : Prop :=
  ∀ (s t : State) (d : DirId) (i : Nat), s.live → s.lifePhase = .startEnd d → i < s.cfg.cap d.ch →
    agentStep .lifecycle s = .next t →
    (t.history.drop s.history.length)[3 + 3 * i]? = some (.regWrite (s.cfg.offDescCtrl d) (descCtrl s.cfg d.ch i)) ∧
    (∃ lo hi : U32,
      (t.history.drop s.history.length)[3 + 3 * i + 1]? = some (.regWrite (s.cfg.offDescAddrLo d) lo) ∧
      (t.history.drop s.history.length)[3 + 3 * i + 2]? = some (.regWrite (s.cfg.offDescAddrHi d) hi) ∧
      hi.toNat * 2 ^ 32 + lo.toNat = (s.cfg.slotBus d i).toNat)

/-- R77, R78, R79: the fields of a descriptor's control word under a well-formed configuration: the size field holds the
block size, "generate no interrupt" is 0 exactly when `i mod K = IRQ_PHASE`, "not-last" is 0 exactly when the buffers are
contiguous; and the flags' bits are the word's only others. -/
def Obligations.DescriptorControlWordHoldsSizeAndFlags : Prop :=
  ∀ (g : Cfg) (c i : Nat), g.wf = true → c < g.nCh →
    (descCtrl g c i).toNat % 2 ^ g.descSizeBits = g.blockSize c ∧
    ((descCtrl g c i).getLsbD g.descNoirqBit = false ↔ i % g.perIrq c = (g.chan c).irqPhase) ∧
    ((descCtrl g c i).getLsbD g.descNotlastBit = false ↔ (g.chan c).contiguous = true) ∧
    (∀ j, g.descSizeBits ≤ j → j ≠ g.descNoirqBit → j ≠ g.descNotlastBit → (descCtrl g c i).getLsbD j = false)

/-- R107: STOP_BEGIN.  A busy direction is `LifecycleRace`; else, whatever its state, the direction is Stopping and its
deferred request, if any, completes as `Cancelled` and leaves the slot. -/
def Obligations.StopBeginCancelsTheDeferredRequest : Prop :=
  ∀ (s : State) (d : DirId), s.ready → s.shaped → s.port.agent = .lifecycle → d.ch < s.cfg.nCh →
    (s.busy d = true → exec (.stop d.ch d.dir) s = .next (s.faulted .lifecycleRace .stop (some d) 0#64)) ∧
    (s.busy d = false → ∃ t, exec (.stop d.ch d.dir) s = .next t ∧
      t.dir d = { s.dir d with st := .stopping, deferred := none } ∧ (∀ q, q ≠ d → t.dir q = s.dir q) ∧
      ((s.dir d).deferred = none → t.history = s.history) ∧
      (∀ r, (s.dir d).deferred = some r → t.history = s.history ++ [.complete r.req 0#64 .cancelled]) ∧
      t = { s with chans := t.chans, lifePhase := .stopEnd d, history := t.history })

/-- R108: STOP_END's four register writes with the settling wait between the second and the third, the three counters
zeroed, the direction Stopped; nothing else of the block is written, and no fault is raised.  The result record `done` is
the model's own (log entry 7). -/
def Obligations.StopEndDisablesAndZeroesTheCounters : Prop :=
  ∀ (s : State) (d : DirId), s.live → s.shaped → d.ch < s.cfg.nCh → s.lifePhase = .stopEnd d →
    ∃ t, agentStep .lifecycle s = .next t ∧
      t.dir d = { s.dir d with st := .stopped, hwCount := 0#64, hwCountLast := 0#64, swCount := 0#64 } ∧
      (∀ q, q ≠ d → t.dir q = s.dir q) ∧
      t = { s with chans := t.chans, lifePhase := .idle, results := s.results ++ [(.lifecycle, .done)],
                   history := s.history ++ [
                      .regWrite (s.cfg.offLoopMode d) s.cfg.valLoopOff, .regWrite (s.cfg.offTableFlush d) s.cfg.valFlush,
                      .settle d.ch d.dir,
                      .regWrite (s.cfg.offDirEnable d) s.cfg.valDisable,
                      .regWrite (s.cfg.offTableFlush d) s.cfg.valFlush] }

/-- R110: issued and run to its end, START leaves a Stopped direction Running and STOP leaves a direction that is not busy
Stopped, with every counter zero and no deferred request. -/
def Obligations.StartAndStopLeaveInertCounters : Prop :=
  ∀ (s : State) (c : Call) (rest : List Input) (d : DirId), BlockInv s → s.fault = none → d.ch < s.cfg.nCh →
    s.lifePhase = .idle → c.agent = .lifecycle → s.inputs = opInputs c 1 ++ rest →
    (c.word = encode (.start d.ch d.dir) → (s.dir d).st = .stopped →
      ∃ t, core.run 2 s = .next t ∧ t.inputs = rest ∧ t.fault = none ∧ t.lifePhase = .idle ∧ (t.dir d).st = .running ∧
        (t.dir d).hwCount = 0#64 ∧ (t.dir d).hwCountLast = 0#64 ∧ (t.dir d).swCount = 0#64 ∧
        (t.dir d).deferred = none ∧ (∀ q, q ≠ d → t.dir q = s.dir q)) ∧
    (c.word = encode (.stop d.ch d.dir) → s.busy d = false →
      ∃ t, core.run 2 s = .next t ∧ t.inputs = rest ∧ t.fault = none ∧ t.lifePhase = .idle ∧ (t.dir d).st = .stopped ∧
        (t.dir d).hwCount = 0#64 ∧ (t.dir d).hwCountLast = 0#64 ∧ (t.dir d).swCount = 0#64 ∧
        (t.dir d).deferred = none ∧ (t.dir d).overflow = (s.dir d).overflow ∧ (∀ q, q ≠ d → t.dir q = s.dir q))

/-! ## The counter tracker -/

/-- R127: a merge never lowers the count, and keeps it exactly when the sample is the count modulo the span. -/
def Obligations.MergeNeverLowersTheCount : Prop :=
  ∀ (last m : U64) (raw k : Nat), k ≤ 16 → raw < 2 ^ (k + 16) → merge last raw k = .ok m →
    last.toNat ≤ m.toNat ∧ (m = last ↔ raw = last.toNat % 2 ^ (k + 16))

/-- R128: a merge is exact when the true count advanced by less than one span. -/
def Obligations.MergeIsExactBelowOneSpan : Prop :=
  ∀ T0 T1 k : Nat, k ≤ 16 → T0 ≤ T1 → T1 < T0 + 2 ^ (k + 16) → T1 < 2 ^ 64 →
    merge (BitVec.ofNat 64 T0) (T1 % 2 ^ (k + 16)) k = .ok (BitVec.ofNat 64 T1)

/-- R129: a merge sees the new sample only modulo the span: of a true advance it loses a multiple of the span, with no
fault unless the result leaves 64 bits, and an advance of 0 leaves the count unchanged. -/
def Obligations.MergeLosesWholeSpansOnly : Prop :=
  ∀ T0 T1 k : Nat, k ≤ 16 → T0 ≤ T1 → T0 < 2 ^ 64 →
    (∀ m, merge (BitVec.ofNat 64 T0) (T1 % 2 ^ (k + 16)) k = .ok m →
      m.toNat ≤ T1 ∧ 2 ^ (k + 16) ∣ T1 - m.toNat ∧ (T0 + 2 ^ (k + 16) ≤ T1 → m.toNat < T1)) ∧
    (T1 < 2 ^ 64 → ∃ m, merge (BitVec.ofNat 64 T0) (T1 % 2 ^ (k + 16)) k = .ok m) ∧
    (T1 = T0 → merge (BitVec.ofNat 64 T0) (T1 % 2 ^ (k + 16)) k = .ok (BitVec.ofNat 64 T0))

/-- R130: merging the same sample twice in a row changes nothing the second time. -/
def Obligations.MergeIsIdempotent : Prop :=
  ∀ (l m : U64) (r k : Nat), k ≤ 16 → r < 2 ^ (k + 16) → merge l r k = .ok m → merge m r k = .ok m

/-- R122: MERGE by any agent.  A capacity that is not a power of two from 1 to 65536 is `MergeArgument` with it, then a raw
of 2^(k+16) or more is `MergeArgument` with it, then a result of 2^64 or more is `HwCountOverflow` with `last`; else the
result is delivered and nothing else is written. -/
def Obligations.MergeCommandDeliversTheMerge : Prop :=
  ∀ s : State, s.ready →
    ((∀ k ≤ 16, s.port.operands.capacity.toNat ≠ 2 ^ k) →
      exec .merge s = .next (s.faulted .mergeArgument .merge none (s.port.operands.capacity.zeroExtend 64))) ∧
    (∀ k ≤ 16, s.port.operands.capacity.toNat = 2 ^ k →
      (2 ^ (k + 16) ≤ s.port.operands.raw.toNat →
        exec .merge s = .next (s.faulted .mergeArgument .merge none (s.port.operands.raw.zeroExtend 64))) ∧
      (s.port.operands.raw.toNat < 2 ^ (k + 16) →
        ∃ m : Nat,
          m = s.port.operands.last.toNat / 2 ^ (k + 16) * 2 ^ (k + 16) + s.port.operands.raw.toNat +
            (if s.port.operands.raw.toNat < s.port.operands.last.toNat % 2 ^ (k + 16) then 2 ^ (k + 16) else 0) ∧
          (2 ^ 64 ≤ m →
            exec .merge s = .next (s.faulted .hwCountOverflow .merge none s.port.operands.last)) ∧
          (m < 2 ^ 64 →
            exec .merge s = .next { s with results := s.results ++ [(s.port.agent, .merged (BitVec.ofNat 64 m))] })))

/-- R72: a loop-status word whose slot is below `CAP` decodes to `epoch * CAP + slot`, which is below the epoch span `2^W` and
holds the slot in its low `k` bits and the epoch above them; a slot of `CAP` or more decodes to nothing. -/
def Obligations.LoopStatusDecodesBelowTheSpan : Prop :=
  ∀ (g : Cfg) (c : Nat) (status : U32), g.wf = true → c < g.nCh →
    (g.cap c ≤ status.toNat % 2 ^ 16 → statusRaw (g.cap c) status = none) ∧
    (status.toNat % 2 ^ 16 < g.cap c → ∃ raw, statusRaw (g.cap c) status = some raw ∧
      raw = status.toNat / 2 ^ 16 * g.cap c + status.toNat % 2 ^ 16 ∧ raw < 2 ^ (g.k c + 16) ∧
      raw % 2 ^ g.k c = status.toNat % 2 ^ 16 ∧ raw / 2 ^ g.k c = status.toNat / 2 ^ 16)

/-- R123: UPDATE_HW's read step, by the interrupt agent.  A Running direction's loop status is read (an oracle draw) and
held for the merge; a direction that is not Running is not read and the operation is over.  No direction's record changes.
The result record `done` is the model's own (log entry 7). -/
def Obligations.UpdateHwReadsTheLoopStatus : Prop :=
  ∀ (s : State) (d : DirId), s.ready → s.port.agent = .interrupt → d.ch < s.cfg.nCh →
    ((s.dir d).st = .running → ∃ t, exec (.updateHw d.ch d.dir) s = .next t ∧
      t = { s with intPhase := .upd d (.merge s.nextDraw), history := s.history ++
                     [.regRead (s.cfg.offLoopStatus d) s.nextDraw],
                   oracle := t.oracle, freeCount := t.freeCount } ∧
      t.oracle = s.oracle.tail ∧ (s.oracle ≠ [] → t.freeCount = s.freeCount ∧ s.oracle.head? = some s.nextDraw)) ∧
    ((s.dir d).st ≠ .running →
      exec (.updateHw d.ch d.dir) s = .next { s with results := s.results ++ [(.interrupt, .done)] })

/-- R124: UPDATE_HW's merge step.  With epoch and slot the status word's halves: a slot of `CAP` or more is
`LoopStatusSlotRange` with the word; else `epoch * CAP + slot` is merged, an overflow of 64 bits is `HwCountOverflow`, and
the merged value is stored in both counters of the direction, nothing else of it changing.  The result record `done` is the
model's own (log entry 7). -/
def Obligations.UpdateHwMergesTheLoopStatus : Prop :=
  ∀ (s : State) (d : DirId) (status : U32), s.live → s.shaped → d.ch < s.cfg.nCh → s.intPhase = .upd d (.merge status) →
    (s.cfg.cap d.ch ≤ status.toNat % 2 ^ 16 →
      agentStep .interrupt s =
        .next { s with fault := some ⟨.loopStatusSlotRange, .interrupt, 0x04#8, some d, status.zeroExtend 64⟩ }) ∧
    (status.toNat % 2 ^ 16 < s.cfg.cap d.ch →
      (∀ e, merge2 (s.dir d).hwCount (s.dir d).hwCountLast
          (status.toNat / 2 ^ 16 * s.cfg.cap d.ch + status.toNat % 2 ^ 16) (s.cfg.k d.ch) = .error e →
        e = ⟨.hwCountOverflow, (s.dir d).hwCountLast⟩ ∧
        agentStep .interrupt s =
          .next { s with fault := some ⟨.hwCountOverflow, .interrupt, 0x04#8, some d, (s.dir d).hwCountLast⟩ }) ∧
      (∀ m, merge2 (s.dir d).hwCount (s.dir d).hwCountLast
          (status.toNat / 2 ^ 16 * s.cfg.cap d.ch + status.toNat % 2 ^ 16) (s.cfg.k d.ch) = .ok m →
        ∃ t, agentStep .interrupt s = .next t ∧ t.dir d = { s.dir d with hwCount := m, hwCountLast := m } ∧
          (∀ q, q ≠ d → t.dir q = s.dir q) ∧
          t = { s with chans := t.chans, intPhase := .idle, results := s.results ++ [(.interrupt, .done)] }))

/-- R125: on a direction that is not Running, neither UPDATE_HW nor the bottom half's update reads a register or changes a
direction; and under the invariant no merge step meets a direction that is not Running.  The result record `done` is the
model's own (log entry 7). -/
def Obligations.NoUpdateOutsideRunning : Prop :=
  (∀ (s : State) (d : DirId), s.live → (s.dir d).st ≠ .running →
    (s.intPhase = .upd d .read →
      agentStep .interrupt s = .next { s with intPhase := .idle, results := s.results ++ [(.interrupt, .done)] }) ∧
    (∀ f : BhFrame, f.cur = d → s.intPhase = .bh f .updRead →
      agentStep .interrupt s = .next { s with intPhase := .bh f .accum })) ∧
  (∀ (s : State) (d : DirId), BlockInv s → s.intPhase.merging d = true → (s.dir d).st = .running)

/-- R126: AVAILABLE, by any agent.  The difference of the two counters as integers is delivered, unchanged however large, and
nothing else is written; a negative one is `AvailableNegative` with the shortfall, and is never wrapped or clamped. -/
def Obligations.AvailableReturnsTheDifference : Prop :=
  ∀ (s : State) (d : DirId), s.ready → d.ch < s.cfg.nCh →
    ((s.dir d).swCount.toNat ≤ (s.dir d).hwCount.toNat →
      exec (.available d.ch d.dir) s = .next { s with results := s.results ++
        [(s.port.agent, .available (BitVec.ofNat 64 ((s.dir d).hwCount.toNat - (s.dir d).swCount.toNat)))] }) ∧
    ((s.dir d).hwCount.toNat < (s.dir d).swCount.toNat →
      exec (.available d.ch d.dir) s = .next (s.faulted .availableNegative .available (some d)
        (BitVec.ofNat 64 ((s.dir d).swCount.toNat - (s.dir d).hwCount.toNat)))) ∧
    (BlockInv s → (s.dir d).st = .stopped →
      exec (.available d.ch d.dir) s = .next { s with results := s.results ++ [(s.port.agent, .available 0#64)] })

/-- R132, under the premise of R131: for every sequence of true counts, each less than one span past the one before, whose
loop-status words the oracle answers in turn, UPDATE_HW issued and completed once a sample leaves `hw_count` equal to the
last true count; no fault is raised. -/
def Obligations.UpdatesReconstructTheTrueCount : Prop :=
  ∀ (s : State) (d : DirId) (Ts : List Nat) (rest : List Input) (more : List U32), BlockInv s → s.fault = none →
    d.ch < s.cfg.nCh → (s.dir d).st = .running → s.intPhase = .idle →
    TrueCounts (2 ^ (s.cfg.k d.ch + 16)) (s.dir d).hwCount.toNat Ts →
    lastCount (s.dir d).hwCount.toNat Ts < 2 ^ 64 →
    s.inputs = updateInputs d Ts.length ++ rest → s.oracle = Ts.map (statusOf (s.cfg.cap d.ch)) ++ more →
    ∃ t, core.run (2 * Ts.length) s = .next t ∧ t.fault = none ∧ t.inputs = rest ∧ t.oracle = more ∧
      t.intPhase = .idle ∧ (t.dir d).hwCount.toNat = lastCount (s.dir d).hwCount.toNat Ts ∧
      (t.dir d).hwCountLast = (t.dir d).hwCount ∧ (t.dir d).swCount = (s.dir d).swCount ∧
      (∀ q, q ≠ d → t.dir q = s.dir q)

/-! ## The request servicer -/

/-- R141: SERVICE's `Enter`.  A direction that is not Running completes the call with zero bytes and `ChannelNotActive`,
changing no direction; a held claim is `ConcurrentServicer` with its holder's id; else the client takes the claim and goes on
to `Snapshot` if the length is a block or more, to `Outcome` if it is less. -/
def Obligations.ServiceEntersOnlyARunningUnclaimedDirection : Prop :=
  ∀ (s : State) (d : DirId) (n : Nat), s.ready → s.shaped → s.port.agent = .client n → d.ch < s.cfg.nCh →
    ((s.dir d).st ≠ .running → exec (.service d.ch d.dir) s = .next { s with
      history := s.history ++ [.complete s.port.operands.req 0#64 .channelNotActive],
      results := s.results ++ [(.client n, .completed 0#64 .channelNotActive)],
      clients := clientDel s.clients n }) ∧
    (∀ a, (s.dir d).st = .running → (s.dir d).claim = some a → ∃ info : U64, (a.id < 2 ^ 64 → info.toNat = a.id) ∧
      exec (.service d.ch d.dir) s = .next (s.faulted .concurrentServicer .service (some d) info)) ∧
    ((s.dir d).st = .running → (s.dir d).claim = none →
      ∃ t, exec (.service d.ch d.dir) s = .next t ∧ t.dir d = { s.dir d with claim := some (.client n) } ∧
        (∀ q, q ≠ d → t.dir q = s.dir q) ∧
        t.client n = some ⟨d, s.port.operands.req, s.port.operands.buf, s.port.operands.len, 0#64,
          if s.cfg.blockSize d.ch ≤ s.port.operands.len.toNat then .snapshot else .outcome⟩ ∧
        (∀ m, m ≠ n → t.client m = s.client m) ∧ t = { s with chans := t.chans, clients := t.clients })

/-- R142, R143, R144: the `Snapshot` step of a client's call.  A negative availability is `AvailableNegative`; zero goes to
`Outcome` with no effect; else overflow is counted exactly when the snapshot exceeds `CAP - K`, modulo 2^64, and the next
step copies slot `sw_count mod CAP`. -/
def Obligations.SnapshotCountsOverflowAndChoosesTheSlot : Prop :=
  ∀ (s : State) (n : Nat) (f : SvcFrame), s.live → s.shaped → f.d.ch < s.cfg.nCh → s.client n = some f →
    f.ph = .snapshot →
    ((s.dir f.d).hwCount.toNat < (s.dir f.d).swCount.toNat → ∃ info : U64,
      info.toNat = (s.dir f.d).swCount.toNat - (s.dir f.d).hwCount.toNat ∧
      agentStep (.client n) s =
        .next { s with fault := some ⟨.availableNegative, .client n, 0x06#8, some f.d, info⟩ }) ∧
    ((s.dir f.d).hwCount = (s.dir f.d).swCount → agentStep (.client n) s =
      .next { s with clients := clientPut s.clients n { f with ph := .outcome } }) ∧
    ((s.dir f.d).swCount.toNat < (s.dir f.d).hwCount.toNat →
      ∃ t, agentStep (.client n) s = .next t ∧
        t.dir f.d = { s.dir f.d with overflow := (s.dir f.d).overflow +
          (if s.cfg.cap f.d.ch - s.cfg.perIrq f.d.ch < (s.dir f.d).hwCount.toNat - (s.dir f.d).swCount.toNat
            then 1#64 else 0#64) } ∧
        (∀ q, q ≠ f.d → t.dir q = s.dir q) ∧
        (∃ slot : U16, slot.toNat = (s.dir f.d).swCount.toNat % s.cfg.cap f.d.ch ∧
          t.client n = some { f with ph := .copy slot }) ∧
        (∀ m, m ≠ n → t.client m = s.client m) ∧ t = { s with chans := t.chans, clients := t.clients })

/-- R145: the `Copy` step of a client's call: one block of `B` bytes, at the buffer offset of the bytes transferred so far,
recorded as one event; no direction changes. -/
def Obligations.CopyMovesOneBlock : Prop :=
  ∀ (s : State) (n : Nat) (f : SvcFrame) (slot : U16), s.live → s.client n = some f → f.ph = .copy slot →
    agentStep (.client n) s = .next { s with
      history := s.history ++ [.copy f.d.dir f.d.ch slot f.req f.buf f.bytes (BitVec.ofNat 64 (s.cfg.blockSize f.d.ch))],
      clients := clientPut s.clients n { f with ph := .commit } }

/-- R146: the `Commit` step of a client's call: `sw_count` rises by one, the remaining length falls and the bytes rise by the
block size, and the loop goes on exactly while a block remains.  Under the invariant the increment cannot overflow. -/
def Obligations.CommitAdvancesTheSoftwareCount : Prop :=
  ∀ (s : State) (n : Nat) (f : SvcFrame), s.live → s.shaped → f.d.ch < s.cfg.nCh → s.client n = some f → f.ph = .commit →
    (∃ t, agentStep (.client n) s = .next t ∧
      t.dir f.d = { s.dir f.d with swCount := (s.dir f.d).swCount + 1#64 } ∧ (∀ q, q ≠ f.d → t.dir q = s.dir q) ∧
      t.client n = some { f with
        left := f.left - BitVec.ofNat 64 (s.cfg.blockSize f.d.ch),
        bytes := f.bytes + BitVec.ofNat 64 (s.cfg.blockSize f.d.ch),
        ph := if s.cfg.blockSize f.d.ch ≤ (f.left - BitVec.ofNat 64 (s.cfg.blockSize f.d.ch)).toNat then .snapshot
              else .outcome } ∧
      (∀ m, m ≠ n → t.client m = s.client m) ∧ t = { s with chans := t.chans, clients := t.clients }) ∧
    (BlockInv s → ∀ t, agentStep (.client n) s = .next t → (t.dir f.d).swCount.toNat = (s.dir f.d).swCount.toNat + 1 ∧
      (t.dir f.d).swCount.toNat ≤ (t.dir f.d).hwCount.toNat)

/-- R148 and R150: the `Outcome` step of a client's call that transferred bytes completes the request with that byte count,
empties the deferred slot and releases the claim; a different request found in the slot first completes as `Superseded`. -/
def Obligations.OutcomeAfterProgressCompletesTheRequest : Prop :=
  ∀ (s : State) (n : Nat) (f : SvcFrame), s.live → s.shaped → f.d.ch < s.cfg.nCh → s.client n = some f →
    f.ph = .outcome → f.bytes ≠ 0#64 →
    ∃ t, agentStep (.client n) s = .next t ∧ t.dir f.d = { s.dir f.d with deferred := none, claim := none } ∧
      (∀ q, q ≠ f.d → t.dir q = s.dir q) ∧ t.client n = none ∧ (∀ m, m ≠ n → t.client m = s.client m) ∧
      (∀ r, (s.dir f.d).deferred = some r → r.req ≠ f.req → t.history = s.history ++
        [.complete r.req 0#64 .superseded, .complete f.req f.bytes .success]) ∧
      ((∀ r, (s.dir f.d).deferred = some r → r.req = f.req) → t.history = s.history ++
        [.complete f.req f.bytes .success]) ∧
      t = { s with chans := t.chans, clients := t.clients, history := t.history,
                   results := s.results ++ [(.client n, .completed f.bytes .success)] }

/-- R149 and R150: the `Outcome` step of a client's call that transferred nothing stores the request and its remaining length
as the direction's one deferred entry and releases the claim; a different request found in the slot first completes as
`Superseded`. -/
def Obligations.OutcomeWithoutProgressDefersTheRequest : Prop :=
  ∀ (s : State) (n : Nat) (f : SvcFrame), s.live → s.shaped → f.d.ch < s.cfg.nCh → s.client n = some f →
    f.ph = .outcome → f.bytes = 0#64 →
    ∃ t, agentStep (.client n) s = .next t ∧
      t.dir f.d = { s.dir f.d with deferred := some ⟨f.req, f.buf, f.left⟩, claim := none } ∧
      (∀ q, q ≠ f.d → t.dir q = s.dir q) ∧ t.client n = none ∧ (∀ m, m ≠ n → t.client m = s.client m) ∧
      (∀ r, (s.dir f.d).deferred = some r → r.req ≠ f.req → t.history = s.history ++
        [.complete r.req 0#64 .superseded, .deferred f.req f.left]) ∧
      ((∀ r, (s.dir f.d).deferred = some r → r.req = f.req) → t.history = s.history ++ [.deferred f.req f.left]) ∧
      t = { s with chans := t.chans, clients := t.clients, history := t.history,
                   results := s.results ++ [(.client n, .deferred)] }

/-- R152: a re-invocation's steps have the effect on the directions and the history that a client's have; its result goes to
no caller, and after its outcome the bottom half goes on to `Accum`. -/
def Obligations.ReinvocationUsesTheClientsSteps : Prop :=
  ∀ (s : State) (b : BhFrame) (v : SvcFrame) (n : Nat), s.live → s.intPhase = .bh b (.svc v) → v.ph ≠ .enter →
    (∀ t u, agentStep .interrupt s = .next t → agentStep (.client n) { s with clients := [(n, v)] } = .next u →
      t.chans = u.chans ∧ t.history = u.history ∧ (t.fault = none ↔ u.fault = none) ∧
      (t.fault = none → t.results = s.results ∧ t.clients = s.clients ∧
        (∀ v', u.client n = some v' → t.intPhase = .bh b (.svc v')) ∧
        (u.client n = none → t.intPhase = .bh b .accum)))

/-- R153, R154, R147 with R148 and R149: a client's SERVICE with no other agent's step in between, run to its end on a
Running, unclaimed direction with `A` slots available, transfers `B * min(floor(L / B), A)` bytes: `sw_count` rises by that
many blocks, one `Copy` event a block, overflow grows by the number of its snapshots that exceed `CAP - K`, and the call
completes with those bytes, or is deferred when there are none. -/
def Obligations.ServiceTransfersWholeBlocks : Prop :=
  ∀ (s : State) (c : Call) (d : DirId) (n A q m : Nat) (rest : List Input), BlockInv s → s.fault = none →
    d.ch < s.cfg.nCh → (s.dir d).st = .running → (s.dir d).claim = none → s.client n = none →
    c.agent = .client n → c.word = encode (.service d.ch d.dir) →
    A = (s.dir d).hwCount.toNat - (s.dir d).swCount.toNat →
    q = min (c.operands.len.toNat / s.cfg.blockSize d.ch) A →
    m = 3 * q + (if q < c.operands.len.toNat / s.cfg.blockSize d.ch then 1 else 0) + 1 →
    s.inputs = opInputs c m ++ rest →
    ∃ t, core.run (m + 1) s = .next t ∧ t.fault = none ∧ t.inputs = rest ∧ t.clients = s.clients ∧
      (t.dir d).hwCount = (s.dir d).hwCount ∧ (t.dir d).claim = none ∧ (t.dir d).st = .running ∧
      (t.dir d).swCount.toNat = (s.dir d).swCount.toNat + q ∧
      (t.dir d).overflow = (s.dir d).overflow +
        BitVec.ofNat 64 (overflowCount (s.cfg.cap d.ch - s.cfg.perIrq d.ch) A q) ∧
      (t.dir d).deferred = (if q = 0 then some ⟨c.operands.req, c.operands.buf, c.operands.len⟩ else none) ∧
      (∀ e, e ≠ d → t.dir e = s.dir e) ∧
      t.results = s.results ++ [(.client n, if q = 0 then .deferred
        else .completed (BitVec.ofNat 64 (s.cfg.blockSize d.ch * q)) .success)] ∧
      t.history = s.history ++ (List.range q).map (fun j => .copy d.dir d.ch
          (BitVec.ofNat 16 (((s.dir d).swCount.toNat + j) % s.cfg.cap d.ch)) c.operands.req c.operands.buf
          (BitVec.ofNat 64 (s.cfg.blockSize d.ch * j)) (BitVec.ofNat 64 (s.cfg.blockSize d.ch))) ++
        displaceEvents c.operands.req (s.dir d).deferred ++
        [if q = 0 then .deferred c.operands.req c.operands.len
          else .complete c.operands.req (BitVec.ofNat 64 (s.cfg.blockSize d.ch * q)) .success]

/-- R250, R147: a deferred request shorter than one block is re-invoked and re-deferred with no copy: after the deferred check
and the re-invocation's outcome the entry stands as it stood, the claim is released, and `Deferred(req, L)` is emitted. -/
def Obligations.AShortDeferredRequestIsDeferredAgain : Prop :=
  ∀ (s : State) (f : BhFrame) (r : DeferredReq) (rest : List Input), s.live → s.shaped → f.cur.ch < s.cfg.nCh →
    s.intPhase = .bh f .deferCheck → (s.dir f.cur).deferred = some r → (s.dir f.cur).claim = none →
    r.left.toNat < s.cfg.blockSize f.cur.ch → s.inputs = .run .interrupt :: .run .interrupt :: rest →
    ∃ t, core.run 2 s = .next t ∧ (∀ q, t.dir q = s.dir q) ∧
      t = { s with inputs := rest, chans := t.chans, intPhase := .bh f .accum,
                   history := s.history ++ [.deferred r.req r.left] }

/-! ## The interrupt dispatcher -/

/-- R162, R163: TOP_HALF reads INT_VECTOR once.  On a vector that is not zero its bits are ORed into the pending mask, exactly
the value read is written to INT_CLEAR, the bottom half is scheduled and `handled` is true; a zero vector writes no register
and changes no state (a scheduled bottom half stays so) and `handled` is false.  No direction and no other mask changes. -/
def Obligations.TopHalfCapturesAndClearsTheVector : Prop :=
  ∀ s : State, s.ready → s.port.agent = .interrupt →
    ∃ t, exec .topHalf s = .next t ∧ t.oracle = s.oracle.tail ∧
      (s.nextDraw ≠ 0#32 → t =
        { s with pendingMask := s.pendingMask ||| s.nextDraw, bhScheduled := true,
                 history := s.history ++ [.regRead s.cfg.offIntVector s.nextDraw,
                   .regWrite s.cfg.offIntClear s.nextDraw, .handled true],
                 results := s.results ++ [(.interrupt, .handled true)],
                 oracle := t.oracle, freeCount := t.freeCount }) ∧
      (s.nextDraw = 0#32 → t =
        { s with history := s.history ++ [.regRead s.cfg.offIntVector 0#32, .handled false],
                 results := s.results ++ [(.interrupt, .handled false)],
                 oracle := t.oracle, freeCount := t.freeCount })

/-- R166: BH_BEGIN, whether or not a bottom half is scheduled: the flag is cleared, the snapshot is the pending mask AND the
enabled mask, the clear-mask is 0, the cursor is the first direction. -/
def Obligations.BottomHalfBeginsWithTheEnabledPendingBits : Prop :=
  ∀ s : State, s.ready → s.port.agent = .interrupt →
    exec .bottomHalf s = .next
      { s with bhScheduled := false,
               intPhase := .bh ⟨s.pendingMask &&& s.enabledMask, 0#32, ⟨0, .rd⟩⟩ .test }

/-- R167 and R171: the bottom half's walk.  `Test` goes on to the update exactly when the direction's bit is in the snapshot
and else advances; `Accum` adds the direction's bit to the clear-mask and advances; advancing visits the reader and then the
writer of each channel in rising order and ends after the last writer.  None of these steps touches anything but the agent's
phase. -/
def Obligations.BottomHalfVisitsTheDirectionsInOrder : Prop :=
  ∀ (s : State) (f : BhFrame), s.live →
    (s.intPhase = .bh f .test →
      (f.snap.getLsbD (s.cfg.irq f.cur) = true →
        agentStep .interrupt s = .next { s with intPhase := .bh f .updRead }) ∧
      (f.snap.getLsbD (s.cfg.irq f.cur) = false →
        agentStep .interrupt s = .next { s with intPhase := bhAdvance s.cfg f })) ∧
    (s.intPhase = .bh f .accum → agentStep .interrupt s =
      .next { s with intPhase := bhAdvance s.cfg { f with clear := f.clear ||| (1#32 <<< s.cfg.irq f.cur) } }) ∧
    (∀ i, (allDirs s.cfg)[i]? = some f.cur →
      (∀ d, (allDirs s.cfg)[i + 1]? = some d → bhAdvance s.cfg f = .bh { f with cur := d } .test) ∧
      ((allDirs s.cfg)[i + 1]? = none → bhAdvance s.cfg f = .bh f .finish))

/-- R168: the update in a bottom half.  A Running direction's loop status is read and held; the merge step then does to the
direction what a standalone UPDATE_HW's merge step does, and goes on to the deferred check.  A fault names the bottom half's
own opcode and no direction, since BOTTOM_HALF has none (R201). -/
def Obligations.BottomHalfUpdatesLikeUpdateHw : Prop :=
  ∀ (s : State) (f : BhFrame), s.live →
    (s.intPhase = .bh f .updRead → (s.dir f.cur).st = .running → ∃ t, agentStep .interrupt s = .next t ∧
      t = { s with intPhase := .bh f (.updMerge s.nextDraw),
                   history := s.history ++ [.regRead (s.cfg.offLoopStatus f.cur) s.nextDraw],
                   oracle := t.oracle, freeCount := t.freeCount } ∧ t.oracle = s.oracle.tail) ∧
    (∀ (status : U32) (u : State), s.intPhase = .bh f (.updMerge status) →
      agentStep .interrupt { s with intPhase := .upd f.cur (.merge status) } = .next u →
      (u.fault = none → agentStep .interrupt s = .next { s with chans := u.chans, intPhase := .bh f .deferCheck }) ∧
      (∀ r, u.fault = some r → agentStep .interrupt s = .next { s with fault := some { r with op := 0x08#8, d := none } }))

/-- R169: the deferred check.  No deferred request goes on to `Accum`; a held claim is `ConcurrentServicer` with its holder's
id, under the bottom half's own opcode and with no direction (R201); else the interrupt agent takes the claim and re-invokes the servicer with the stored request, buffer and length, the
entry staying in place. -/
def Obligations.DeferCheckReinvokesTheServicer : Prop :=
  ∀ (s : State) (f : BhFrame), s.live → s.shaped → f.cur.ch < s.cfg.nCh → s.intPhase = .bh f .deferCheck →
    ((s.dir f.cur).deferred = none → agentStep .interrupt s = .next { s with intPhase := .bh f .accum }) ∧
    (∀ r a, (s.dir f.cur).deferred = some r → (s.dir f.cur).claim = some a →
      ∃ x, agentStep .interrupt s = .next { s with fault := some x } ∧ x.code = .concurrentServicer ∧
        x.agent = .interrupt ∧ x.op = 0x08#8 ∧ x.d = none ∧ (a.id < 2 ^ 64 → x.info.toNat = a.id)) ∧
    (∀ r, (s.dir f.cur).deferred = some r → (s.dir f.cur).claim = none →
      ∃ t, agentStep .interrupt s = .next t ∧ t.dir f.cur = { s.dir f.cur with claim := some .interrupt } ∧
        (∀ q, q ≠ f.cur → t.dir q = s.dir q) ∧
        ∃ v : SvcFrame, t = { s with chans := t.chans, intPhase := .bh f (.svc v) } ∧
          v = ⟨f.cur, r.req, r.buf, r.left, 0#64,
            if s.cfg.blockSize f.cur.ch ≤ r.left.toNat then .snapshot else .outcome⟩)

/-- R172: BH_END subtracts the clear-mask from the pending mask, bit by bit, and the agent is Idle; nothing else changes.
The result record `done` is the model's own (log entry 7). -/
def Obligations.BottomHalfEndSubtractsTheClearMask : Prop :=
  ∀ (s : State) (f : BhFrame), s.live → s.intPhase = .bh f .finish →
    ∃ t, agentStep .interrupt s = .next t ∧
      t = { s with pendingMask := t.pendingMask, intPhase := .idle, results := s.results ++ [(.interrupt, .done)] } ∧
      ∀ i < 32, t.pendingMask.getLsbD i = (s.pendingMask.getLsbD i && !f.clear.getLsbD i)

/-- R173 with R166, R171 and R172: a bottom half that runs to its end with no other agent's step in between and no fault
clears from the pending mask exactly the bits that were pending, enabled and assigned to a direction. -/
def Obligations.BottomHalfConsumesTheAssignedBits : Prop :=
  ∀ (s t : State) (c : Call) (m : Nat) (rest : List Input), BlockInv s → s.fault = none → s.intPhase = .idle →
    c.agent = .interrupt → c.word = encode .bottomHalf → s.inputs = opInputs c m ++ rest →
    core.run (m + 1) s = .next t → t.fault = none → t.intPhase = .idle →
    t.pendingMask = s.pendingMask &&& ~~~(assignedBits s.cfg (s.pendingMask &&& s.enabledMask)) ∧
    t.enabledMask = s.enabledMask ∧ t.bhScheduled = false ∧
    ∀ i, t.pendingMask.getLsbD i = (s.pendingMask.getLsbD i &&
      !(s.enabledMask.getLsbD i && (allDirs s.cfg).any (fun d => s.cfg.irq d == i)))

/-- R255, R164: a bottom half issued from Idle ends: after some number of the interrupt agent's own steps the agent is Idle
again and no bottom half is scheduled, or a fault has been recorded. -/
def Obligations.BottomHalfEnds : Prop :=
  ∀ (s : State) (c : Call), BlockInv s → s.fault = none → s.intPhase = .idle → c.agent = .interrupt →
    c.word = encode .bottomHalf →
    ∃ m t, core.run (m + 1) { s with inputs := opInputs c m } = .next t ∧
      (t.fault.isSome = true ∨ t.intPhase = .idle ∧ t.bhScheduled = false)

/-- R174: IRQ_ENABLE ORs its bit into the enabled mask and writes the whole updated mask to INT_ENABLE and then to
INT_CLEAR; the pending mask and every direction are unchanged.  The result record `done` is the model's own (log entry 7). -/
def Obligations.IrqEnableWritesEnableAndClear : Prop :=
  ∀ (s : State) (n : Nat), s.ready → s.port.agent = .lifecycle → n < 32 →
    ∃ t, exec (.irqEnable n) s = .next t ∧
      (∀ i < 32, t.enabledMask.getLsbD i = (s.enabledMask.getLsbD i || i == n)) ∧
      t = { s with enabledMask := t.enabledMask,
                   history := s.history ++ [.regWrite s.cfg.offIntEnable t.enabledMask,
                     .regWrite s.cfg.offIntClear t.enabledMask],
                   results := s.results ++ [(.lifecycle, .done)] }

/-- R175: IRQ_DISABLE takes its bit out of the enabled mask and rewrites INT_ENABLE only; the pending mask and every
direction are unchanged.  The result record `done` is the model's own (log entry 7). -/
def Obligations.IrqDisableRewritesEnableOnly : Prop :=
  ∀ (s : State) (n : Nat), s.ready → s.port.agent = .lifecycle → n < 32 →
    ∃ t, exec (.irqDisable n) s = .next t ∧
      (∀ i < 32, t.enabledMask.getLsbD i = (s.enabledMask.getLsbD i && i != n)) ∧
      t = { s with enabledMask := t.enabledMask,
                   history := s.history ++ [.regWrite s.cfg.offIntEnable t.enabledMask],
                   results := s.results ++ [(.lifecycle, .done)] }

/-! ## The whole machine -/

/-- R45, R240: construction, under every configuration: one inert record for each direction, the masks 0, nothing scheduled,
no fault, an empty history, every agent Idle. -/
def Obligations.ConstructionIsInert : Prop :=
  ∀ g : Cfg,
    (State.construct g).cfg = g ∧ (State.construct g).chans.length = g.nCh ∧
    (∀ d : DirId, d.ch < g.nCh → ((State.construct g).dir d).st = .stopped ∧
      ((State.construct g).dir d).hwCount = 0#64 ∧ ((State.construct g).dir d).hwCountLast = 0#64 ∧
      ((State.construct g).dir d).swCount = 0#64 ∧ ((State.construct g).dir d).deferred = none ∧
      ((State.construct g).dir d).overflow = 0#64 ∧ ((State.construct g).dir d).claim = none) ∧
    (State.construct g).pendingMask = 0#32 ∧ (State.construct g).enabledMask = 0#32 ∧
    (State.construct g).bhScheduled = false ∧ (State.construct g).fault = none ∧ (State.construct g).history = [] ∧
    (∀ a, (State.construct g).agentIdle a = true)

/-- R25, R26, R155: the invariant holds after construction, under every well-formed configuration, whatever the environment
has laid down. -/
def Obligations.ConstructionMeetsTheInvariant : Prop :=
  ∀ (g : Cfg) (xs : List Input) (vs : List U32), g.wf = true →
    BlockInv { State.construct g with inputs := xs, oracle := vs }

/-- R25, R26, R29, R155: every step keeps the invariant, from every state that meets it: `hw_count = hw_count_last`,
`sw_count <= hw_count`, a deferred request or a claim only on a Running direction, a claim only for a call in progress, an
iteration only over an available slot, a canonical client list. -/
def Obligations.EveryStepKeepsTheInvariant : Prop :=
  ∀ s t : State, BlockInv s → step s = .next t → BlockInv t

/-- R155: in a step that records no fault, a direction's counters do not fall, but for a zeroing of all three by the lifecycle
agent at the end of START or STOP on that direction. -/
def Obligations.CountersFallOnlyByZeroing : Prop :=
  ∀ (s t : State) (d : DirId), BlockInv s → step s = .next t →
    ((s.dir d).hwCount.toNat ≤ (t.dir d).hwCount.toNat ∧ (s.dir d).swCount.toNat ≤ (t.dir d).swCount.toNat) ∨
    (s.stepper = some .lifecycle ∧ (s.lifePhase = .startEnd d ∨ s.lifePhase = .stopEnd d) ∧
      (t.dir d).hwCount = 0#64 ∧ (t.dir d).hwCountLast = 0#64 ∧ (t.dir d).swCount = 0#64)

/-- R26, R155: no run from construction, whatever the configuration, the scheduler's choices and the oracle's answers, comes
to a state with `sw_count > hw_count`, or records `AvailableNegative`. -/
def Obligations.NoRunFindsNegativeAvailability : Prop :=
  ∀ (g : Cfg) (xs : List Input) (vs : List U32) (n : Nat) (t : State),
    core.run n { State.construct g with inputs := xs, oracle := vs } = .next t →
    (∀ d, d.ch < g.nCh → (t.dir d).swCount.toNat ≤ (t.dir d).hwCount.toNat) ∧
    ∀ r, t.fault = some r → r.code ≠ .availableNegative

/-- R22, R23, R24, R247: in every step of every state, a change of `hw_count` or `hw_count_last` is a merge by the interrupt
agent, and a change of `sw_count` is the increment of a servicer's commit on that direction; but for the zeroing by the
lifecycle agent at the end of START or STOP. -/
def Obligations.OnlyMergesCommitsAndZeroingWriteTheCounters : Prop :=
  ∀ (s t : State) (d : DirId), step s = .next t →
    ((t.dir d).hwCount ≠ (s.dir d).hwCount ∨ (t.dir d).hwCountLast ≠ (s.dir d).hwCountLast →
      (s.stepper = some .interrupt ∧ s.intPhase.merging d = true ∧ (t.dir d).hwCount = (t.dir d).hwCountLast) ∨
      (s.stepper = some .lifecycle ∧ (s.lifePhase = .startEnd d ∨ s.lifePhase = .stopEnd d) ∧
        (t.dir d).hwCount = 0#64 ∧ (t.dir d).hwCountLast = 0#64)) ∧
    ((t.dir d).swCount ≠ (s.dir d).swCount →
      (∃ a f, s.stepper = some a ∧ s.frameOf a = some f ∧ f.d = d ∧ f.ph = .commit ∧
        (t.dir d).swCount = (s.dir d).swCount + 1#64) ∨
      (s.stepper = some .lifecycle ∧ (s.lifePhase = .startEnd d ∨ s.lifePhase = .stopEnd d) ∧
        (t.dir d).swCount = 0#64))

/-- R21, R44: in every step of every state, a change of a direction's lifecycle state is the lifecycle agent's and is one of
Stopped to Starting, Starting's end to Running, any state to Stopping, Stopping's end to Stopped; and a direction that is busy
does not begin one. -/
def Obligations.OnlyTheLifecycleAgentMovesADirection : Prop :=
  ∀ (s t : State) (d : DirId), step s = .next t → (t.dir d).st ≠ (s.dir d).st →
    s.stepper = some .lifecycle ∧
    (((s.dir d).st = .stopped ∧ (t.dir d).st = .starting ∧ s.lifePhase = .idle ∧ s.busy d = false) ∨
     ((t.dir d).st = .stopping ∧ s.lifePhase = .idle ∧ s.busy d = false) ∨
     ((t.dir d).st = .running ∧ s.lifePhase = .startEnd d) ∨
     ((t.dir d).st = .stopped ∧ s.lifePhase = .stopEnd d))

/-- R151: in every step of every state in which a request leaves a direction's deferred slot, exactly one `Complete` event for
that request is emitted, with the status `Success`, `Superseded` or `Cancelled`. -/
def Obligations.ALeavingDeferredRequestCompletesOnce : Prop :=
  ∀ (s t : State) (d : DirId) (r : DeferredReq), step s = .next t → (s.dir d).deferred = some r →
    (∀ r', (t.dir d).deferred = some r' → r'.req ≠ r.req) →
    ∃ bytes status, status ∈ [Status.success, Status.superseded, Status.cancelled] ∧
      (t.history.drop s.history.length).filter
        (fun e => match e with
          | .complete q _ _ => q == r.req
          | _ => false) = [.complete r.req bytes status]

/-- R35, R46: in every step of every state, events are only appended to the history and result records to the results, and the
configuration and the channels' number do not change.  R37: after the step that issues a command no operand record is left,
and no other step leaves one.  That the issuing step is the one that clears it, and that a record of zeros stands for none, are
the model's choice (log entry 16). -/
def Obligations.HistoryOnlyGrowsAndConfigurationStays : Prop :=
  ∀ s t : State, step s = .next t →
    t.cfg = s.cfg ∧ t.chans.length = s.chans.length ∧ s.history <+: t.history ∧ s.results <+: t.results ∧
    (∀ c rest, s.inputs = .issue c :: rest ∨ s.inputs = .post c :: rest → t.port.operands = OperandRecord.zero) ∧
    (s.port.operands = OperandRecord.zero → t.port.operands = OperandRecord.zero)

/-- R51, R53: every register access of a step is at an offset that is a multiple of 4, and every read is of INT_VECTOR or of a
loop-status register. -/
def Obligations.RegisterAccessesAreAlignedAndReadsAreTwo : Prop :=
  ∀ s t : State, BlockInv s → step s = .next t → ∀ e ∈ t.history.drop s.history.length,
    (∀ off v, e = .regWrite off v → 4 ∣ off.toNat) ∧
    (∀ off v, e = .regRead off v → 4 ∣ off.toNat ∧
      (off = s.cfg.offIntVector ∨ ∃ d, d.ch < s.cfg.nCh ∧ off = s.cfg.offLoopStatus d))

/-- R160: in every step of every state, the pending mask and the scheduling flag change only in the interrupt agent's steps,
the enabled mask only in the lifecycle agent's; and no agent's step changes another agent's phase (R40). -/
def Obligations.EachAgentWritesItsOwn : Prop :=
  ∀ s t : State, step s = .next t →
    (t.pendingMask ≠ s.pendingMask ∨ t.bhScheduled ≠ s.bhScheduled ∨ t.intPhase ≠ s.intPhase →
      s.stepper = some .interrupt) ∧
    (t.enabledMask ≠ s.enabledMask ∨ t.lifePhase ≠ s.lifePhase → s.stepper = some .lifecycle) ∧
    (∀ n, t.client n ≠ s.client n → s.stepper = some (.client n))

/-- R109, R141: a client's call that waits at its `Enter` phase does not make its direction busy, and its `Enter` step is what
SERVICE does when it is issued from Idle.  That an issue is the operation's first step is the model's choice (log entry 1). -/
def Obligations.AWaitingCallEntersLater : Prop :=
  (∀ (s : State) (n : Nat) (d : DirId), s.ready → s.port.agent = .client n → d.ch < s.cfg.nCh →
    s.port.word = encode (.service d.ch d.dir) →
    ∃ t, postWord s = .next t ∧ (∀ q, t.dir q = s.dir q ∧ t.busy q = s.busy q) ∧ t.history = s.history ∧
      t.client n = some ⟨d, s.port.operands.req, s.port.operands.buf, s.port.operands.len, 0#64, .enter⟩) ∧
  (∀ (s t : State) (n : Nat) (d : DirId), s.ready → s.port.agent = .client n → d.ch < s.cfg.nCh →
    exec (.service d.ch d.dir) s = .next t →
    agentStep (.client n) (s.setClient n (some (serviceFrame d s.port.operands))) =
      .next (if t.fault = none then t else { t with clients := clientPut s.clients n (serviceFrame d s.port.operands) }))
end

