-- ==== Sys2Proof/Laws/State.lean ====
section
/-! SUPPORT. One lemma per field of State per update, and per reader of State per update: no later proof unfolds an update. -/

namespace Sys2Proof.Machine.State

@[simp] theorem cfg_setInt (s : State) (p : IntPhase) : (s.setInt p).cfg = s.cfg := rfl
@[simp] theorem chans_setInt (s : State) (p : IntPhase) : (s.setInt p).chans = s.chans := rfl
@[simp] theorem pendingMask_setInt (s : State) (p : IntPhase) : (s.setInt p).pendingMask = s.pendingMask := rfl
@[simp] theorem enabledMask_setInt (s : State) (p : IntPhase) : (s.setInt p).enabledMask = s.enabledMask := rfl
@[simp] theorem bhScheduled_setInt (s : State) (p : IntPhase) : (s.setInt p).bhScheduled = s.bhScheduled := rfl
@[simp] theorem intPhase_setInt (s : State) (p : IntPhase) : (s.setInt p).intPhase = p := rfl
@[simp] theorem lifePhase_setInt (s : State) (p : IntPhase) : (s.setInt p).lifePhase = s.lifePhase := rfl
@[simp] theorem clients_setInt (s : State) (p : IntPhase) : (s.setInt p).clients = s.clients := rfl
@[simp] theorem fault_setInt (s : State) (p : IntPhase) : (s.setInt p).fault = s.fault := rfl
@[simp] theorem history_setInt (s : State) (p : IntPhase) : (s.setInt p).history = s.history := rfl
@[simp] theorem results_setInt (s : State) (p : IntPhase) : (s.setInt p).results = s.results := rfl
@[simp] theorem inputs_setInt (s : State) (p : IntPhase) : (s.setInt p).inputs = s.inputs := rfl
@[simp] theorem port_setInt (s : State) (p : IntPhase) : (s.setInt p).port = s.port := rfl
@[simp] theorem oracle_setInt (s : State) (p : IntPhase) : (s.setInt p).oracle = s.oracle := rfl
@[simp] theorem freeCount_setInt (s : State) (p : IntPhase) : (s.setInt p).freeCount = s.freeCount := rfl
@[simp] theorem dir_setInt (s : State) (p : IntPhase) (q : DirId) : (s.setInt p).dir q = s.dir q := rfl
@[simp] theorem client_setInt (s : State) (p : IntPhase) (k : Nat) : (s.setInt p).client k = s.client k := rfl
@[simp] theorem hasDir_setInt (s : State) (p : IntPhase) (q : DirId) : (s.setInt p).hasDir q = s.hasDir q := rfl

@[simp] theorem cfg_setLife (s : State) (p : LifePhase) : (s.setLife p).cfg = s.cfg := rfl
@[simp] theorem chans_setLife (s : State) (p : LifePhase) : (s.setLife p).chans = s.chans := rfl
@[simp] theorem pendingMask_setLife (s : State) (p : LifePhase) : (s.setLife p).pendingMask = s.pendingMask := rfl
@[simp] theorem enabledMask_setLife (s : State) (p : LifePhase) : (s.setLife p).enabledMask = s.enabledMask := rfl
@[simp] theorem bhScheduled_setLife (s : State) (p : LifePhase) : (s.setLife p).bhScheduled = s.bhScheduled := rfl
@[simp] theorem intPhase_setLife (s : State) (p : LifePhase) : (s.setLife p).intPhase = s.intPhase := rfl
@[simp] theorem lifePhase_setLife (s : State) (p : LifePhase) : (s.setLife p).lifePhase = p := rfl
@[simp] theorem clients_setLife (s : State) (p : LifePhase) : (s.setLife p).clients = s.clients := rfl
@[simp] theorem fault_setLife (s : State) (p : LifePhase) : (s.setLife p).fault = s.fault := rfl
@[simp] theorem history_setLife (s : State) (p : LifePhase) : (s.setLife p).history = s.history := rfl
@[simp] theorem results_setLife (s : State) (p : LifePhase) : (s.setLife p).results = s.results := rfl
@[simp] theorem inputs_setLife (s : State) (p : LifePhase) : (s.setLife p).inputs = s.inputs := rfl
@[simp] theorem port_setLife (s : State) (p : LifePhase) : (s.setLife p).port = s.port := rfl
@[simp] theorem oracle_setLife (s : State) (p : LifePhase) : (s.setLife p).oracle = s.oracle := rfl
@[simp] theorem freeCount_setLife (s : State) (p : LifePhase) : (s.setLife p).freeCount = s.freeCount := rfl
@[simp] theorem dir_setLife (s : State) (p : LifePhase) (q : DirId) : (s.setLife p).dir q = s.dir q := rfl
@[simp] theorem client_setLife (s : State) (p : LifePhase) (k : Nat) : (s.setLife p).client k = s.client k := rfl
@[simp] theorem hasDir_setLife (s : State) (p : LifePhase) (q : DirId) : (s.setLife p).hasDir q = s.hasDir q := rfl

@[simp] theorem cfg_setClient (s : State) (n : Nat) (o : Option SvcFrame) : (s.setClient n o).cfg = s.cfg := by cases o <;> rfl
@[simp] theorem chans_setClient (s : State) (n : Nat) (o : Option SvcFrame) : (s.setClient n o).chans = s.chans := by cases o <;> rfl
@[simp] theorem pendingMask_setClient (s : State) (n : Nat) (o : Option SvcFrame) : (s.setClient n o).pendingMask = s.pendingMask := by cases o <;> rfl
@[simp] theorem enabledMask_setClient (s : State) (n : Nat) (o : Option SvcFrame) : (s.setClient n o).enabledMask = s.enabledMask := by cases o <;> rfl
@[simp] theorem bhScheduled_setClient (s : State) (n : Nat) (o : Option SvcFrame) : (s.setClient n o).bhScheduled = s.bhScheduled := by cases o <;> rfl
@[simp] theorem intPhase_setClient (s : State) (n : Nat) (o : Option SvcFrame) : (s.setClient n o).intPhase = s.intPhase := by cases o <;> rfl
@[simp] theorem lifePhase_setClient (s : State) (n : Nat) (o : Option SvcFrame) : (s.setClient n o).lifePhase = s.lifePhase := by cases o <;> rfl
@[simp] theorem fault_setClient (s : State) (n : Nat) (o : Option SvcFrame) : (s.setClient n o).fault = s.fault := by cases o <;> rfl
@[simp] theorem history_setClient (s : State) (n : Nat) (o : Option SvcFrame) : (s.setClient n o).history = s.history := by cases o <;> rfl
@[simp] theorem results_setClient (s : State) (n : Nat) (o : Option SvcFrame) : (s.setClient n o).results = s.results := by cases o <;> rfl
@[simp] theorem inputs_setClient (s : State) (n : Nat) (o : Option SvcFrame) : (s.setClient n o).inputs = s.inputs := by cases o <;> rfl
@[simp] theorem port_setClient (s : State) (n : Nat) (o : Option SvcFrame) : (s.setClient n o).port = s.port := by cases o <;> rfl
@[simp] theorem oracle_setClient (s : State) (n : Nat) (o : Option SvcFrame) : (s.setClient n o).oracle = s.oracle := by cases o <;> rfl
@[simp] theorem freeCount_setClient (s : State) (n : Nat) (o : Option SvcFrame) : (s.setClient n o).freeCount = s.freeCount := by cases o <;> rfl
@[simp] theorem dir_setClient (s : State) (n : Nat) (o : Option SvcFrame) (q : DirId) : (s.setClient n o).dir q = s.dir q := by simp only [State.dir, chans_setClient]
@[simp] theorem hasDir_setClient (s : State) (n : Nat) (o : Option SvcFrame) (q : DirId) : (s.setClient n o).hasDir q = s.hasDir q := by unfold State.hasDir; rw [cfg_setClient]

@[simp] theorem cfg_updDir (s : State) (d : DirId) (f : DirState → DirState) : (s.updDir d f).cfg = s.cfg := rfl
@[simp] theorem pendingMask_updDir (s : State) (d : DirId) (f : DirState → DirState) : (s.updDir d f).pendingMask = s.pendingMask := rfl
@[simp] theorem enabledMask_updDir (s : State) (d : DirId) (f : DirState → DirState) : (s.updDir d f).enabledMask = s.enabledMask := rfl
@[simp] theorem bhScheduled_updDir (s : State) (d : DirId) (f : DirState → DirState) : (s.updDir d f).bhScheduled = s.bhScheduled := rfl
@[simp] theorem intPhase_updDir (s : State) (d : DirId) (f : DirState → DirState) : (s.updDir d f).intPhase = s.intPhase := rfl
@[simp] theorem lifePhase_updDir (s : State) (d : DirId) (f : DirState → DirState) : (s.updDir d f).lifePhase = s.lifePhase := rfl
@[simp] theorem clients_updDir (s : State) (d : DirId) (f : DirState → DirState) : (s.updDir d f).clients = s.clients := rfl
@[simp] theorem fault_updDir (s : State) (d : DirId) (f : DirState → DirState) : (s.updDir d f).fault = s.fault := rfl
@[simp] theorem history_updDir (s : State) (d : DirId) (f : DirState → DirState) : (s.updDir d f).history = s.history := rfl
@[simp] theorem results_updDir (s : State) (d : DirId) (f : DirState → DirState) : (s.updDir d f).results = s.results := rfl
@[simp] theorem inputs_updDir (s : State) (d : DirId) (f : DirState → DirState) : (s.updDir d f).inputs = s.inputs := rfl
@[simp] theorem port_updDir (s : State) (d : DirId) (f : DirState → DirState) : (s.updDir d f).port = s.port := rfl
@[simp] theorem oracle_updDir (s : State) (d : DirId) (f : DirState → DirState) : (s.updDir d f).oracle = s.oracle := rfl
@[simp] theorem freeCount_updDir (s : State) (d : DirId) (f : DirState → DirState) : (s.updDir d f).freeCount = s.freeCount := rfl
@[simp] theorem client_updDir (s : State) (d : DirId) (f : DirState → DirState) (k : Nat) : (s.updDir d f).client k = s.client k := rfl
@[simp] theorem hasDir_updDir (s : State) (d : DirId) (f : DirState → DirState) (q : DirId) : (s.updDir d f).hasDir q = s.hasDir q := rfl

@[simp] theorem cfg_emit (s : State) (e : Event) : (s.emit e).cfg = s.cfg := rfl
@[simp] theorem chans_emit (s : State) (e : Event) : (s.emit e).chans = s.chans := rfl
@[simp] theorem pendingMask_emit (s : State) (e : Event) : (s.emit e).pendingMask = s.pendingMask := rfl
@[simp] theorem enabledMask_emit (s : State) (e : Event) : (s.emit e).enabledMask = s.enabledMask := rfl
@[simp] theorem bhScheduled_emit (s : State) (e : Event) : (s.emit e).bhScheduled = s.bhScheduled := rfl
@[simp] theorem intPhase_emit (s : State) (e : Event) : (s.emit e).intPhase = s.intPhase := rfl
@[simp] theorem lifePhase_emit (s : State) (e : Event) : (s.emit e).lifePhase = s.lifePhase := rfl
@[simp] theorem clients_emit (s : State) (e : Event) : (s.emit e).clients = s.clients := rfl
@[simp] theorem fault_emit (s : State) (e : Event) : (s.emit e).fault = s.fault := rfl
@[simp] theorem history_emit (s : State) (e : Event) : (s.emit e).history = s.history ++ [e] := rfl
@[simp] theorem results_emit (s : State) (e : Event) : (s.emit e).results = s.results := rfl
@[simp] theorem inputs_emit (s : State) (e : Event) : (s.emit e).inputs = s.inputs := rfl
@[simp] theorem port_emit (s : State) (e : Event) : (s.emit e).port = s.port := rfl
@[simp] theorem oracle_emit (s : State) (e : Event) : (s.emit e).oracle = s.oracle := rfl
@[simp] theorem freeCount_emit (s : State) (e : Event) : (s.emit e).freeCount = s.freeCount := rfl
@[simp] theorem dir_emit (s : State) (e : Event) (q : DirId) : (s.emit e).dir q = s.dir q := rfl
@[simp] theorem client_emit (s : State) (e : Event) (k : Nat) : (s.emit e).client k = s.client k := rfl
@[simp] theorem hasDir_emit (s : State) (e : Event) (q : DirId) : (s.emit e).hasDir q = s.hasDir q := rfl

@[simp] theorem cfg_emits (s : State) (es : List Event) : (s.emits es).cfg = s.cfg := rfl
@[simp] theorem chans_emits (s : State) (es : List Event) : (s.emits es).chans = s.chans := rfl
@[simp] theorem pendingMask_emits (s : State) (es : List Event) : (s.emits es).pendingMask = s.pendingMask := rfl
@[simp] theorem enabledMask_emits (s : State) (es : List Event) : (s.emits es).enabledMask = s.enabledMask := rfl
@[simp] theorem bhScheduled_emits (s : State) (es : List Event) : (s.emits es).bhScheduled = s.bhScheduled := rfl
@[simp] theorem intPhase_emits (s : State) (es : List Event) : (s.emits es).intPhase = s.intPhase := rfl
@[simp] theorem lifePhase_emits (s : State) (es : List Event) : (s.emits es).lifePhase = s.lifePhase := rfl
@[simp] theorem clients_emits (s : State) (es : List Event) : (s.emits es).clients = s.clients := rfl
@[simp] theorem fault_emits (s : State) (es : List Event) : (s.emits es).fault = s.fault := rfl
@[simp] theorem history_emits (s : State) (es : List Event) : (s.emits es).history = s.history ++ es := rfl
@[simp] theorem results_emits (s : State) (es : List Event) : (s.emits es).results = s.results := rfl
@[simp] theorem inputs_emits (s : State) (es : List Event) : (s.emits es).inputs = s.inputs := rfl
@[simp] theorem port_emits (s : State) (es : List Event) : (s.emits es).port = s.port := rfl
@[simp] theorem oracle_emits (s : State) (es : List Event) : (s.emits es).oracle = s.oracle := rfl
@[simp] theorem freeCount_emits (s : State) (es : List Event) : (s.emits es).freeCount = s.freeCount := rfl
@[simp] theorem dir_emits (s : State) (es : List Event) (q : DirId) : (s.emits es).dir q = s.dir q := rfl
@[simp] theorem client_emits (s : State) (es : List Event) (k : Nat) : (s.emits es).client k = s.client k := rfl
@[simp] theorem hasDir_emits (s : State) (es : List Event) (q : DirId) : (s.emits es).hasDir q = s.hasDir q := rfl

@[simp] theorem cfg_deliver (s : State) (a : AgentId) (r : Result) : (s.deliver a r).cfg = s.cfg := rfl
@[simp] theorem chans_deliver (s : State) (a : AgentId) (r : Result) : (s.deliver a r).chans = s.chans := rfl
@[simp] theorem pendingMask_deliver (s : State) (a : AgentId) (r : Result) : (s.deliver a r).pendingMask = s.pendingMask := rfl
@[simp] theorem enabledMask_deliver (s : State) (a : AgentId) (r : Result) : (s.deliver a r).enabledMask = s.enabledMask := rfl
@[simp] theorem bhScheduled_deliver (s : State) (a : AgentId) (r : Result) : (s.deliver a r).bhScheduled = s.bhScheduled := rfl
@[simp] theorem intPhase_deliver (s : State) (a : AgentId) (r : Result) : (s.deliver a r).intPhase = s.intPhase := rfl
@[simp] theorem lifePhase_deliver (s : State) (a : AgentId) (r : Result) : (s.deliver a r).lifePhase = s.lifePhase := rfl
@[simp] theorem clients_deliver (s : State) (a : AgentId) (r : Result) : (s.deliver a r).clients = s.clients := rfl
@[simp] theorem fault_deliver (s : State) (a : AgentId) (r : Result) : (s.deliver a r).fault = s.fault := rfl
@[simp] theorem history_deliver (s : State) (a : AgentId) (r : Result) : (s.deliver a r).history = s.history := rfl
@[simp] theorem results_deliver (s : State) (a : AgentId) (r : Result) : (s.deliver a r).results = s.results ++ [(a, r)] := rfl
@[simp] theorem inputs_deliver (s : State) (a : AgentId) (r : Result) : (s.deliver a r).inputs = s.inputs := rfl
@[simp] theorem port_deliver (s : State) (a : AgentId) (r : Result) : (s.deliver a r).port = s.port := rfl
@[simp] theorem oracle_deliver (s : State) (a : AgentId) (r : Result) : (s.deliver a r).oracle = s.oracle := rfl
@[simp] theorem freeCount_deliver (s : State) (a : AgentId) (r : Result) : (s.deliver a r).freeCount = s.freeCount := rfl
@[simp] theorem dir_deliver (s : State) (a : AgentId) (r : Result) (q : DirId) : (s.deliver a r).dir q = s.dir q := rfl
@[simp] theorem client_deliver (s : State) (a : AgentId) (r : Result) (k : Nat) : (s.deliver a r).client k = s.client k := rfl
@[simp] theorem hasDir_deliver (s : State) (a : AgentId) (r : Result) (q : DirId) : (s.deliver a r).hasDir q = s.hasDir q := rfl

@[simp] theorem cfg_drawn (s : State) : (s.drawn).cfg = s.cfg := by unfold State.drawn; split <;> rfl
@[simp] theorem chans_drawn (s : State) : (s.drawn).chans = s.chans := by unfold State.drawn; split <;> rfl
@[simp] theorem pendingMask_drawn (s : State) : (s.drawn).pendingMask = s.pendingMask := by unfold State.drawn; split <;> rfl
@[simp] theorem enabledMask_drawn (s : State) : (s.drawn).enabledMask = s.enabledMask := by unfold State.drawn; split <;> rfl
@[simp] theorem bhScheduled_drawn (s : State) : (s.drawn).bhScheduled = s.bhScheduled := by unfold State.drawn; split <;> rfl
@[simp] theorem intPhase_drawn (s : State) : (s.drawn).intPhase = s.intPhase := by unfold State.drawn; split <;> rfl
@[simp] theorem lifePhase_drawn (s : State) : (s.drawn).lifePhase = s.lifePhase := by unfold State.drawn; split <;> rfl
@[simp] theorem clients_drawn (s : State) : (s.drawn).clients = s.clients := by unfold State.drawn; split <;> rfl
@[simp] theorem fault_drawn (s : State) : (s.drawn).fault = s.fault := by unfold State.drawn; split <;> rfl
@[simp] theorem history_drawn (s : State) : (s.drawn).history = s.history := by unfold State.drawn; split <;> rfl
@[simp] theorem results_drawn (s : State) : (s.drawn).results = s.results := by unfold State.drawn; split <;> rfl
@[simp] theorem inputs_drawn (s : State) : (s.drawn).inputs = s.inputs := by unfold State.drawn; split <;> rfl
@[simp] theorem port_drawn (s : State) : (s.drawn).port = s.port := by unfold State.drawn; split <;> rfl
@[simp] theorem dir_drawn (s : State) (q : DirId) : (s.drawn).dir q = s.dir q := by simp only [State.dir, chans_drawn]
@[simp] theorem client_drawn (s : State) (k : Nat) : (s.drawn).client k = s.client k := by simp only [State.client, clients_drawn]
@[simp] theorem hasDir_drawn (s : State) (q : DirId) : (s.drawn).hasDir q = s.hasDir q := by unfold State.hasDir; rw [cfg_drawn]

@[simp] theorem cfg_mmioRead (s : State) (off : U32) : (s.mmioRead off).cfg = s.cfg := by simp [State.mmioRead]
@[simp] theorem chans_mmioRead (s : State) (off : U32) : (s.mmioRead off).chans = s.chans := by simp [State.mmioRead]
@[simp] theorem pendingMask_mmioRead (s : State) (off : U32) : (s.mmioRead off).pendingMask = s.pendingMask := by simp [State.mmioRead]
@[simp] theorem enabledMask_mmioRead (s : State) (off : U32) : (s.mmioRead off).enabledMask = s.enabledMask := by simp [State.mmioRead]
@[simp] theorem bhScheduled_mmioRead (s : State) (off : U32) : (s.mmioRead off).bhScheduled = s.bhScheduled := by simp [State.mmioRead]
@[simp] theorem intPhase_mmioRead (s : State) (off : U32) : (s.mmioRead off).intPhase = s.intPhase := by simp [State.mmioRead]
@[simp] theorem lifePhase_mmioRead (s : State) (off : U32) : (s.mmioRead off).lifePhase = s.lifePhase := by simp [State.mmioRead]
@[simp] theorem clients_mmioRead (s : State) (off : U32) : (s.mmioRead off).clients = s.clients := by simp [State.mmioRead]
@[simp] theorem fault_mmioRead (s : State) (off : U32) : (s.mmioRead off).fault = s.fault := by simp [State.mmioRead]
@[simp] theorem history_mmioRead (s : State) (off : U32) : (s.mmioRead off).history = s.history ++ [.regRead off s.nextDraw] := by simp [State.mmioRead]
@[simp] theorem results_mmioRead (s : State) (off : U32) : (s.mmioRead off).results = s.results := by simp [State.mmioRead]
@[simp] theorem inputs_mmioRead (s : State) (off : U32) : (s.mmioRead off).inputs = s.inputs := by simp [State.mmioRead]
@[simp] theorem port_mmioRead (s : State) (off : U32) : (s.mmioRead off).port = s.port := by simp [State.mmioRead]
@[simp] theorem oracle_mmioRead (s : State) (off : U32) : (s.mmioRead off).oracle = s.drawn.oracle := by simp [State.mmioRead]
@[simp] theorem freeCount_mmioRead (s : State) (off : U32) : (s.mmioRead off).freeCount = s.drawn.freeCount := by simp [State.mmioRead]
@[simp] theorem dir_mmioRead (s : State) (off : U32) (q : DirId) : (s.mmioRead off).dir q = s.dir q := by simp only [State.dir, chans_mmioRead]
@[simp] theorem client_mmioRead (s : State) (off : U32) (k : Nat) : (s.mmioRead off).client k = s.client k := by simp only [State.client, clients_mmioRead]
@[simp] theorem hasDir_mmioRead (s : State) (off : U32) (q : DirId) : (s.mmioRead off).hasDir q = s.hasDir q := by unfold State.hasDir; rw [cfg_mmioRead]

@[simp] theorem cfg_mmioWrite (s : State) (off v : U32) : (s.mmioWrite off v).cfg = s.cfg := rfl
@[simp] theorem chans_mmioWrite (s : State) (off v : U32) : (s.mmioWrite off v).chans = s.chans := rfl
@[simp] theorem pendingMask_mmioWrite (s : State) (off v : U32) : (s.mmioWrite off v).pendingMask = s.pendingMask := rfl
@[simp] theorem enabledMask_mmioWrite (s : State) (off v : U32) : (s.mmioWrite off v).enabledMask = s.enabledMask := rfl
@[simp] theorem bhScheduled_mmioWrite (s : State) (off v : U32) : (s.mmioWrite off v).bhScheduled = s.bhScheduled := rfl
@[simp] theorem intPhase_mmioWrite (s : State) (off v : U32) : (s.mmioWrite off v).intPhase = s.intPhase := rfl
@[simp] theorem lifePhase_mmioWrite (s : State) (off v : U32) : (s.mmioWrite off v).lifePhase = s.lifePhase := rfl
@[simp] theorem clients_mmioWrite (s : State) (off v : U32) : (s.mmioWrite off v).clients = s.clients := rfl
@[simp] theorem fault_mmioWrite (s : State) (off v : U32) : (s.mmioWrite off v).fault = s.fault := rfl
@[simp] theorem history_mmioWrite (s : State) (off v : U32) : (s.mmioWrite off v).history = s.history ++ [.regWrite off v] := rfl
@[simp] theorem results_mmioWrite (s : State) (off v : U32) : (s.mmioWrite off v).results = s.results := rfl
@[simp] theorem inputs_mmioWrite (s : State) (off v : U32) : (s.mmioWrite off v).inputs = s.inputs := rfl
@[simp] theorem port_mmioWrite (s : State) (off v : U32) : (s.mmioWrite off v).port = s.port := rfl
@[simp] theorem oracle_mmioWrite (s : State) (off v : U32) : (s.mmioWrite off v).oracle = s.oracle := rfl
@[simp] theorem freeCount_mmioWrite (s : State) (off v : U32) : (s.mmioWrite off v).freeCount = s.freeCount := rfl
@[simp] theorem dir_mmioWrite (s : State) (off v : U32) (q : DirId) : (s.mmioWrite off v).dir q = s.dir q := rfl
@[simp] theorem client_mmioWrite (s : State) (off v : U32) (k : Nat) : (s.mmioWrite off v).client k = s.client k := rfl
@[simp] theorem hasDir_mmioWrite (s : State) (off v : U32) (q : DirId) : (s.mmioWrite off v).hasDir q = s.hasDir q := rfl

@[simp] theorem cfg_raise (s : State) (a : AgentId) (op : U8) (d : Option DirId) (t : Trap) : (s.raise a op d t).cfg = s.cfg := rfl
@[simp] theorem chans_raise (s : State) (a : AgentId) (op : U8) (d : Option DirId) (t : Trap) : (s.raise a op d t).chans = s.chans := rfl
@[simp] theorem pendingMask_raise (s : State) (a : AgentId) (op : U8) (d : Option DirId) (t : Trap) : (s.raise a op d t).pendingMask = s.pendingMask := rfl
@[simp] theorem enabledMask_raise (s : State) (a : AgentId) (op : U8) (d : Option DirId) (t : Trap) : (s.raise a op d t).enabledMask = s.enabledMask := rfl
@[simp] theorem bhScheduled_raise (s : State) (a : AgentId) (op : U8) (d : Option DirId) (t : Trap) : (s.raise a op d t).bhScheduled = s.bhScheduled := rfl
@[simp] theorem intPhase_raise (s : State) (a : AgentId) (op : U8) (d : Option DirId) (t : Trap) : (s.raise a op d t).intPhase = s.intPhase := rfl
@[simp] theorem lifePhase_raise (s : State) (a : AgentId) (op : U8) (d : Option DirId) (t : Trap) : (s.raise a op d t).lifePhase = s.lifePhase := rfl
@[simp] theorem clients_raise (s : State) (a : AgentId) (op : U8) (d : Option DirId) (t : Trap) : (s.raise a op d t).clients = s.clients := rfl
@[simp] theorem fault_raise (s : State) (a : AgentId) (op : U8) (d : Option DirId) (t : Trap) : (s.raise a op d t).fault = some ⟨t.code, a, op, d, t.info⟩ := rfl
@[simp] theorem history_raise (s : State) (a : AgentId) (op : U8) (d : Option DirId) (t : Trap) : (s.raise a op d t).history = s.history := rfl
@[simp] theorem results_raise (s : State) (a : AgentId) (op : U8) (d : Option DirId) (t : Trap) : (s.raise a op d t).results = s.results := rfl
@[simp] theorem inputs_raise (s : State) (a : AgentId) (op : U8) (d : Option DirId) (t : Trap) : (s.raise a op d t).inputs = s.inputs := rfl
@[simp] theorem port_raise (s : State) (a : AgentId) (op : U8) (d : Option DirId) (t : Trap) : (s.raise a op d t).port = s.port := rfl
@[simp] theorem oracle_raise (s : State) (a : AgentId) (op : U8) (d : Option DirId) (t : Trap) : (s.raise a op d t).oracle = s.oracle := rfl
@[simp] theorem freeCount_raise (s : State) (a : AgentId) (op : U8) (d : Option DirId) (t : Trap) : (s.raise a op d t).freeCount = s.freeCount := rfl
@[simp] theorem dir_raise (s : State) (a : AgentId) (op : U8) (d : Option DirId) (t : Trap) (q : DirId) : (s.raise a op d t).dir q = s.dir q := rfl
@[simp] theorem client_raise (s : State) (a : AgentId) (op : U8) (d : Option DirId) (t : Trap) (k : Nat) : (s.raise a op d t).client k = s.client k := rfl
@[simp] theorem hasDir_raise (s : State) (a : AgentId) (op : U8) (d : Option DirId) (t : Trap) (q : DirId) : (s.raise a op d t).hasDir q = s.hasDir q := rfl

@[simp] theorem cfg_latch (s : State) (c : Call) : (s.latch c).cfg = s.cfg := rfl
@[simp] theorem chans_latch (s : State) (c : Call) : (s.latch c).chans = s.chans := rfl
@[simp] theorem pendingMask_latch (s : State) (c : Call) : (s.latch c).pendingMask = s.pendingMask := rfl
@[simp] theorem enabledMask_latch (s : State) (c : Call) : (s.latch c).enabledMask = s.enabledMask := rfl
@[simp] theorem bhScheduled_latch (s : State) (c : Call) : (s.latch c).bhScheduled = s.bhScheduled := rfl
@[simp] theorem intPhase_latch (s : State) (c : Call) : (s.latch c).intPhase = s.intPhase := rfl
@[simp] theorem lifePhase_latch (s : State) (c : Call) : (s.latch c).lifePhase = s.lifePhase := rfl
@[simp] theorem clients_latch (s : State) (c : Call) : (s.latch c).clients = s.clients := rfl
@[simp] theorem fault_latch (s : State) (c : Call) : (s.latch c).fault = s.fault := rfl
@[simp] theorem history_latch (s : State) (c : Call) : (s.latch c).history = s.history := rfl
@[simp] theorem results_latch (s : State) (c : Call) : (s.latch c).results = s.results := rfl
@[simp] theorem inputs_latch (s : State) (c : Call) : (s.latch c).inputs = s.inputs := rfl
@[simp] theorem port_latch (s : State) (c : Call) : (s.latch c).port = c := rfl
@[simp] theorem oracle_latch (s : State) (c : Call) : (s.latch c).oracle = s.oracle := rfl
@[simp] theorem freeCount_latch (s : State) (c : Call) : (s.latch c).freeCount = s.freeCount := rfl
@[simp] theorem dir_latch (s : State) (c : Call) (q : DirId) : (s.latch c).dir q = s.dir q := rfl
@[simp] theorem client_latch (s : State) (c : Call) (k : Nat) : (s.latch c).client k = s.client k := rfl
@[simp] theorem hasDir_latch (s : State) (c : Call) (q : DirId) : (s.latch c).hasDir q = s.hasDir q := rfl

@[simp] theorem cfg_release (s : State) : s.release.cfg = s.cfg := rfl
@[simp] theorem chans_release (s : State) : s.release.chans = s.chans := rfl
@[simp] theorem pendingMask_release (s : State) : s.release.pendingMask = s.pendingMask := rfl
@[simp] theorem enabledMask_release (s : State) : s.release.enabledMask = s.enabledMask := rfl
@[simp] theorem bhScheduled_release (s : State) : s.release.bhScheduled = s.bhScheduled := rfl
@[simp] theorem intPhase_release (s : State) : s.release.intPhase = s.intPhase := rfl
@[simp] theorem lifePhase_release (s : State) : s.release.lifePhase = s.lifePhase := rfl
@[simp] theorem clients_release (s : State) : s.release.clients = s.clients := rfl
@[simp] theorem fault_release (s : State) : s.release.fault = s.fault := rfl
@[simp] theorem history_release (s : State) : s.release.history = s.history := rfl
@[simp] theorem results_release (s : State) : s.release.results = s.results := rfl
@[simp] theorem inputs_release (s : State) : s.release.inputs = s.inputs := rfl
@[simp] theorem port_release (s : State) : s.release.port = Call.vacant := rfl
@[simp] theorem oracle_release (s : State) : s.release.oracle = s.oracle := rfl
@[simp] theorem freeCount_release (s : State) : s.release.freeCount = s.freeCount := rfl
@[simp] theorem dir_release (s : State) (q : DirId) : s.release.dir q = s.dir q := rfl
@[simp] theorem client_release (s : State) (k : Nat) : s.release.client k = s.client k := rfl
@[simp] theorem hasDir_release (s : State) (q : DirId) : s.release.hasDir q = s.hasDir q := rfl

@[simp] theorem cfg_setPending (s : State) (m : U32) : (s.setPending m).cfg = s.cfg := rfl
@[simp] theorem chans_setPending (s : State) (m : U32) : (s.setPending m).chans = s.chans := rfl
@[simp] theorem pendingMask_setPending (s : State) (m : U32) : (s.setPending m).pendingMask = m := rfl
@[simp] theorem enabledMask_setPending (s : State) (m : U32) : (s.setPending m).enabledMask = s.enabledMask := rfl
@[simp] theorem bhScheduled_setPending (s : State) (m : U32) : (s.setPending m).bhScheduled = s.bhScheduled := rfl
@[simp] theorem intPhase_setPending (s : State) (m : U32) : (s.setPending m).intPhase = s.intPhase := rfl
@[simp] theorem lifePhase_setPending (s : State) (m : U32) : (s.setPending m).lifePhase = s.lifePhase := rfl
@[simp] theorem clients_setPending (s : State) (m : U32) : (s.setPending m).clients = s.clients := rfl
@[simp] theorem fault_setPending (s : State) (m : U32) : (s.setPending m).fault = s.fault := rfl
@[simp] theorem history_setPending (s : State) (m : U32) : (s.setPending m).history = s.history := rfl
@[simp] theorem results_setPending (s : State) (m : U32) : (s.setPending m).results = s.results := rfl
@[simp] theorem inputs_setPending (s : State) (m : U32) : (s.setPending m).inputs = s.inputs := rfl
@[simp] theorem port_setPending (s : State) (m : U32) : (s.setPending m).port = s.port := rfl
@[simp] theorem oracle_setPending (s : State) (m : U32) : (s.setPending m).oracle = s.oracle := rfl
@[simp] theorem freeCount_setPending (s : State) (m : U32) : (s.setPending m).freeCount = s.freeCount := rfl
@[simp] theorem dir_setPending (s : State) (m : U32) (q : DirId) : (s.setPending m).dir q = s.dir q := rfl
@[simp] theorem client_setPending (s : State) (m : U32) (k : Nat) : (s.setPending m).client k = s.client k := rfl
@[simp] theorem hasDir_setPending (s : State) (m : U32) (q : DirId) : (s.setPending m).hasDir q = s.hasDir q := rfl

@[simp] theorem cfg_setEnabled (s : State) (m : U32) : (s.setEnabled m).cfg = s.cfg := rfl
@[simp] theorem chans_setEnabled (s : State) (m : U32) : (s.setEnabled m).chans = s.chans := rfl
@[simp] theorem pendingMask_setEnabled (s : State) (m : U32) : (s.setEnabled m).pendingMask = s.pendingMask := rfl
@[simp] theorem enabledMask_setEnabled (s : State) (m : U32) : (s.setEnabled m).enabledMask = m := rfl
@[simp] theorem bhScheduled_setEnabled (s : State) (m : U32) : (s.setEnabled m).bhScheduled = s.bhScheduled := rfl
@[simp] theorem intPhase_setEnabled (s : State) (m : U32) : (s.setEnabled m).intPhase = s.intPhase := rfl
@[simp] theorem lifePhase_setEnabled (s : State) (m : U32) : (s.setEnabled m).lifePhase = s.lifePhase := rfl
@[simp] theorem clients_setEnabled (s : State) (m : U32) : (s.setEnabled m).clients = s.clients := rfl
@[simp] theorem fault_setEnabled (s : State) (m : U32) : (s.setEnabled m).fault = s.fault := rfl
@[simp] theorem history_setEnabled (s : State) (m : U32) : (s.setEnabled m).history = s.history := rfl
@[simp] theorem results_setEnabled (s : State) (m : U32) : (s.setEnabled m).results = s.results := rfl
@[simp] theorem inputs_setEnabled (s : State) (m : U32) : (s.setEnabled m).inputs = s.inputs := rfl
@[simp] theorem port_setEnabled (s : State) (m : U32) : (s.setEnabled m).port = s.port := rfl
@[simp] theorem oracle_setEnabled (s : State) (m : U32) : (s.setEnabled m).oracle = s.oracle := rfl
@[simp] theorem freeCount_setEnabled (s : State) (m : U32) : (s.setEnabled m).freeCount = s.freeCount := rfl
@[simp] theorem dir_setEnabled (s : State) (m : U32) (q : DirId) : (s.setEnabled m).dir q = s.dir q := rfl
@[simp] theorem client_setEnabled (s : State) (m : U32) (k : Nat) : (s.setEnabled m).client k = s.client k := rfl
@[simp] theorem hasDir_setEnabled (s : State) (m : U32) (q : DirId) : (s.setEnabled m).hasDir q = s.hasDir q := rfl

@[simp] theorem cfg_setScheduled (s : State) (b : Bool) : (s.setScheduled b).cfg = s.cfg := rfl
@[simp] theorem chans_setScheduled (s : State) (b : Bool) : (s.setScheduled b).chans = s.chans := rfl
@[simp] theorem pendingMask_setScheduled (s : State) (b : Bool) : (s.setScheduled b).pendingMask = s.pendingMask := rfl
@[simp] theorem enabledMask_setScheduled (s : State) (b : Bool) : (s.setScheduled b).enabledMask = s.enabledMask := rfl
@[simp] theorem bhScheduled_setScheduled (s : State) (b : Bool) : (s.setScheduled b).bhScheduled = b := rfl
@[simp] theorem intPhase_setScheduled (s : State) (b : Bool) : (s.setScheduled b).intPhase = s.intPhase := rfl
@[simp] theorem lifePhase_setScheduled (s : State) (b : Bool) : (s.setScheduled b).lifePhase = s.lifePhase := rfl
@[simp] theorem clients_setScheduled (s : State) (b : Bool) : (s.setScheduled b).clients = s.clients := rfl
@[simp] theorem fault_setScheduled (s : State) (b : Bool) : (s.setScheduled b).fault = s.fault := rfl
@[simp] theorem history_setScheduled (s : State) (b : Bool) : (s.setScheduled b).history = s.history := rfl
@[simp] theorem results_setScheduled (s : State) (b : Bool) : (s.setScheduled b).results = s.results := rfl
@[simp] theorem inputs_setScheduled (s : State) (b : Bool) : (s.setScheduled b).inputs = s.inputs := rfl
@[simp] theorem port_setScheduled (s : State) (b : Bool) : (s.setScheduled b).port = s.port := rfl
@[simp] theorem oracle_setScheduled (s : State) (b : Bool) : (s.setScheduled b).oracle = s.oracle := rfl
@[simp] theorem freeCount_setScheduled (s : State) (b : Bool) : (s.setScheduled b).freeCount = s.freeCount := rfl
@[simp] theorem dir_setScheduled (s : State) (b : Bool) (q : DirId) : (s.setScheduled b).dir q = s.dir q := rfl
@[simp] theorem client_setScheduled (s : State) (b : Bool) (k : Nat) : (s.setScheduled b).client k = s.client k := rfl
@[simp] theorem hasDir_setScheduled (s : State) (b : Bool) (q : DirId) : (s.setScheduled b).hasDir q = s.hasDir q := rfl

end Sys2Proof.Machine.State
end

