-- ==== Sys2Proof/Laws/Dirs.lean ====
section
/-! SUPPORT. What a direction update does to each direction's record, and what the client list's operations do. -/

namespace Sys2Proof.Machine

@[simp] theorem Chan.side_upd (x : Chan) (dir dir' : Dir) (f : DirState → DirState) :
    (x.upd dir f).side dir' = if dir' = dir then f (x.side dir') else x.side dir' := by
  cases dir <;> cases dir' <;> rfl

@[simp] theorem State.chans_length_updDir (s : State) (d : DirId) (f : DirState → DirState) :
    (s.updDir d f).chans.length = s.chans.length := by
  simp [State.updDir]

theorem State.dir_updDir (s : State) (d q : DirId) (f : DirState → DirState) :
    (s.updDir d f).dir q = if q = d ∧ d.ch < s.chans.length then f (s.dir q) else s.dir q := by
  obtain ⟨c, dir⟩ := d
  obtain ⟨c', dir'⟩ := q
  simp only [State.dir, State.updDir, List.getElem?_modify, DirId.mk.injEq]
  by_cases hc : c = c'
  · subst hc
    by_cases hl : c < s.chans.length
    · simp [hl]
    · simp [hl]
  · simp [hc]
    intro h
    exact absurd h.symm hc

@[simp] theorem State.dir_updDir_ne (s : State) {d q : DirId} (f : DirState → DirState) (h : q ≠ d) :
    (s.updDir d f).dir q = s.dir q := by
  simp [State.dir_updDir, h]

theorem State.dir_updDir_self (s : State) {d : DirId} (f : DirState → DirState) (h : d.ch < s.chans.length) :
    (s.updDir d f).dir d = f (s.dir d) := by
  simp [State.dir_updDir, h]

/-- A part of the direction's record that the update keeps, whether or not the direction exists. -/
theorem State.dir_updDir_keep {α : Type} (s : State) (d q : DirId) (f : DirState → DirState) (g : DirState → α)
    (h : ∀ x, g (f x) = g x) : g ((s.updDir d f).dir q) = g (s.dir q) := by
  rw [State.dir_updDir]
  split
  · exact h _
  · rfl

@[simp] theorem clientGet_clientPut (l : List (Nat × SvcFrame)) (n m : Nat) (f : SvcFrame) :
    clientGet (clientPut l n f) m = if n = m then some f else clientGet l m := by
  induction l with
  | nil => simp [clientPut, clientGet]
  | cons p rest ih =>
    obtain ⟨k, g⟩ := p
    simp only [clientPut]
    split
    · simp [clientGet]
    · split
      · next h => subst h; by_cases hm : n = m <;> simp [clientGet, hm]
      · next h =>
        simp only [clientGet, ih]
        by_cases hk : k = m
        · have : n ≠ m := by omega
          simp [hk, this]
        · simp [hk]

@[simp] theorem clientGet_clientDel (l : List (Nat × SvcFrame)) (n m : Nat) :
    clientGet (clientDel l n) m = if n = m then none else clientGet l m := by
  induction l with
  | nil => simp [clientDel, clientGet]
  | cons p rest ih =>
    obtain ⟨k, g⟩ := p
    simp only [clientDel]
    split
    · next h =>
      subst h
      by_cases hm : k = m
      · subst hm; simpa using ih
      · simp [ih, hm, clientGet]
    · next h =>
      simp only [clientGet, ih]
      by_cases hk : k = m
      · have : n ≠ m := by omega
        simp [hk, this]
      · simp [hk]

theorem State.client_setClient (s : State) (n m : Nat) (o : Option SvcFrame) :
    (s.setClient n o).client m = if n = m then o else s.client m := by
  cases o <;> simp [State.client, State.setClient]

@[simp] theorem State.client_setClient_self (s : State) (n : Nat) (o : Option SvcFrame) :
    (s.setClient n o).client n = o := by
  simp [State.client_setClient]

theorem State.client_setClient_ne (s : State) {n m : Nat} (o : Option SvcFrame) (h : m ≠ n) :
    (s.setClient n o).client m = s.client m := by
  simp [State.client_setClient, h.symm]

@[simp] theorem clientPut_clientPut (l : List (Nat × SvcFrame)) (n : Nat) (f g : SvcFrame) :
    clientPut (clientPut l n f) n g = clientPut l n g := by
  induction l with
  | nil => simp [clientPut]
  | cons p rest ih =>
    obtain ⟨k, x⟩ := p
    simp only [clientPut]
    split
    · simp [clientPut]
    · split
      · simp [clientPut]
      · next h1 h2 => simp [clientPut, h1, h2, ih]

@[simp] theorem clientDel_clientPut (l : List (Nat × SvcFrame)) (n : Nat) (f : SvcFrame) :
    clientDel (clientPut l n f) n = clientDel l n := by
  induction l with
  | nil => simp [clientPut, clientDel]
  | cons p rest ih =>
    obtain ⟨k, x⟩ := p
    simp only [clientPut]
    split
    · simp [clientDel]
    · split
      · next h => subst h; simp [clientDel]
      · next h1 h2 => simp [clientDel, ih]

theorem clientDel_of_clientGet_none (l : List (Nat × SvcFrame)) (n : Nat) (h : clientGet l n = none) :
    clientDel l n = l := by
  induction l with
  | nil => rfl
  | cons p rest ih =>
    obtain ⟨k, x⟩ := p
    simp only [clientGet] at h
    split at h
    · cases h
    · next hk => simp [clientDel, hk, ih h]

theorem clientGet_ne_none {l : List (Nat × SvcFrame)} {p : Nat × SvcFrame} (h : p ∈ l) :
    clientGet l p.1 ≠ none := by
  induction l with
  | nil => cases h
  | cons q rest ih =>
    obtain ⟨k, x⟩ := q
    simp only [clientGet]
    split
    · simp
    · rcases List.mem_cons.mp h with h | h
      · subst h; exact absurd rfl ‹_›
      · exact ih h

/-- The canonical form, as a property of the pairs. -/
theorem clientsWf_cons (m : Nat) (g : SvcFrame) (rest : List (Nat × SvcFrame)) :
    clientsWf ((m, g) :: rest) = true ↔ (∀ p ∈ rest, m < p.1) ∧ clientsWf rest = true := by
  simp [clientsWf]

theorem mem_clientPut {l : List (Nat × SvcFrame)} {n : Nat} {f : SvcFrame} {p : Nat × SvcFrame}
    (h : p ∈ clientPut l n f) : p = (n, f) ∨ p ∈ l := by
  induction l with
  | nil => simpa [clientPut] using h
  | cons q rest ih =>
    obtain ⟨k, x⟩ := q
    simp only [clientPut] at h
    split at h
    · simpa using h
    · split at h
      · rcases List.mem_cons.mp h with h | h
        · exact .inl h
        · exact .inr (List.mem_cons_of_mem _ h)
      · rcases List.mem_cons.mp h with h | h
        · exact .inr (by simp [h])
        · rcases ih h with h | h
          · exact .inl h
          · exact .inr (List.mem_cons_of_mem _ h)

theorem mem_clientDel {l : List (Nat × SvcFrame)} {n : Nat} {p : Nat × SvcFrame}
    (h : p ∈ clientDel l n) : p ∈ l ∧ p.1 ≠ n := by
  induction l with
  | nil => simp [clientDel] at h
  | cons q rest ih =>
    obtain ⟨k, x⟩ := q
    simp only [clientDel] at h
    split at h
    · exact ⟨List.mem_cons_of_mem _ (ih h).1, (ih h).2⟩
    · next hk =>
      rcases List.mem_cons.mp h with h | h
      · subst h; exact ⟨by simp, hk⟩
      · exact ⟨List.mem_cons_of_mem _ (ih h).1, (ih h).2⟩

theorem clientsWf_clientPut (l : List (Nat × SvcFrame)) (n : Nat) (f : SvcFrame) (h : clientsWf l = true) :
    clientsWf (clientPut l n f) = true := by
  induction l with
  | nil => simp [clientPut, clientsWf]
  | cons q rest ih =>
    obtain ⟨k, x⟩ := q
    obtain ⟨h1, h2⟩ := (clientsWf_cons k x rest).mp h
    simp only [clientPut]
    split
    · next hn =>
      refine (clientsWf_cons _ _ _).mpr ⟨?_, h⟩
      intro p hp
      rcases List.mem_cons.mp hp with hp | hp
      · subst hp; exact hn
      · exact Nat.lt_trans hn (h1 p hp)
    · split
      · next hn => subst hn; exact (clientsWf_cons _ _ _).mpr ⟨h1, h2⟩
      · refine (clientsWf_cons _ _ _).mpr ⟨?_, ih h2⟩
        intro p hp
        rcases mem_clientPut hp with hp | hp
        · subst hp; show k < n; omega
        · exact h1 p hp

theorem clientsWf_clientDel (l : List (Nat × SvcFrame)) (n : Nat) (h : clientsWf l = true) :
    clientsWf (clientDel l n) = true := by
  induction l with
  | nil => rfl
  | cons q rest ih =>
    obtain ⟨k, x⟩ := q
    obtain ⟨h1, h2⟩ := (clientsWf_cons k x rest).mp h
    simp only [clientDel]
    split
    · exact ih h2
    · exact (clientsWf_cons _ _ _).mpr ⟨fun p hp => h1 p (mem_clientDel hp).1, ih h2⟩

/-- In a canonical list, membership is what the lookup finds. -/
theorem mem_iff_clientGet {l : List (Nat × SvcFrame)} (h : clientsWf l = true) (n : Nat) (f : SvcFrame) :
    (n, f) ∈ l ↔ clientGet l n = some f := by
  induction l with
  | nil => simp [clientGet]
  | cons q rest ih =>
    obtain ⟨k, x⟩ := q
    obtain ⟨h1, h2⟩ := (clientsWf_cons k x rest).mp h
    simp only [clientGet, List.mem_cons, Prod.mk.injEq]
    split
    · next hk =>
      subst hk
      constructor
      · rintro (⟨-, rfl⟩ | hm)
        · rfl
        · exact absurd (h1 _ hm) (Nat.lt_irrefl _)
      · intro he; cases he; exact .inl ⟨rfl, rfl⟩
    · next hk =>
      rw [← ih h2]
      constructor
      · rintro (⟨rfl, -⟩ | hm)
        · exact absurd rfl hk
        · exact hm
      · exact .inr

end Sys2Proof.Machine
end

