-- ==== Sys2Proof/Laws/Params.lean ====
section
/-! SUPPORT. What the derived parameters and a well-formed configuration give. -/

namespace Sys2Proof

theorem capLog2_eq_some {n k : Nat} : capLog2 n = some k ↔ k ≤ 16 ∧ n = 2 ^ k := by
  unfold capLog2
  constructor
  · intro h
    have h1 := List.find?_some h
    have h2 := List.mem_of_find?_eq_some h
    simp at h1 h2
    exact ⟨by omega, h1.symm⟩
  · rintro ⟨hk, rfl⟩
    rcases hf : (List.range 17).find? (fun j => 2 ^ j == 2 ^ k) with _ | j
    · have := List.find?_eq_none.mp hf k (by simp; omega)
      simp at this
    · have h1 := List.find?_some hf
      simp at h1
      rw [h1]

theorem capLog2_eq_none {n : Nat} : capLog2 n = none ↔ ∀ k ≤ 16, n ≠ 2 ^ k := by
  rw [Option.eq_none_iff_forall_ne_some]
  constructor
  · intro h k hk hn; exact h k (capLog2_eq_some.mpr ⟨hk, hn⟩)
  · intro h k hk; obtain ⟨h1, h2⟩ := capLog2_eq_some.mp hk; exact h k h1 h2

theorem Cfg.chan_mem {g : Cfg} {c : Nat} (h : c < g.nCh) : g.chan c ∈ g.chans := by
  unfold Cfg.chan
  unfold Cfg.nCh at h
  simp [List.getElem?_eq_getElem h]

theorem Cfg.chan_wf {g : Cfg} {c : Nat} (h : g.wf = true) (hc : c < g.nCh) :
    (g.chan c).wf g.descSizeBits = true := by
  simp only [Cfg.wf, Bool.and_eq_true, List.all_eq_true] at h
  exact h.2 _ (Cfg.chan_mem hc)

theorem Cfg.nCh_le {g : Cfg} (h : g.wf = true) : g.nCh ≤ 256 := by
  simp only [Cfg.wf, Bool.and_eq_true, decide_eq_true_eq] at h
  exact h.1.1.1.2

theorem Cfg.nCh_pos {g : Cfg} (h : g.wf = true) : 1 ≤ g.nCh := by
  simp only [Cfg.wf, Bool.and_eq_true, decide_eq_true_eq] at h
  exact h.1.1.1.1

/-- `CAP[c] = 2^k[c]` with `k[c] <= 16` (R7). -/
theorem Cfg.cap_eq {g : Cfg} {c : Nat} (h : g.wf = true) (hc : c < g.nCh) : g.cap c = 2 ^ g.k c ∧ g.k c ≤ 16 := by
  have hx := Cfg.chan_wf h hc
  simp only [ChanCfg.wf, Bool.and_eq_true] at hx
  obtain ⟨k, hk⟩ := Option.isSome_iff_exists.mp hx.1.1.1.1.1.1.1.1.1.1.1
  have hk' : capLog2 (g.cap c) = some k := hk
  have hkk : g.k c = k := by simp [Cfg.k, hk']
  rw [hkk]
  exact ⟨(capLog2_eq_some.mp hk').2, (capLog2_eq_some.mp hk').1⟩

theorem Cfg.cap_pos {g : Cfg} {c : Nat} (h : g.wf = true) (hc : c < g.nCh) : 0 < g.cap c := by
  rw [(Cfg.cap_eq h hc).1]; exact Nat.two_pow_pos _

theorem Cfg.cap_le {g : Cfg} {c : Nat} (h : g.wf = true) (hc : c < g.nCh) : g.cap c ≤ 65536 := by
  rw [(Cfg.cap_eq h hc).1]
  exact Nat.pow_le_pow_right (by decide) (Cfg.cap_eq h hc).2 |>.trans (by decide)

theorem Cfg.blockSize_pos {g : Cfg} {c : Nat} (h : g.wf = true) (hc : c < g.nCh) : 1 ≤ g.blockSize c := by
  have hx := Cfg.chan_wf h hc
  simp only [ChanCfg.wf, Bool.and_eq_true, decide_eq_true_eq] at hx
  exact hx.1.1.1.1.1.1.1.1.1.1.2

theorem Cfg.blockSize_lt {g : Cfg} {c : Nat} (h : g.wf = true) (hc : c < g.nCh) : g.blockSize c < 2 ^ 32 := by
  have hx := Cfg.chan_wf h hc
  simp only [ChanCfg.wf, Bool.and_eq_true, decide_eq_true_eq] at hx
  exact hx.1.1.1.1.1.1.1.1.1.2

theorem Cfg.blockSize_lt_size {g : Cfg} {c : Nat} (h : g.wf = true) (hc : c < g.nCh) :
    g.blockSize c < 2 ^ g.descSizeBits := by
  have hx := Cfg.chan_wf h hc
  simp only [ChanCfg.wf, Bool.and_eq_true, decide_eq_true_eq] at hx
  exact hx.1.1.1.1.1.1.1.1.2

theorem Cfg.base_aligned {g : Cfg} {c : Nat} (h : g.wf = true) (hc : c < g.nCh) : (g.chan c).base.toNat % 4 = 0 := by
  have hx := Cfg.chan_wf h hc
  simp only [ChanCfg.wf, Bool.and_eq_true, aligned, beq_iff_eq] at hx
  exact hx.1.1.1.1.2

theorem Cfg.irq_lt {g : Cfg} {d : DirId} (h : g.wf = true) (hc : d.ch < g.nCh) : g.irq d < 32 := by
  have hx := Cfg.chan_wf h hc
  simp only [ChanCfg.wf, Bool.and_eq_true, decide_eq_true_eq] at hx
  cases hd : d.dir
  · simpa [Cfg.irq, hd] using hx.1.1.1.2
  · simpa [Cfg.irq, hd] using hx.1.1.2

end Sys2Proof
end

