-- ==== Sys2Proof/Laws/Merge.lean ====
section
/-! SUPPORT. The merge of R121 in arithmetic: the field replaced, one span added on a wrap. -/

namespace Sys2Proof.Machine

theorem mergeField_eq (h : U64) {raw k : Nat} (hk : k ≤ 16) (hraw : raw < 2 ^ (k + 16)) :
    mergeField h raw k = h.toNat / 2 ^ (k + 16) * 2 ^ (k + 16) + raw := by
  have hW : k + 16 ≤ 32 := by omega
  have hpow : 2 ^ (k + 16) ≤ 2 ^ 32 := Nat.pow_le_pow_right (by decide) hW
  have hpos : 0 < 2 ^ (k + 16) := Nat.two_pow_pos _
  unfold mergeField epochSpan fieldWidth
  apply Nat.eq_of_testBit_eq
  intro i
  have hr64 : raw < 2 ^ 64 := by omega
  have hm64 : 2 ^ (k + 16) - 1 < 2 ^ 64 := by omega
  rw [Nat.mul_comm, Nat.testBit_two_pow_mul_add _ hraw]
  rw [BitVec.testBit_toNat]
  simp only [BitVec.getLsbD_or, BitVec.getLsbD_and, BitVec.getLsbD_not, BitVec.getLsbD_ofNat,
    Nat.testBit_two_pow_sub_one]
  by_cases hi : i < k + 16
  · have : i < 64 := by omega
    simp [hi, this]
  · have hri : raw.testBit i = false := Nat.testBit_lt_two_pow (Nat.lt_of_lt_of_le hraw (Nat.pow_le_pow_right (by decide) (by omega)))
    simp only [hi, hri, Nat.testBit_div_two_pow]
    have e : k + 16 + (i - (k + 16)) = i := by omega
    simp only [decide_false, Bool.and_false, Bool.not_false, Bool.and_true, Bool.or_false, if_false,
      BitVec.testBit_toNat]
    by_cases h64 : i < 64
    · simp [h64, Nat.sub_add_cancel (by omega : k + 16 ≤ i)]
    · have : h.getLsbD i = false := BitVec.getLsbD_of_ge _ _ (by omega)
      simp [h64, Nat.sub_add_cancel (by omega : k + 16 ≤ i), this]

/-- The merge as a number, before its range check: the sample in the field, and one span when it fell below the field of
`last`. -/
def mergeNat (last raw k : Nat) : Nat :=
  last / 2 ^ (k + 16) * 2 ^ (k + 16) + raw + (if raw < last % 2 ^ (k + 16) then 2 ^ (k + 16) else 0)

theorem merge_eq (last : U64) {raw k : Nat} (hk : k ≤ 16) (hraw : raw < 2 ^ (k + 16)) :
    merge last raw k =
      if mergeNat last.toNat raw k < 2 ^ 64 then .ok (BitVec.ofNat 64 (mergeNat last.toNat raw k))
      else .error ⟨.hwCountOverflow, last⟩ := by
  have hd := Nat.div_add_mod last.toNat (2 ^ (k + 16))
  rw [Nat.mul_comm] at hd
  have hlt : last.toNat < 2 ^ 64 := last.isLt
  unfold merge merge2 mergeNat epochSpan fieldWidth
  rw [mergeField_eq last hk hraw]
  by_cases hc : raw < last.toNat % 2 ^ (k + 16)
  · have : last.toNat / 2 ^ (k + 16) * 2 ^ (k + 16) + raw < last.toNat := by omega
    simp only [this, hc, if_true]
  · have : ¬ last.toNat / 2 ^ (k + 16) * 2 ^ (k + 16) + raw < last.toNat := by omega
    have h64 : last.toNat / 2 ^ (k + 16) * 2 ^ (k + 16) + raw < 2 ^ 64 := by
      have hk32 : k + 16 ≤ 64 := by omega
      have hdvd : 2 ^ (k + 16) ∣ 2 ^ 64 := Nat.pow_dvd_pow 2 hk32
      obtain ⟨q, hq⟩ := hdvd
      have hq' : last.toNat / 2 ^ (k + 16) < q := by
        rw [Nat.div_lt_iff_lt_mul (Nat.two_pow_pos _), Nat.mul_comm, ← hq]; exact hlt
      have : (last.toNat / 2 ^ (k + 16) + 1) * 2 ^ (k + 16) ≤ q * 2 ^ (k + 16) := Nat.mul_le_mul_right _ hq'
      rw [Nat.add_mul, Nat.mul_comm q, ← hq] at this
      omega
    simp only [this, hc, if_false, Nat.add_zero, h64, if_true]

/-- The result of a merge that does not overflow. -/
theorem merge_ok_iff (last m : U64) {raw k : Nat} (hk : k ≤ 16) (hraw : raw < 2 ^ (k + 16)) :
    merge last raw k = .ok m ↔ m.toNat = mergeNat last.toNat raw k := by
  rw [merge_eq last hk hraw]
  split
  · next h =>
    constructor
    · intro he; cases he; rw [BitVec.toNat_ofNat, Nat.mod_eq_of_lt h]
    · intro he; rw [← he]; simp
  · next h =>
    constructor
    · intro he; cases he
    · intro he; exact absurd (he ▸ m.isLt) h

/-- The only fault of a merge is `HwCountOverflow` with `last` (R121). -/
theorem merge2_error {h last : U64} {raw k : Nat} {e : Trap} (he : merge2 h last raw k = .error e) :
    e = ⟨.hwCountOverflow, last⟩ := by
  unfold merge2 at he
  split at he
  · split at he
    · cases he
    · cases he; rfl
  · cases he

/-- A merge does not lower the count (R127). -/
theorem le_mergeNat (last raw k : Nat) : last ≤ mergeNat last raw k := by
  have hd := Nat.div_add_mod last (2 ^ (k + 16))
  rw [Nat.mul_comm] at hd
  have := Nat.mod_lt last (Nat.two_pow_pos (k + 16))
  unfold mergeNat
  split <;> omega

end Sys2Proof.Machine
end

