-- ==== Sys2Proof/Laws/Effects.lean ====
section
/-! SUPPORT. What one step can do, said once: the effect of some operation's step on the state in which its agent took it,
or a fault.  Later proofs take cases on `Effect` and do not unfold `step`. -/

namespace Sys2Proof.Machine

theorem guarded_of_live {s : State} (h : s.live) (k : Answer) : guarded s k = k := by
  simp [guarded, h.1, h.2]

theorem guarded_eq_next {s t : State} {k : Answer} : guarded s k = .next t ↔ s.live ∧ k = .next t := by
  unfold guarded State.live
  by_cases hw : s.cfg.wf = true
  · rw [if_pos hw]
    cases hf : s.fault <;> simp [hw]
  · rw [if_neg hw]
    simp [hw]

theorem runStep_ok {a : AgentId} {op : U8} {d : Option DirId} {body : State → Except Trap State} {s t : State}
    (h : body s = .ok t) : runStep a op d body s = .next t := by
  simp [runStep, h]

theorem runStep_error {a : AgentId} {op : U8} {d : Option DirId} {body : State → Except Trap State} {s : State}
    {e : Trap} (h : body s = .error e) : runStep a op d body s = .next (s.raise a op d e) := by
  simp [runStep, h]

theorem runStep_eq_next {a : AgentId} {op : U8} {d : Option DirId} {body : State → Except Trap State} {s t : State} :
    runStep a op d body s = .next t ↔ body s = .ok t ∨ ∃ e, body s = .error e ∧ t = s.raise a op d e := by
  unfold runStep
  cases h : body s <;> simp [eq_comm]

/-- The issue checks passed: the operation's first step. -/
theorem issue_ready {op : Op} {d : Option DirId} {body : State → Except Trap State} {s : State} (hr : s.ready)
    (hm : mayIssue op s.port.agent = true) (hd : d.all s.hasDir = true) :
    issue op d body s = runStep s.port.agent op.code d body s := by
  unfold issue
  rw [guarded_of_live hr.1, if_pos hm, if_pos hd, if_pos hr.2]

/-- The effect of one step of agent `a`, from the state in which it took it, when no fault is raised. -/
inductive Effect (s : State) : AgentId → State → Prop
  | startBegin {t : State} (d : DirId) (hi : s.lifePhase = .idle) (hd : s.hasDir d = true)
      (h : Machine.startBegin d s = .ok t) : Effect s .lifecycle t
  | startEnd {t : State} (d : DirId) (hp : s.lifePhase = .startEnd d) (h : Machine.startEnd d s = .ok t) :
      Effect s .lifecycle t
  | stopBegin {t : State} (d : DirId) (hi : s.lifePhase = .idle) (hd : s.hasDir d = true)
      (h : Machine.stopBegin d s = .ok t) : Effect s .lifecycle t
  | stopEnd {t : State} (d : DirId) (hp : s.lifePhase = .stopEnd d) (h : Machine.stopEnd d s = .ok t) :
      Effect s .lifecycle t
  | irqEnable {t : State} (n : Nat) (hi : s.lifePhase = .idle) (h : irqEnableStep n s = .ok t) : Effect s .lifecycle t
  | irqDisable {t : State} (n : Nat) (hi : s.lifePhase = .idle) (h : irqDisableStep n s = .ok t) : Effect s .lifecycle t
  | merge {t : State} (h : mergeStep s = .ok t) : Effect s s.port.agent t
  | available {t : State} (d : DirId) (hd : s.hasDir d = true) (h : availableStep d s = .ok t) :
      Effect s s.port.agent t
  | updIssue {t : State} (d : DirId) (hi : s.intPhase = .idle) (hd : s.hasDir d = true) (h : updReadStep d s = .ok t) :
      Effect s .interrupt t
  | updPost {t : State} (d : DirId) (hi : s.intPhase = .idle) (hd : s.hasDir d = true) (h : postUpdateHw d s = .ok t) :
      Effect s .interrupt t
  | updRun {t : State} (d : DirId) (p : UpdPhase) (hp : s.intPhase = .upd d p) (h : updStep d p s = .ok t) :
      Effect s .interrupt t
  | topHalf {t : State} (hi : s.intPhase = .idle) (h : topHalfStep s = .ok t) : Effect s .interrupt t
  | bhBegin {t : State} (hi : s.intPhase = .idle) (h : Machine.bhBegin s = .ok t) : Effect s .interrupt t
  | bhRun {t : State} (f : BhFrame) (p : BhPhase) (hp : s.intPhase = .bh f p) (h : bhStep f p s = .ok t) :
      Effect s .interrupt t
  | svcIssue {t : State} (n : Nat) (d : DirId) (hi : s.client n = none) (hd : s.hasDir d = true)
      (h : clientStep n (serviceFrame d s.port.operands) s = .ok t) : Effect s (.client n) t
  | svcPost {t : State} (n : Nat) (d : DirId) (hi : s.client n = none) (hd : s.hasDir d = true)
      (h : t = s.setClient n (some (serviceFrame d s.port.operands))) : Effect s (.client n) t
  | svcRun {t : State} (n : Nat) (f : SvcFrame) (hp : s.client n = some f) (h : clientStep n f s = .ok t) :
      Effect s (.client n) t

/-- `AvailableNegative` is raised only where some direction's availability is negative (R126, R142). -/
def negativeOnly (s : State) (e : Trap) : Prop :=
  e.code = .availableNegative → ∃ q, (s.dir q).hwCount.toNat < (s.dir q).swCount.toNat

/-- What holds of a fault that an operation's body raises: it is none that only the issue checks raise. -/
def bodyTrap (s : State) (e : Trap) : Prop :=
  (e.code ≠ .illegalCommand ∧ e.code ≠ .invalidChannel) ∧ negativeOnly s e

/-- A step of agent `a` that answers `t`: an effect, or a fault recorded and nothing else. -/
def Stepped (s : State) (a : AgentId) (t : State) : Prop :=
  Effect s a t ∨
  ∃ op d e, t = s.raise a op d e ∧ (e.code = .illegalCommand ∨ e.code = .invalidChannel → d = none) ∧ negativeOnly s e

theorem mayIssue_lifecycle {op : Op} {a : AgentId} (hop : op ∈ [Op.start, Op.stop, Op.irqEnable, Op.irqDisable])
    (h : mayIssue op a = true) : a = .lifecycle := by
  cases a <;> simp at hop <;> rcases hop with rfl | rfl | rfl | rfl <;> simp [mayIssue, AgentId.cls] at h <;> rfl

theorem mayIssue_interrupt {op : Op} {a : AgentId} (hop : op ∈ [Op.updateHw, Op.topHalf, Op.bottomHalf])
    (h : mayIssue op a = true) : a = .interrupt := by
  cases a <;> simp at hop <;> rcases hop with rfl | rfl | rfl <;> simp [mayIssue, AgentId.cls] at h <;> rfl

theorem mayIssue_service {a : AgentId} (h : mayIssue .service a = true) : ∃ n, a = .client n := by
  cases a with
  | interrupt => cases h
  | lifecycle => cases h
  | client n => exact ⟨n, rfl⟩

/-- A fault of a body is never one that only the issue checks raise. -/
theorem mergeStatus_error {d : DirId} {st : U32} {s : State} {e : Trap} (h : mergeStatus d st s = .error e) :
    e.code = .loopStatusSlotRange ∨ e.code = .hwCountOverflow := by
  unfold mergeStatus at h
  split at h
  · cases h; exact .inl rfl
  · split at h
    · cases h
      next h2 => right; rw [merge2_error h2]
    · cases h

theorem merge2_code {h last : U64} {raw k : Nat} {e : Trap} (he : merge2 h last raw k = .error e) :
    e.code = .hwCountOverflow := by
  rw [merge2_error he]

theorem availableOf_bodyTrap {s : State} {d : DirId} {e : Trap} (h : availableOf (s.dir d) = .error e) : bodyTrap s e := by
  unfold availableOf at h
  split at h
  · next h1 => cases h; exact ⟨by simp, fun _ => ⟨d, h1⟩⟩
  · cases h

theorem svcStep_error {me : AgentId} {f : SvcFrame} {s : State} {e : Trap} (h : svcStep me f s = .error e) :
    bodyTrap s e := by
  unfold svcStep at h
  split at h
  · unfold svcEnter at h
    split at h
    · split at h <;> cases h
      simp [bodyTrap, negativeOnly]
    · cases h
  · unfold svcSnapshot at h
    split at h
    · next h2 => cases h; exact availableOf_bodyTrap h2
    · cases h
    · cases h
  · cases h
  · cases h
  · cases h

theorem clientStep_error {n : Nat} {f : SvcFrame} {s : State} {e : Trap} (h : clientStep n f s = .error e) :
    bodyTrap s e := by
  unfold clientStep at h
  split at h
  · next h2 => cases h; exact svcStep_error h2
  · cases h
  · cases h

theorem mergeStatus_bodyTrap {d : DirId} {st : U32} {s : State} {e : Trap} (h : mergeStatus d st s = .error e) :
    bodyTrap s e := by
  rcases mergeStatus_error h with h | h <;> simp [bodyTrap, negativeOnly, h]

theorem updStep_error {d : DirId} {p : UpdPhase} {s : State} {e : Trap} (h : updStep d p s = .error e) : bodyTrap s e := by
  cases p with
  | read => simp only [updStep, updReadStep] at h; split at h <;> cases h
  | merge st =>
    simp only [updStep, updMergeStep] at h
    split at h
    · next h2 => cases h; exact mergeStatus_bodyTrap h2
    · cases h

theorem bhStep_error {f : BhFrame} {p : BhPhase} {s : State} {e : Trap} (h : bhStep f p s = .error e) : bodyTrap s e := by
  cases p with
  | test => simp only [bhStep, bhTest] at h; split at h <;> cases h
  | updRead => simp only [bhStep, bhUpdRead] at h; split at h <;> cases h
  | updMerge st =>
    simp only [bhStep, bhUpdMerge] at h
    split at h
    · next h2 => cases h; exact mergeStatus_bodyTrap h2
    · cases h
  | deferCheck =>
    simp only [bhStep, bhDeferCheck] at h
    split at h
    · cases h
    · split at h <;> cases h
      simp [bodyTrap, negativeOnly]
  | svc v =>
    simp only [bhStep, bhSvc] at h
    split at h
    · next h2 => cases h; exact svcStep_error h2
    · cases h
    · cases h
  | accum => cases h
  | finish => cases h

theorem agentIdle_interrupt {s : State} : s.agentIdle .interrupt = true ↔ s.intPhase = .idle := by
  simp [State.agentIdle]

theorem agentIdle_lifecycle {s : State} : s.agentIdle .lifecycle = true ↔ s.lifePhase = .idle := by
  simp [State.agentIdle]

theorem agentIdle_client {s : State} {n : Nat} : s.agentIdle (.client n) = true ↔ s.client n = none := by
  simp [State.agentIdle]

/-- An issue whose body's effect is `E`: what it answers is a step of the port's agent. -/
theorem stepped_of_issue {op : Op} {d : Option DirId} {body : State → Except Trap State} {s t : State}
    (h : issue op d body s = .next t)
    (hok : mayIssue op s.port.agent = true → d.all s.hasDir = true → s.agentIdle s.port.agent = true → body s = .ok t →
      Effect s s.port.agent t)
    (herr : ∀ e, mayIssue op s.port.agent = true → body s = .error e → bodyTrap s e) :
    s.live ∧ Stepped s s.port.agent t := by
  unfold issue at h
  obtain ⟨hl, h⟩ := guarded_eq_next.mp h
  refine ⟨hl, ?_⟩
  by_cases hm : mayIssue op s.port.agent = true
  · rw [if_pos hm] at h
    by_cases hd : d.all s.hasDir = true
    · rw [if_pos hd] at h
      by_cases hi : s.agentIdle s.port.agent = true
      · rw [if_pos hi] at h
        rcases runStep_eq_next.mp h with h | ⟨e, h, ht⟩
        · exact .inl (hok hm hd hi h)
        · have := herr e hm h
          exact .inr ⟨_, _, e, ht, by simp [this.1], this.2⟩
      · rw [if_neg hi] at h; cases h
    · rw [if_neg hd] at h; cases h
      exact .inr ⟨_, none, _, rfl, by simp, by simp [negativeOnly]⟩
  · rw [if_neg hm] at h; cases h
    exact .inr ⟨_, d, _, rfl, by simp, by simp [negativeOnly]⟩

theorem hasDir_of_all {s : State} {d : DirId} (h : (some d).all s.hasDir = true) : s.hasDir d = true := h

theorem exec_stepped {i : Instr} {s t : State} (h : exec i s = .next t) : s.live ∧ Stepped s s.port.agent t := by
  cases i with
  | start c dir =>
    refine stepped_of_issue h (fun hm hd hi hb => ?_) (fun e _ he => ?_)
    · have ha := mayIssue_lifecycle (by simp) hm
      rw [ha] at hi ⊢
      exact .startBegin _ (agentIdle_lifecycle.mp hi) hd hb
    · unfold startBegin at he
      split at he
      · cases he; simp [bodyTrap, negativeOnly]
      · split at he <;> cases he
        simp [bodyTrap, negativeOnly]
  | stop c dir =>
    refine stepped_of_issue h (fun hm hd hi hb => ?_) (fun e _ he => ?_)
    · have ha := mayIssue_lifecycle (by simp) hm
      rw [ha] at hi ⊢
      exact .stopBegin _ (agentIdle_lifecycle.mp hi) hd hb
    · unfold stopBegin at he
      split at he <;> cases he
      simp [bodyTrap, negativeOnly]
  | merge =>
    refine stepped_of_issue h (fun hm hd hi hb => .merge hb) (fun e _ he => ?_)
    unfold mergeStep at he
    split at he
    · next h2 =>
      cases he
      unfold mergeOperands at h2
      split at h2
      · cases h2; simp [bodyTrap, negativeOnly]
      · split at h2 <;> cases h2
        simp [bodyTrap, negativeOnly]
    · split at he
      · next h2 => cases he; simp [bodyTrap, negativeOnly, merge2_code h2]
      · cases he
  | updateHw c dir =>
    refine stepped_of_issue h (fun hm hd hi hb => ?_) (fun e _ he => ?_)
    · have ha := mayIssue_interrupt (by simp) hm
      rw [ha] at hi ⊢
      exact .updIssue _ (agentIdle_interrupt.mp hi) hd hb
    · unfold updReadStep at he
      split at he <;> cases he
  | available c dir =>
    refine stepped_of_issue h (fun hm hd hi hb => .available _ hd hb) (fun e _ he => ?_)
    unfold availableStep at he
    split at he
    · next h2 => cases he; exact availableOf_bodyTrap h2
    · cases he
  | service c dir =>
    refine stepped_of_issue h (fun hm hd hi hb => ?_) (fun e hm he => ?_)
    · obtain ⟨n, ha⟩ := mayIssue_service hm
      rw [ha] at hi ⊢
      simp only [serviceStep, ha] at hb
      exact .svcIssue n _ (agentIdle_client.mp hi) hd hb
    · obtain ⟨n, ha⟩ := mayIssue_service hm
      simp only [serviceStep, ha] at he
      exact clientStep_error he
  | topHalf =>
    refine stepped_of_issue h (fun hm hd hi hb => ?_) (fun e _ he => by cases he)
    have ha := mayIssue_interrupt (by simp) hm
    rw [ha] at hi ⊢
    exact .topHalf (agentIdle_interrupt.mp hi) hb
  | bottomHalf =>
    refine stepped_of_issue h (fun hm hd hi hb => ?_) (fun e _ he => by cases he)
    have ha := mayIssue_interrupt (by simp) hm
    rw [ha] at hi ⊢
    exact .bhBegin (agentIdle_interrupt.mp hi) hb
  | irqEnable n =>
    refine stepped_of_issue h (fun hm hd hi hb => ?_) (fun e _ he => by cases he)
    have ha := mayIssue_lifecycle (by simp) hm
    rw [ha] at hi ⊢
    exact .irqEnable n (agentIdle_lifecycle.mp hi) hb
  | irqDisable n =>
    refine stepped_of_issue h (fun hm hd hi hb => ?_) (fun e _ he => by cases he)
    have ha := mayIssue_lifecycle (by simp) hm
    rw [ha] at hi ⊢
    exact .irqDisable n (agentIdle_lifecycle.mp hi) hb

theorem agentStep_stepped {a : AgentId} {s t : State} (h : agentStep a s = .next t) : s.live ∧ Stepped s a t := by
  unfold agentStep at h
  obtain ⟨hl, h⟩ := guarded_eq_next.mp h
  refine ⟨hl, ?_⟩
  cases a with
  | interrupt =>
    simp only at h
    split at h
    · cases h
    · next d p hp =>
      rcases runStep_eq_next.mp h with h | ⟨e, h, ht⟩
      · exact .inl (.updRun d p hp h)
      · exact .inr ⟨_, _, e, ht, by simp [(updStep_error h).1], (updStep_error h).2⟩
    · next f p hp =>
      rcases runStep_eq_next.mp h with h | ⟨e, h, ht⟩
      · exact .inl (.bhRun f p hp h)
      · exact .inr ⟨_, _, e, ht, by simp [(bhStep_error h).1], (bhStep_error h).2⟩
  | lifecycle =>
    simp only at h
    split at h
    · cases h
    · next d hp =>
      rcases runStep_eq_next.mp h with h | ⟨e, h, ht⟩
      · exact .inl (.startEnd d hp h)
      · cases h
    · next d hp =>
      rcases runStep_eq_next.mp h with h | ⟨e, h, ht⟩
      · exact .inl (.stopEnd d hp h)
      · cases h
  | client n =>
    simp only at h
    split at h
    · cases h
    · next f hp =>
      rcases runStep_eq_next.mp h with h | ⟨e, h, ht⟩
      · exact .inl (.svcRun n f hp h)
      · exact .inr ⟨_, _, e, ht, by simp [(clientStep_error h).1], (clientStep_error h).2⟩

theorem illegalCommand_stepped {s t : State} (h : illegalCommand s = .next t) : s.live ∧ Stepped s s.port.agent t := by
  unfold illegalCommand at h
  obtain ⟨hl, h⟩ := guarded_eq_next.mp h
  refine ⟨hl, .inr ?_⟩
  cases h
  exact ⟨_, none, _, rfl, fun _ => rfl, by simp [negativeOnly]⟩

theorem issueWord_stepped {s t : State} (h : issueWord s = .next t) : s.live ∧ Stepped s s.port.agent t := by
  unfold issueWord at h
  split at h
  · exact exec_stepped h
  · exact illegalCommand_stepped h

theorem postWord_stepped {s t : State} (h : postWord s = .next t) : s.live ∧ Stepped s s.port.agent t := by
  unfold postWord at h
  split at h
  · refine stepped_of_issue h (fun hm hd hi hb => ?_) (fun e _ he => by cases he)
    have ha := mayIssue_interrupt (by simp) hm
    rw [ha] at hi ⊢
    exact .updPost _ (agentIdle_interrupt.mp hi) hd hb
  · refine stepped_of_issue h (fun hm hd hi hb => ?_) (fun e hm he => ?_)
    · obtain ⟨n, ha⟩ := mayIssue_service hm
      rw [ha] at hi ⊢
      simp only [postService, ha] at hb
      cases hb
      exact .svcPost n _ (agentIdle_client.mp hi) hd rfl
    · obtain ⟨n, ha⟩ := mayIssue_service hm
      simp only [postService, ha] at he
      cases he
  · exact exec_stepped h
  · exact illegalCommand_stepped h

/-- The state in which the stepping agent takes its step: only the environment's side has moved on. -/
def sameBlock (s s0 : State) : Prop :=
  s0 = { s with inputs := s0.inputs, port := s0.port, freeCount := s0.freeCount }

theorem released_eq_next {x : Answer} {t : State} : released x = .next t ↔ ∃ u, x = .next u ∧ t = u.release := by
  cases x <;> simp [released, eq_comm]

/-- An agent that the free value picks is not Idle. -/
theorem pick_not_idle {s : State} {a : AgentId} (h : s.pick = some a) : s.agentIdle a = false := by
  have hm := List.mem_of_getElem? h
  unfold State.candidates at hm
  simp only [List.mem_append, List.mem_map] at hm
  rcases hm with (hm | hm) | ⟨p, hp, he⟩
  · split at hm <;> simp_all [State.agentIdle]
  · split at hm <;> simp_all [State.agentIdle]
  · subst he
    have h' : s.agentIdle (.client p.1) ≠ true := fun hi => absurd (agentIdle_client.mp hi) (clientGet_ne_none hp)
    simpa using h'

/-- Once a step answers a next state, it is a step of the agent it belongs to; an issue then clears the port. -/
theorem step_stepped {s t : State} (h : step s = .next t) :
    ∃ s0 a u, sameBlock s s0 ∧ s.stepper = some a ∧ s.live ∧ Stepped s0 a u ∧ t = { u with port := t.port } := by
  unfold step at h
  split at h
  · next x rest hx =>
    cases x with
    | issue c =>
      obtain ⟨u, hu, rfl⟩ := released_eq_next.mp h
      obtain ⟨hl, hs⟩ := issueWord_stepped hu
      refine ⟨_, _, u, ?_, ?_, hl, hs, rfl⟩
      · rfl
      · simp [State.stepper, hx]
    | post c =>
      obtain ⟨u, hu, rfl⟩ := released_eq_next.mp h
      obtain ⟨hl, hs⟩ := postWord_stepped hu
      refine ⟨_, _, u, ?_, ?_, hl, hs, rfl⟩
      · rfl
      · simp [State.stepper, hx]
    | run a =>
      obtain ⟨hl, hs⟩ := agentStep_stepped h
      refine ⟨_, _, t, ?_, ?_, hl, hs, rfl⟩
      · rfl
      · simp [State.stepper, hx]
  · next hx =>
    unfold drain at h
    obtain ⟨hl, h⟩ := guarded_eq_next.mp h
    split at h
    · next a ha =>
      obtain ⟨-, hs⟩ := agentStep_stepped h
      refine ⟨_, a, t, ?_, ?_, hl, hs, rfl⟩
      · rfl
      · simp [State.stepper, hx, ha]
    · cases h

end Sys2Proof.Machine
end

