-- ==== Sys2Proof/Laws/Bodies.lean ====
section
/-! SUPPORT. What each step's body answers, said once: when it answers a state, and which. -/

namespace Sys2Proof.Machine

theorem startBegin_ok {d : DirId} {s t : State} (h : startBegin d s = .ok t) :
    (s.dir d).st = .stopped ∧ s.busy d = false ∧ t = (s.updDir d (·.setSt .starting)).setLife (.startEnd d) := by
  unfold startBegin at h
  split at h
  · cases h
  · next h1 =>
    split at h
    · cases h
    · next h2 => cases h; exact ⟨by simpa using h1, by simpa using h2, rfl⟩

theorem stopBegin_ok {d : DirId} {s t : State} (h : stopBegin d s = .ok t) :
    s.busy d = false ∧
    t = ((s.updDir d (fun x => { x.setSt .stopping with deferred := none })).emits
      (cancelEvents (s.dir d).deferred)).setLife (.stopEnd d) := by
  unfold stopBegin at h
  split at h
  · cases h
  · next h1 => cases h; exact ⟨by simpa using h1, rfl⟩

theorem mergeStep_ok {s t : State} (h : mergeStep s = .ok t) : ∃ m, t = s.deliver s.port.agent (.merged m) := by
  unfold mergeStep at h
  split at h
  · cases h
  · split at h
    · cases h
    · cases h; exact ⟨_, rfl⟩

theorem availableOf_ok {x : DirState} {a : Nat} :
    availableOf x = .ok a ↔ x.swCount.toNat ≤ x.hwCount.toNat ∧ a = x.hwCount.toNat - x.swCount.toNat := by
  unfold availableOf
  split
  · constructor
    · intro h; cases h
    · rintro ⟨h, -⟩; omega
  · next h =>
    constructor
    · intro h'; cases h'; exact ⟨by omega, rfl⟩
    · rintro ⟨-, rfl⟩; rfl

theorem availableOf_error {x : DirState} {e : Trap} :
    availableOf x = .error e ↔ x.hwCount.toNat < x.swCount.toNat ∧ e = ⟨.availableNegative, x.swCount - x.hwCount⟩ := by
  unfold availableOf
  split
  · next h => simp [h, eq_comm]
  · next h => simp [h]

theorem availableStep_ok {d : DirId} {s t : State} (h : availableStep d s = .ok t) :
    ∃ a, t = s.deliver s.port.agent (.available a) := by
  unfold availableStep at h
  split at h
  · cases h
  · cases h; exact ⟨_, rfl⟩

/-- The locked merge of R124 gives both counters one value, none below `hw_count_last`. -/
theorem mergeStatus_ok {d : DirId} {st : U32} {s t : State} (h : mergeStatus d st s = .ok t) :
    ∃ raw m, statusRaw (s.cfg.cap d.ch) st = some raw ∧
      merge2 (s.dir d).hwCount (s.dir d).hwCountLast raw (s.cfg.k d.ch) = .ok m ∧ t = s.updDir d (·.setHw m) := by
  unfold mergeStatus at h
  split at h
  · cases h
  · next raw h1 =>
    split at h
    · cases h
    · next m h2 => cases h; exact ⟨raw, m, h1, h2, rfl⟩

theorem merge2_ge {h last m : U64} {raw k : Nat} (he : merge2 h last raw k = .ok m) (h0 : h = last) (hk : k ≤ 16)
    (hr : raw < 2 ^ (k + 16)) : last.toNat ≤ m.toNat := by
  subst h0
  have := (merge_ok_iff h m hk hr).mp he
  rw [this]; exact le_mergeNat _ _ _

/-- A loop-status word within the ring is below the epoch span (R72). -/
theorem statusRaw_lt {cap k : Nat} {st : U32} {raw : Nat} (hc : cap = 2 ^ k) (h : statusRaw cap st = some raw) :
    raw < 2 ^ (k + 16) := by
  unfold statusRaw at h
  split at h
  · next hs =>
    simp only [Option.some.injEq] at h
    have he : statusEpoch st < 2 ^ 16 := by unfold statusEpoch; exact BitVec.isLt _
    have h2 : (statusEpoch st + 1) * cap ≤ 2 ^ 16 * cap := Nat.mul_le_mul_right _ he
    rw [Nat.pow_add, ← hc, Nat.mul_comm]
    rw [Nat.add_mul] at h2
    omega
  · cases h

theorem updReadStep_ok {d : DirId} {s t : State} (h : updReadStep d s = .ok t) :
    ((s.dir d).st = .running ∧
      t = (s.mmioRead (s.cfg.offLoopStatus d)).setInt (.upd d (.merge s.nextDraw))) ∨
    ((s.dir d).st ≠ .running ∧ t = (s.setInt .idle).deliver .interrupt .done) := by
  unfold updReadStep at h
  split at h
  · next h1 => cases h; exact .inl ⟨h1, rfl⟩
  · next h1 => cases h; exact .inr ⟨h1, rfl⟩

theorem updMergeStep_ok {d : DirId} {st : U32} {s t : State} (h : updMergeStep d st s = .ok t) :
    ∃ u, mergeStatus d st s = .ok u ∧ t = (u.setInt .idle).deliver .interrupt .done := by
  unfold updMergeStep at h
  split at h
  · cases h
  · next u h1 => cases h; exact ⟨u, h1, rfl⟩

theorem bhTest_ok {f : BhFrame} {s t : State} (h : bhTest f s = .ok t) :
    (maskHas f.snap s.cfg f.cur = true ∧ t = s.setInt (.bh f .updRead)) ∨
    (maskHas f.snap s.cfg f.cur = false ∧ t = s.setInt (bhAdvance s.cfg f)) := by
  unfold bhTest at h
  split at h
  · next h1 => cases h; exact .inl ⟨h1, rfl⟩
  · next h1 => cases h; exact .inr ⟨by simpa using h1, rfl⟩

theorem bhUpdRead_ok {f : BhFrame} {s t : State} (h : bhUpdRead f s = .ok t) :
    ((s.dir f.cur).st = .running ∧
      t = (s.mmioRead (s.cfg.offLoopStatus f.cur)).setInt (.bh f (.updMerge s.nextDraw))) ∨
    ((s.dir f.cur).st ≠ .running ∧ t = s.setInt (.bh f .accum)) := by
  unfold bhUpdRead at h
  split at h
  · next h1 => cases h; exact .inl ⟨h1, rfl⟩
  · next h1 => cases h; exact .inr ⟨h1, rfl⟩

theorem bhUpdMerge_ok {f : BhFrame} {st : U32} {s t : State} (h : bhUpdMerge f st s = .ok t) :
    ∃ u, mergeStatus f.cur st s = .ok u ∧ t = u.setInt (.bh f .deferCheck) := by
  unfold bhUpdMerge at h
  split at h
  · cases h
  · next u h1 => cases h; exact ⟨u, h1, rfl⟩

theorem bhDeferCheck_ok {f : BhFrame} {s t : State} (h : bhDeferCheck f s = .ok t) :
    ((s.dir f.cur).deferred = none ∧ t = s.setInt (.bh f .accum)) ∨
    (∃ r, (s.dir f.cur).deferred = some r ∧ (s.dir f.cur).claim = none ∧
      t = (s.updDir f.cur (·.setClaim (some .interrupt))).setInt (.bh f (.svc (reinvokeFrame s.cfg f.cur r)))) := by
  unfold bhDeferCheck at h
  split at h
  · next h1 => cases h; exact .inl ⟨h1, rfl⟩
  · next r h1 =>
    split at h
    · cases h
    · next h2 => cases h; exact .inr ⟨r, h1, h2, rfl⟩

theorem bhSvc_ok {f : BhFrame} {v : SvcFrame} {s t : State} (h : bhSvc f v s = .ok t) :
    (∃ u v', svcStep .interrupt v s = .ok (u, .more v') ∧ t = u.setInt (.bh f (.svc v'))) ∨
    (∃ u r, svcStep .interrupt v s = .ok (u, .finish r) ∧ t = u.setInt (.bh f .accum)) := by
  unfold bhSvc at h
  split at h
  · cases h
  · next u v' h1 => cases h; exact .inl ⟨u, v', h1, rfl⟩
  · next u r h1 => cases h; exact .inr ⟨u, r, h1, rfl⟩

theorem clientStep_ok {n : Nat} {f : SvcFrame} {s t : State} (h : clientStep n f s = .ok t) :
    (∃ u f', svcStep (.client n) f s = .ok (u, .more f') ∧ t = u.setClient n (some f')) ∨
    (∃ u r, svcStep (.client n) f s = .ok (u, .finish r) ∧ t = (u.setClient n none).deliver (.client n) r) := by
  unfold clientStep at h
  split at h
  · cases h
  · next u v' h1 => cases h; exact .inl ⟨u, v', h1, rfl⟩
  · next u r h1 => cases h; exact .inr ⟨u, r, h1, rfl⟩

/-- A servicer step, by its phase, as the state it leaves and where its call goes on. -/
inductive SvcDid (me : AgentId) (s : State) : SvcFrame → State → SvcNext → Prop
  | inactive {f : SvcFrame} (hp : f.ph = .enter) (h : (s.dir f.d).st ≠ .running) :
      SvcDid me s f (s.emit (.complete f.req 0#64 .channelNotActive)) (.finish (.completed 0#64 .channelNotActive))
  | enter {f : SvcFrame} (hp : f.ph = .enter) (h : (s.dir f.d).st = .running) (hc : (s.dir f.d).claim = none) :
      SvcDid me s f (s.updDir f.d (·.setClaim (some me)))
        (.more { f with ph := loopPhase (s.cfg.blockSize f.d.ch) f.left })
  | dry {f : SvcFrame} (hp : f.ph = .snapshot) (h : (s.dir f.d).swCount.toNat = (s.dir f.d).hwCount.toNat) :
      SvcDid me s f s (.more { f with ph := .outcome })
  | snapshot {f : SvcFrame} (hp : f.ph = .snapshot) (h : (s.dir f.d).swCount.toNat < (s.dir f.d).hwCount.toNat) :
      SvcDid me s f
        (s.updDir f.d (countOverflow s.cfg f.d.ch ((s.dir f.d).hwCount.toNat - (s.dir f.d).swCount.toNat)))
        (.more { f with ph := .copy (slotOf s.cfg f.d.ch (s.dir f.d).swCount) })
  | copy {f : SvcFrame} (slot : U16) (hp : f.ph = .copy slot) :
      SvcDid me s f
        (s.emit (.copy f.d.dir f.d.ch slot f.req f.buf f.bytes (BitVec.ofNat 64 (s.cfg.blockSize f.d.ch))))
        (.more { f with ph := .commit })
  | commit {f : SvcFrame} (hp : f.ph = .commit) :
      SvcDid me s f (s.updDir f.d (fun x => { x with swCount := x.swCount + 1#64 }))
        (.more { f with
          left := f.left - BitVec.ofNat 64 (s.cfg.blockSize f.d.ch),
          bytes := f.bytes + BitVec.ofNat 64 (s.cfg.blockSize f.d.ch),
          ph := loopPhase (s.cfg.blockSize f.d.ch) (f.left - BitVec.ofNat 64 (s.cfg.blockSize f.d.ch)) })
  | outcome {f : SvcFrame} (hp : f.ph = .outcome) :
      SvcDid me s f
        ((s.updDir f.d (fun x => { x.setClaim none with deferred := outcomeDeferred f })).emits
          (displaceEvents f.req (s.dir f.d).deferred ++ [outcomeEvent f]))
        (.finish (outcomeResult f))

theorem svcStep_ok {me : AgentId} {f : SvcFrame} {s t : State} {x : SvcNext} (h : svcStep me f s = .ok (t, x)) :
    SvcDid me s f t x := by
  unfold svcStep at h
  split at h
  · next hp =>
    unfold svcEnter at h
    split at h
    · next hr =>
      split at h
      · cases h
      · next hc => cases h; exact .enter hp hr hc
    · next hr => cases h; exact .inactive hp hr
  · next hp =>
    unfold svcSnapshot at h
    split at h
    · cases h
    · next ha =>
      obtain ⟨h1, h2⟩ := availableOf_ok.mp ha
      cases h; exact .dry hp (by omega)
    · next a hne ha =>
      obtain ⟨h1, h2⟩ := availableOf_ok.mp ha
      cases h
      have h3 : a ≠ 0 := fun h0 => hne (h0 ▸ rfl)
      subst h2
      exact .snapshot hp (by omega)
  · next slot hp => cases h; exact .copy slot hp
  · next hp => cases h; exact .commit hp
  · next hp => cases h; exact .outcome hp

end Sys2Proof.Machine
end

