-- ==== Sys2Proof/Laws/Inv.lean ====
section
/-! SUPPORT. The block's invariant as propositions, part by part, and when a frame's part survives another step. -/

namespace Sys2Proof.Machine

theorem mem_allDirs {g : Cfg} {d : DirId} : d ∈ allDirs g ↔ d.ch < g.nCh := by
  obtain ⟨c, dir⟩ := d
  simp only [allDirs, List.mem_flatMap, List.mem_range, List.mem_cons, List.not_mem_nil, or_false, DirId.mk.injEq]
  constructor
  · rintro ⟨a, ha, ⟨rfl, -⟩ | ⟨rfl, -⟩⟩ <;> exact ha
  · intro h
    exact ⟨c, h, by cases dir <;> simp⟩

theorem hasDir_iff {s : State} {d : DirId} : s.hasDir d = true ↔ d.ch < s.cfg.nCh := by
  simp [State.hasDir]

/-- `dirInv`, part by part. -/
structure DirFacts (s : State) (d : DirId) : Prop where
  last : (s.dir d).hwCount = (s.dir d).hwCountLast
  le : (s.dir d).swCount.toNat ≤ (s.dir d).hwCount.toNat
  deferred : (s.dir d).deferred ≠ none → (s.dir d).st = .running
  claimed : (s.dir d).claim ≠ none → (s.dir d).st = .running
  inert : (s.dir d).st = .stopped ∨ (s.dir d).st = .starting → (s.dir d).hwCount = 0#64 ∧ (s.dir d).swCount = 0#64
  starting : (s.dir d).st = .starting ↔ s.lifePhase = .startEnd d
  stopping : (s.dir d).st = .stopping ↔ s.lifePhase = .stopEnd d
  claim : claimInv s d (s.dir d).claim = true

theorem dirInv_iff {s : State} {d : DirId} : dirInv s d = true ↔ DirFacts s d := by
  have hor : ∀ {α : Type} (o : Option α) (p : Prop), (o = none ∨ p) ↔ (o ≠ none → p) := by
    intro α o p; cases o <;> simp
  simp only [dirInv, Bool.and_eq_true, Bool.or_eq_true, beq_iff_eq, decide_eq_true_eq, Option.isNone_iff_eq_none, hor]
  constructor
  · rintro ⟨⟨⟨⟨⟨⟨⟨h1, h2⟩, h3⟩, h4⟩, h5⟩, h6⟩, h7⟩, h8⟩
    refine ⟨h1, h2, h3, h4, ?_, ?_, ?_, h8⟩
    · intro hs; rcases hs with hs | hs <;> simpa [hs] using h5
    · rw [Bool.eq_iff_iff] at h6; simpa using h6
    · rw [Bool.eq_iff_iff] at h7; simpa using h7
  · intro h
    refine ⟨⟨⟨⟨⟨⟨⟨h.last, h.le⟩, h.deferred⟩, h.claimed⟩, ?_⟩, ?_⟩, ?_⟩, h.claim⟩
    · cases hs : (s.dir d).st <;> simp
      · exact h.inert (.inl hs)
      · exact h.inert (.inr hs)
    · rw [Bool.eq_iff_iff]; simpa using h.starting
    · rw [Bool.eq_iff_iff]; simpa using h.stopping

/-- What a frame at an iteration needs of its direction's counters. -/
def needsSlot (s : State) (f : SvcFrame) : Prop :=
  match f.ph with
  | .copy slot =>
    (s.dir f.d).swCount.toNat < (s.dir f.d).hwCount.toNat ∧ slot = slotOf s.cfg f.d.ch (s.dir f.d).swCount
  | .commit => (s.dir f.d).swCount.toNat < (s.dir f.d).hwCount.toNat
  | .enter => True
  | .snapshot => True
  | .outcome => True

/-- What a frame needs of its own lengths. -/
def needsBlock (s : State) (f : SvcFrame) : Prop :=
  match f.ph with
  | .enter => f.bytes = 0#64
  | .snapshot => s.cfg.blockSize f.d.ch ≤ f.left.toNat
  | .copy _ => s.cfg.blockSize f.d.ch ≤ f.left.toNat
  | .commit => s.cfg.blockSize f.d.ch ≤ f.left.toNat
  | .outcome => True

/-- `frameInv`, part by part. -/
structure FrameFacts (s : State) (f : SvcFrame) : Prop where
  dir : f.d.ch < s.cfg.nCh
  lens : f.bytes.toNat + f.left.toNat < 2 ^ 64
  block : needsBlock s f
  slot : needsSlot s f

theorem frameInv_iff {s : State} {f : SvcFrame} : frameInv s f = true ↔ FrameFacts s f := by
  unfold frameInv
  constructor
  · intro h
    simp only [Bool.and_eq_true, decide_eq_true_eq, hasDir_iff] at h
    obtain ⟨⟨h1, h2⟩, h3⟩ := h
    refine ⟨h1, h2, ?_, ?_⟩
    · unfold needsBlock
      cases hp : f.ph <;> simp [hp] at h3 ⊢ <;> tauto
    · unfold needsSlot
      cases hp : f.ph <;> simp [hp] at h3 ⊢ <;> tauto
  · intro h
    obtain ⟨h1, h2, h3, h4⟩ := h
    simp only [Bool.and_eq_true, decide_eq_true_eq, hasDir_iff]
    refine ⟨⟨h1, h2⟩, ?_⟩
    unfold needsBlock at h3
    unfold needsSlot at h4
    cases hp : f.ph <;> simp [hp] at h3 h4 ⊢ <;> tauto

/-- A frame's part holds on as long as the configuration and the software count of its direction stay and the hardware count
does not fall. -/
theorem FrameFacts.mono {s t : State} {f : SvcFrame} (h : FrameFacts s f) (hc : t.cfg = s.cfg)
    (hsw : (t.dir f.d).swCount = (s.dir f.d).swCount)
    (hhw : (s.dir f.d).hwCount.toNat ≤ (t.dir f.d).hwCount.toNat) : FrameFacts t f := by
  obtain ⟨h1, h2, h3, h4⟩ := h
  refine ⟨hc ▸ h1, h2, ?_, ?_⟩
  · unfold needsBlock at h3 ⊢; rw [hc]; exact h3
  · unfold needsSlot at h4 ⊢
    rw [hc, hsw]
    cases hp : f.ph <;> simp [hp] at h4 ⊢
    · exact ⟨Nat.lt_of_lt_of_le h4.1 hhw, h4.2⟩
    · exact Nat.lt_of_lt_of_le h4 hhw

/-- The invariant, part by part. -/
structure InvFacts (s : State) : Prop where
  wf : s.cfg.wf = true
  shaped : s.shaped
  dirs : ∀ d : DirId, d.ch < s.cfg.nCh → DirFacts s d
  canon : clientsWf s.clients = true
  frames : ∀ n f, s.client n = some f → FrameFacts s f
  claims : ∀ n f, s.client n = some f → f.ph ≠ .enter → (s.dir f.d).claim = some (.client n)
  int : intInv s = true
  life : lifeInv s = true

theorem inv_iff {s : State} : BlockInv s ↔ InvFacts s := by
  unfold BlockInv
  constructor
  · rintro ⟨h1, h2, h3, h4, h5, h6⟩
    simp only [clientsInv, Bool.and_eq_true, List.all_eq_true, Bool.or_eq_true, beq_iff_eq] at h4
    obtain ⟨h4, h7⟩ := h4
    refine ⟨h1, h2, fun d hd => dirInv_iff.mp (h3 d (mem_allDirs.mpr hd)), h4, ?_, ?_, h5, h6⟩
    · intro n f hf
      exact frameInv_iff.mp (h7 (n, f) ((mem_iff_clientGet h4 n f).mpr hf)).1
    · intro n f hf hp
      exact (h7 (n, f) ((mem_iff_clientGet h4 n f).mpr hf)).2.resolve_left hp
  · intro h
    refine ⟨h.wf, h.shaped, fun d hd => dirInv_iff.mpr (h.dirs d (mem_allDirs.mp hd)), ?_, h.int, h.life⟩
    simp only [clientsInv, Bool.and_eq_true, List.all_eq_true, Bool.or_eq_true, beq_iff_eq]
    refine ⟨h.canon, fun p hp => ?_⟩
    have hg : s.client p.1 = some p.2 := (mem_iff_clientGet h.canon p.1 p.2).mp hp
    refine ⟨frameInv_iff.mpr (h.frames _ _ hg), ?_⟩
    by_cases he : p.2.ph = .enter
    · exact .inl he
    · exact .inr (h.claims _ _ hg he)

/-- The invariant says nothing of the port. -/
@[simp] theorem blockInv_port (s : State) (c : Call) : BlockInv { s with port := c } ↔ BlockInv s := Iff.rfl

end Sys2Proof.Machine
end

