-- ==== Sys2Proof/Laws/Keep.lean ====
section
/-! SUPPORT. When the parts of the invariant that a step does not touch survive it. -/

namespace Sys2Proof.Machine

theorem serving_claim {s : State} {d : DirId} (hi : intInv s = true) (h : s.intPhase.serving d = true) :
    (s.dir d).claim = some .interrupt := by
  unfold IntPhase.serving at h
  unfold intInv at hi
  split at h
  · next f v hp =>
    rw [hp] at hi
    simp only [Bool.and_eq_true, reinvokeInv, beq_iff_eq] at h hi
    obtain ⟨rfl, h2⟩ := h
    exact hi.2.2.1.2
  · cases h

theorem updating_running {s : State} {d : DirId} (hi : intInv s = true) (h : s.intPhase.updating d = true) :
    (s.dir d).st = .running := by
  unfold IntPhase.updating at h
  unfold intInv at hi
  split at h
  · next f v hp => rw [hp] at hi; simp at h hi; subst h; exact hi.2.2
  · next f hp => rw [hp] at hi; simp at h hi; subst h; exact hi.2.2
  · next e v hp => rw [hp] at hi; simp at h hi; subst h; exact hi.2
  · cases h

/-- The interrupt agent's part depends on the directions it is at only. -/
theorem intInv_mono {s t : State} (hi : intInv s = true) (hc : t.cfg = s.cfg) (hp : t.intPhase = s.intPhase)
    (hm : t.pendingMask = s.pendingMask)
    (hu : ∀ d, s.intPhase.updating d = true → (t.dir d).st = (s.dir d).st)
    (hs : ∀ d, s.intPhase.serving d = true → (t.dir d).claim = (s.dir d).claim ∧
      (t.dir d).deferred = (s.dir d).deferred ∧ (t.dir d).swCount = (s.dir d).swCount ∧
      (s.dir d).hwCount.toNat ≤ (t.dir d).hwCount.toNat) : intInv t = true := by
  unfold intInv at hi ⊢
  rw [hp, hm]
  cases hph : s.intPhase with
  | idle => rfl
  | upd d p =>
    rw [hph] at hi
    cases p with
    | read => simpa [State.hasDir, hc] using hi
    | merge st =>
      simp only [Bool.and_eq_true, hasDir_iff, hc, beq_iff_eq] at hi ⊢
      exact ⟨hi.1, by rw [hu d (by simp [hph, IntPhase.updating])]; exact hi.2⟩
  | bh f p =>
    rw [hph] at hi
    simp only [Bool.and_eq_true, hasDir_iff, hc] at hi ⊢
    refine ⟨hi.1, ?_⟩
    have hi2 := hi.2
    cases p with
    | test => rfl
    | updRead => exact hi2
    | updMerge st =>
      simp only [Bool.and_eq_true, beq_iff_eq] at hi2 ⊢
      exact ⟨hi2.1, by rw [hu f.cur (by simp [hph, IntPhase.updating])]; exact hi2.2⟩
    | deferCheck =>
      simp only [Bool.and_eq_true, beq_iff_eq] at hi2 ⊢
      exact ⟨hi2.1, by rw [hu f.cur (by simp [hph, IntPhase.updating])]; exact hi2.2⟩
    | svc v =>
      simp only [Bool.and_eq_true, reinvokeInv] at hi2 ⊢
      obtain ⟨h1, ⟨⟨⟨h2, h3⟩, h4⟩, h5⟩, h6⟩ := hi2
      have hcur : v.d = f.cur := by simpa using h2
      obtain ⟨a1, a2, a3, a4⟩ := hs f.cur (by simp [hph, IntPhase.serving, hcur])
      refine ⟨h1, ⟨⟨⟨h2, h3⟩, ?_⟩, ?_⟩, ?_⟩
      · rw [frameInv_iff] at h4 ⊢
        exact h4.mono hc (by rw [hcur]; exact a3) (by rw [hcur]; exact a4)
      · rw [a1]; exact h5
      · rw [a2]; exact h6
    | accum => exact hi2
    | finish => rfl

/-- A direction's part survives when its record, the lifecycle agent's place at it and its claim's holder do. -/
theorem DirFacts.keep {s t : State} {q : DirId} (h : DirFacts s q) (hd : t.dir q = s.dir q)
    (hl1 : t.lifePhase = .startEnd q ↔ s.lifePhase = .startEnd q)
    (hl2 : t.lifePhase = .stopEnd q ↔ s.lifePhase = .stopEnd q)
    (hc : claimInv s q (s.dir q).claim = true → claimInv t q (s.dir q).claim = true) : DirFacts t q := by
  refine ⟨?_, ?_, ?_, ?_, ?_, ?_, ?_, ?_⟩ <;> rw [hd]
  · exact h.last
  · exact h.le
  · exact h.deferred
  · exact h.claimed
  · exact h.inert
  · rw [hl1]; exact h.starting
  · rw [hl2]; exact h.stopping
  · exact hc h.claim

theorem claimInv_same {s t : State} {q : DirId} {c : Option AgentId} (hp : t.intPhase = s.intPhase)
    (hcl : t.clients = s.clients) (h : claimInv s q c = true) : claimInv t q c = true := by
  cases c with
  | none => rfl
  | some a =>
    cases a with
    | interrupt => simpa [claimInv, hp] using h
    | lifecycle => exact h
    | client n => simpa [claimInv, State.client, hcl] using h

/-- A direction that is not Running has no claim and no update in progress, so it is not busy (R102). -/
theorem not_running_free {s : State} {d : DirId} (h : InvFacts s) (hd : d.ch < s.cfg.nCh) (hr : (s.dir d).st ≠ .running) :
    (s.dir d).claim = none ∧ s.intPhase.updating d = false := by
  constructor
  · by_contra hc; exact hr ((h.dirs d hd).claimed hc)
  · cases hu : s.intPhase.updating d
    · rfl
    · exact absurd (updating_running h.int hu) hr

theorem shaped_ch {s : State} {d : DirId} (h : s.shaped) (hd : d.ch < s.cfg.nCh) : d.ch < s.chans.length := by
  unfold State.shaped at h; omega

/-- What a servicer step leaves alone: everything but one direction's record and the events. -/
theorem svcDid_frame {me : AgentId} {s t : State} {f : SvcFrame} {x : SvcNext} (h : SvcDid me s f t x) :
    t.cfg = s.cfg ∧ t.chans.length = s.chans.length ∧ (∀ q, q ≠ f.d → t.dir q = s.dir q) ∧
    t.lifePhase = s.lifePhase ∧ t.intPhase = s.intPhase ∧ t.pendingMask = s.pendingMask ∧
    t.enabledMask = s.enabledMask ∧ t.bhScheduled = s.bhScheduled ∧ t.clients = s.clients ∧ t.fault = s.fault ∧
    t.results = s.results ∧ s.history <+: t.history := by
  cases h with
  | inactive hp hr => exact ⟨rfl, rfl, fun _ _ => rfl, rfl, rfl, rfl, rfl, rfl, rfl, rfl, rfl, ⟨_, rfl⟩⟩
  | enter hp hr hc =>
    exact ⟨rfl, by simp, fun q hq => by simp [hq], rfl, rfl, rfl, rfl, rfl, rfl, rfl, rfl, List.prefix_rfl⟩
  | dry hp hl => exact ⟨rfl, rfl, fun _ _ => rfl, rfl, rfl, rfl, rfl, rfl, rfl, rfl, rfl, List.prefix_rfl⟩
  | snapshot hp hl =>
    exact ⟨rfl, by simp, fun q hq => by simp [hq], rfl, rfl, rfl, rfl, rfl, rfl, rfl, rfl, List.prefix_rfl⟩
  | copy slot hp => exact ⟨rfl, rfl, fun _ _ => rfl, rfl, rfl, rfl, rfl, rfl, rfl, rfl, rfl, ⟨_, rfl⟩⟩
  | commit hp =>
    exact ⟨rfl, by simp, fun q hq => by simp [hq], rfl, rfl, rfl, rfl, rfl, rfl, rfl, rfl, List.prefix_rfl⟩
  | outcome hp =>
    exact ⟨rfl, by simp, fun q hq => by simp [hq], rfl, rfl, rfl, rfl, rfl, rfl, rfl, rfl, ⟨_, rfl⟩⟩

end Sys2Proof.Machine
end

