-- ==== Sys2Proof/Laws/PerInstr.lean ====
section
/-! SUPPORT. The per-instruction family `WordOp`: an instruction's word holds its opcode and a zero reserved field. -/

namespace Sys2Proof.Laws.WordOp

/-- The word of an instruction has the instruction's opcode in bits 31:24 and 0 in the reserved bits 14:5 (R82, R83). -/
def Statement (i : Instr) : Prop := wordOp (encode i) = i.op.code ∧ wordRsv (encode i) = 0#10

theorem packWord_op (op : Op) (ch : Nat) (dir : BitVec 1) (irq : Nat) : wordOp (packWord op ch dir irq) = op.code := by
  apply BitVec.eq_of_getLsbD_eq
  intro i hi
  simp only [wordOp, packWord, BitVec.getLsbD_extractLsb', BitVec.getLsbD_append]
  simp [hi, show ¬ (24 + i < 5) by omega, show ¬ (24 + i - 5 < 10) by omega, show ¬ (24 + i - 5 - 10 < 1) by omega,
    show ¬ (24 + i - 5 - 10 - 1 < 8) by omega, show 24 + i - 5 - 10 - 1 - 8 = i by omega]

theorem packWord_rsv (op : Op) (ch : Nat) (dir : BitVec 1) (irq : Nat) : wordRsv (packWord op ch dir irq) = 0#10 := by
  apply BitVec.eq_of_getLsbD_eq
  intro i hi
  simp only [wordRsv, packWord, BitVec.getLsbD_extractLsb', BitVec.getLsbD_append]
  simp [hi, show ¬ (5 + i < 5) by omega]

theorem start (ch : Nat) (dir : Dir) : Statement (.start ch dir) := ⟨packWord_op .start ch dir.bit 0, packWord_rsv .start ch dir.bit 0⟩
theorem stop (ch : Nat) (dir : Dir) : Statement (.stop ch dir) := ⟨packWord_op .stop ch dir.bit 0, packWord_rsv .stop ch dir.bit 0⟩
theorem merge : Statement .merge := ⟨packWord_op .merge 0 0#1 0, packWord_rsv .merge 0 0#1 0⟩
theorem updateHw (ch : Nat) (dir : Dir) : Statement (.updateHw ch dir) :=
  ⟨packWord_op .updateHw ch dir.bit 0, packWord_rsv .updateHw ch dir.bit 0⟩
theorem available (ch : Nat) (dir : Dir) : Statement (.available ch dir) :=
  ⟨packWord_op .available ch dir.bit 0, packWord_rsv .available ch dir.bit 0⟩
theorem service (ch : Nat) (dir : Dir) : Statement (.service ch dir) :=
  ⟨packWord_op .service ch dir.bit 0, packWord_rsv .service ch dir.bit 0⟩
theorem topHalf : Statement .topHalf := ⟨packWord_op .topHalf 0 0#1 0, packWord_rsv .topHalf 0 0#1 0⟩
theorem bottomHalf : Statement .bottomHalf := ⟨packWord_op .bottomHalf 0 0#1 0, packWord_rsv .bottomHalf 0 0#1 0⟩
theorem irqEnable (n : Nat) : Statement (.irqEnable n) := ⟨packWord_op .irqEnable 0 0#1 n, packWord_rsv .irqEnable 0 0#1 n⟩
theorem irqDisable (n : Nat) : Statement (.irqDisable n) := ⟨packWord_op .irqDisable 0 0#1 n, packWord_rsv .irqDisable 0 0#1 n⟩

end Sys2Proof.Laws.WordOp
end

