-- ==== Sys2Proof/Laws/Run.lean ====
section
/-! SUPPORT. Running the machine: one step at a time. -/

namespace Sys2Proof.Machine

theorem run_zero (s : State) : core.run 0 s = .next s := rfl

theorem run_succ_aux (n : Nat) (s : core.State) :
    core.run (n + 1) s = match core.step s with
      | .next t => core.run n t
      | .fault r => .fault r
      | .refused r => .refused r := by
  rw [Host.Core.run]
  cases core.step s <;> rfl

theorem run_succ (n : Nat) (s : State) :
    core.run (n + 1) s = match step s with
      | .next t => core.run n t
      | .fault r => .fault r
      | .refused r => .refused r := run_succ_aux n s

/-- A run whose first step answers a next state goes on from it. -/
theorem run_next {n : Nat} {s t : State} (h : step s = .next t) : core.run (n + 1) s = core.run n t := by
  rw [run_succ, h]

/-- A run that answers a state took a first step. -/
theorem run_succ_eq_next {n : Nat} {s u : State} (h : core.run (n + 1) s = .next u) :
    ∃ t, step s = .next t ∧ core.run n t = .next u := by
  rw [run_succ] at h
  split at h
  · next t ht => exact ⟨t, ht, h⟩
  · cases h
  · cases h

/-- Two runs, one after the other. -/
theorem run_add {n m : Nat} {s t : State} (h : core.run n s = .next t) : core.run (n + m) s = core.run m t := by
  induction n generalizing s with
  | zero => cases h; rw [Nat.zero_add]
  | succ n ih =>
    obtain ⟨u, hu, h⟩ := run_succ_eq_next h
    rw [Nat.succ_add, run_next hu, ih h]

end Sys2Proof.Machine
end

