-- ==== Sys2Proof/Laws/Words.lean ====
section
/-! SUPPORT. The masks bit by bit, the halves of the loop-status word, and a servicer frame's lengths as numbers. -/

namespace Sys2Proof.Machine

theorem bitMask_bit {n : Nat} (i : Nat) (hn : n < 32) : (bitMask n).getLsbD i = decide (i = n) := by
  unfold bitMask
  rw [BitVec.getLsbD_shiftLeft, BitVec.getLsbD_one]
  by_cases h : i = n
  · subst h; simp [hn]
  · by_cases h2 : i < 32
    · by_cases h3 : i < n
      · simp [h, h3]
      · have : i - n ≠ 0 := by omega
        simp [h, this]
    · simp [h, h2]

/-- The test of R167 is the bit of the direction's interrupt index. -/
theorem maskHas_eq {m : U32} {g : Cfg} {d : DirId} (hn : g.irq d < 32) : maskHas m g d = m.getLsbD (g.irq d) := by
  unfold maskHas dirMask
  rw [Bool.eq_iff_iff]
  constructor
  · intro h
    by_contra hx
    simp only [Bool.not_eq_true] at hx
    have : m &&& bitMask (g.irq d) = 0#32 := by
      apply BitVec.eq_of_getLsbD_eq
      intro i hi
      rw [BitVec.getLsbD_and, bitMask_bit _ hn]
      by_cases h3 : i = g.irq d
      · rw [h3, hx]; simp
      · simp [h3]
    rw [this] at h; simp at h
  · intro h
    by_contra hx
    simp only [bne_iff_ne, ne_eq, Decidable.not_not] at hx
    have : (m &&& bitMask (g.irq d)).getLsbD (g.irq d) = (0#32).getLsbD (g.irq d) := by rw [hx]
    rw [BitVec.getLsbD_and, bitMask_bit _ hn, h] at this
    simp at this

/-- A mask lies within another. -/
theorem within_iff {a b : U32} : a &&& ~~~b = 0#32 ↔ ∀ i < 32, a.getLsbD i = true → b.getLsbD i = true := by
  constructor
  · intro h i hi ha
    have : (a &&& ~~~b).getLsbD i = (0#32).getLsbD i := by rw [h]
    rw [BitVec.getLsbD_and, BitVec.getLsbD_not, ha] at this
    simpa [hi] using this
  · intro h
    apply BitVec.eq_of_getLsbD_eq
    intro i hi
    rw [BitVec.getLsbD_and, BitVec.getLsbD_not]
    cases ha : a.getLsbD i
    · simp
    · rw [h i hi ha]; simp

/-- The halves of the loop-status word as numbers (R71). -/
theorem status_halves (st : U32) : statusEpoch st = st.toNat / 2 ^ 16 ∧ statusSlot st = st.toNat % 2 ^ 16 := by
  unfold statusEpoch statusSlot
  have := st.isLt
  constructor
  · rw [BitVec.extractLsb'_toNat, Nat.shiftRight_eq_div_pow]; omega
  · rw [BitVec.extractLsb'_toNat]; simp

theorem left_sub_block {l : U64} {b : Nat} (hb : b < 2 ^ 32) (h : b ≤ l.toNat) :
    (l - BitVec.ofNat 64 b).toNat = l.toNat - b := by
  have : (BitVec.ofNat 64 b).toNat = b := by rw [BitVec.toNat_ofNat]; omega
  rw [BitVec.toNat_sub, this]; have := l.isLt; omega

theorem bytes_add_block {l m : U64} {b : Nat} (hb : b < 2 ^ 32) (h : b ≤ l.toNat) (hs : m.toNat + l.toNat < 2 ^ 64) :
    (m + BitVec.ofNat 64 b).toNat = m.toNat + b := by
  have : (BitVec.ofNat 64 b).toNat = b := by rw [BitVec.toNat_ofNat]; omega
  rw [BitVec.toNat_add, this]; omega

end Sys2Proof.Machine
end

