-- ==== Sys2Proof/Tests/Slice0.lean ====
section
/-! SUPPORT. The package's own tests: the well-formedness smoke tests, the decoding of words written out from the spec, at
most two steps for each instruction, and for each statement with hypotheses a state that meets them.

Expected values are those of spec/95_test_vectors.md (V-... and P...), or worked from the rule a test names. -/

open Sys2Proof Sys2Proof.Machine

namespace Sys2Proof.Tests

/-! ## Helpers -/

/-- The writer of channel 0. -/
def dW : DirId := ⟨0, .wr⟩

/-- A Running direction with these counts and no claim. -/
def running (hw sw : U64) : DirState := { DirState.inert with st := .running, hwCount := hw, hwCountLast := hw, swCount := sw }

/-- A block of one channel whose writer is as given. -/
def blk (x : DirState) : State := { State.reset with chans := [⟨DirState.inert, x⟩] }

/-- The command at the port. -/
def onPort (a : AgentId) (i : Instr) (s : State) (o : OperandRecord := OperandRecord.zero) : State :=
  { s with port := ⟨a, encode i, o⟩ }

/-- A SERVICE operand record: request, buffer 1, length. -/
def ask (req len : Nat) : OperandRecord := serviceRecord (BitVec.ofNat 64 req) ⟨1⟩ (BitVec.ofNat 64 len)

/-- The state after, where there is one. -/
def nextOf : Answer → Option State
  | .next t => some t
  | .fault _ => none
  | .refused _ => none

/-- The fault record a step leaves: code, operation, direction, info. -/
def faultOf (x : Answer) : Option (FaultCode × U8 × Option DirId × U64) :=
  (nextOf x).bind fun t => t.fault.map fun r => (r.code, r.op, r.d, r.info)

/-- The state after a number of steps, where there is one. -/
def after : Nat → State → Option State
  | 0, s => some s
  | n + 1, s => (nextOf (step s)).bind (after n)

/-- The channel of the common configuration with another capacity and coalescing. -/
def chanOf (cap perIrq : Nat) : ChanCfg :=
  { Cfg.exampleChan 0x100#32 0 1 with
    cap := cap, perIrq := perIrq, ringRd := Cfg.exampleRing 0x200000000 4096 cap,
    ringWr := Cfg.exampleRing 0x100000000 4096 cap }

/-- A configuration of one channel of capacity 2, every slot of which interrupts (V-L6's capacity and `K`). -/
def cfg2 : Cfg := Cfg.exampleOf [{ chanOf 2 1 with contiguous := true }]

/-- A deferred request of buffer 1. -/
def pend (req len : Nat) : Option DeferredReq := some ⟨BitVec.ofNat 64 req, ⟨1⟩, BitVec.ofNat 64 len⟩

/-- A servicer frame on the writer of channel 0. -/
def frame (left bytes : Nat) (ph : SvcPhase) : SvcFrame :=
  ⟨dW, 7#64, ⟨1⟩, BitVec.ofNat 64 left, BitVec.ofNat 64 bytes, ph⟩

/-- A bottom-half frame at the writer of channel 0 with the writer's bit in the snapshot. -/
def bhW : BhFrame := ⟨2#32, 0#32, dW⟩

/-- Client 0 in a call on the writer, which it has claimed. -/
def inCall (x : DirState) (f : SvcFrame) : State :=
  { blk { x with claim := some (.client 0) } with clients := [(0, f)] }

/-- The interrupt agent in a bottom half at the writer. -/
def inBh (x : DirState) (p : BhPhase) : State :=
  { blk x with pendingMask := 2#32, enabledMask := 2#32, intPhase := .bh bhW p }

/-! ## Well-formedness: one ill-formed term for each check, and a well-formed one at the edge -/

theorem test_wf_ch : (Instr.start 256 .rd).wf = false ∧ (Instr.stop 256 .rd).wf = false ∧
    (Instr.updateHw 256 .wr).wf = false ∧ (Instr.available 256 .wr).wf = false ∧ (Instr.service 256 .wr).wf = false ∧
    (Instr.service 255 .wr).wf = true := by decide

theorem test_wf_irq : (Instr.irqEnable 32).wf = false ∧ (Instr.irqDisable 32).wf = false ∧
    (Instr.irqEnable 31).wf = true := by decide

theorem test_cfg_wf : Cfg.example16.wf = true ∧ cfg2.wf = true := by decide

theorem test_cfg_ill_channels : (Cfg.exampleOf []).wf = false ∧
    (Cfg.exampleOf (List.replicate 257 (chanOf 1 1))).wf = false := by decide +kernel

theorem test_cfg_ill_capacity : (Cfg.exampleOf [chanOf 3 1]).wf = false ∧ (Cfg.exampleOf [chanOf 0 1]).wf = false ∧
    capLog2 65536 = some 16 ∧ capLog2 131072 = none := by decide

theorem test_cfg_ill_coalescing : (Cfg.exampleOf [chanOf 4 0]).wf = false ∧ (Cfg.exampleOf [chanOf 4 5]).wf = false ∧
    (Cfg.exampleOf [{ chanOf 4 4 with irqPhase := 4 }]).wf = false := by decide

theorem test_cfg_ill_block : (Cfg.exampleOf [{ chanOf 4 4 with blockSize := 0 }]).wf = false ∧
    (Cfg.exampleOf [{ chanOf 4 4 with blockSize := 2 ^ 24 }]).wf = false ∧
    (ChanCfg.wf 33 { chanOf 4 4 with blockSize := 2 ^ 32 }) = false := by decide

theorem test_cfg_ill_base : (Cfg.exampleOf [{ chanOf 4 4 with base := 2#32 }]).wf = false := by decide

theorem test_cfg_ill_irq : (Cfg.exampleOf [{ chanOf 4 4 with irqRd := 32 }]).wf = false ∧
    (Cfg.exampleOf [{ chanOf 4 4 with irqWr := 32 }]).wf = false := by decide

theorem test_cfg_ill_ring : (Cfg.exampleOf [{ chanOf 4 4 with ringRd := [] }]).wf = false ∧
    (Cfg.exampleOf [{ chanOf 4 4 with ringWr := [] }]).wf = false := by decide

theorem test_cfg_ill_offsets : { Cfg.example16 with offIntClear := 6#32 }.wf = false ∧
    { Cfg.example16 with offWr := { Cfg.example16.offWr with descCtrl := 1#32 } }.wf = false := by decide

theorem test_cfg_ill_positions : { Cfg.example16 with descNoirqBit := 23 }.wf = false ∧
    { Cfg.example16 with descNotlastBit := 23 }.wf = false ∧ { Cfg.example16 with descNotlastBit := 24 }.wf = false ∧
    { Cfg.example16 with descNoirqBit := 32 }.wf = false ∧ { Cfg.example16 with descNotlastBit := 32 }.wf = false := by decide

/-! ## Decoding: words written out from R82 and R83, field by field: op, ch, dir, rsv, irq -/

theorem test_decode_start : decode (0b00000001_00000000_1_0000000000_00000#32) = .ok (.start 0 .wr) ∧
    decode (0b00000001_11111111_0_0000000000_00000#32) = .ok (.start 255 .rd) := by decide
theorem test_decode_stop : decode (0b00000010_00000000_1_0000000000_00000#32) = .ok (.stop 0 .wr) := by decide
theorem test_decode_merge : decode (0b00000011_00000000_0_0000000000_00000#32) = .ok .merge := by decide
theorem test_decode_updateHw : decode (0b00000100_00000000_1_0000000000_00000#32) = .ok (.updateHw 0 .wr) := by decide
theorem test_decode_available : decode (0b00000101_00000010_1_0000000000_00000#32) = .ok (.available 2 .wr) := by decide
theorem test_decode_service : decode (0b00000110_00000001_1_0000000000_00000#32) = .ok (.service 1 .wr) ∧
    decode (0b00000110_00000000_0_0000000000_00000#32) = .ok (.service 0 .rd) := by decide
theorem test_decode_topHalf : decode (0b00000111_00000000_0_0000000000_00000#32) = .ok .topHalf := by decide
theorem test_decode_bottomHalf : decode (0b00001000_00000000_0_0000000000_00000#32) = .ok .bottomHalf := by decide
theorem test_decode_irqEnable : decode (0b00001001_00000000_0_0000000000_00001#32) = .ok (.irqEnable 1) := by decide
theorem test_decode_irqDisable : decode (0b00001010_00000000_0_0000000000_11111#32) = .ok (.irqDisable 31) := by decide

/-- V-D14 to V-D20 and V-D22. -/
theorem test_decode_illegal : decode 0x00000000#32 = .error .opcode ∧ decode 0x0B000000#32 = .error .opcode ∧
    decode 0xFF000000#32 = .error .opcode ∧ decode 0x01004000#32 = .error .reserved ∧
    decode 0x01008001#32 = .error .unusedField ∧ decode 0x03008000#32 = .error .unusedField ∧
    decode 0x09010001#32 = .error .unusedField ∧ decode 0x09000020#32 = .error .reserved ∧
    decode 0x07010000#32 = .error .unusedField := by decide

/-- No two rows of R83 match one word: two rows differ at a bit that both fix. -/
theorem test_rows_disjoint : opRows.Pairwise fun a b => (a.pat ^^^ b.pat) &&& a.mask &&& b.mask ≠ 0#32 := by decide

/-- The words that spec/opcode_table.json numbers are read as they stand, and a row longer than a word is none. -/
theorem test_decodeTableWord : decodeTableWord 32 0x06018000 = some (.service 1 .wr) ∧ decodeTableWord 32 0x0B000000 = none ∧
    decodeTableWord 64 0x06018000 = none := by decide

/-- The machine fetches and runs the word it is given, as its first instruction after reset. -/
theorem test_fetch_runs_start : (nextOf (step (State.reset.withFetchWord 32 0x01008000))).map (fun t => t.lifePhase) =
    some (.startEnd dW) := by decide +kernel

theorem test_fetch_runs_every_row : [0x01000000, 0x02000000, 0x03000000, 0x04000000, 0x05000000, 0x06000000, 0x07000000,
    0x08000000, 0x09000000, 0x0A000000].all (fun w => (nextOf (step (State.reset.withFetchWord 32 w))).isSome) = true := by
  decide +kernel

/-- The assembler's text of R89, and R90's binding of a client read to the writer. -/
theorem test_asm : asmLine (callServiceRead 0 1#64 ⟨5⟩ 12288#64) = "SERVICE 0, wr, 1, 5, 12288" ∧
    asmLine (.merge, ⟨0xFFFFA#64, 3#32, 16#32, 0#64, ⟨0⟩, 0#64⟩) = "MERGE 1048570, 3, 16" := by decide +kernel

/-! ## Steps -/

/-- V-L1: START's end step: 53 writes, slot 1's control word and address, Running with zero counters. -/
theorem test_start_end :
    (nextOf (agentStep .lifecycle { blk { DirState.inert with st := .starting } with lifePhase := .startEnd dW })).map
      (fun t => (t.history.length, t.history[3]?, (t.history.drop 6).take 3, t.dir dW)) =
    some (53, some (.regWrite 0x130#32 0x02001000#32), [.regWrite 0x130#32 0x03001000#32,
      .regWrite 0x134#32 0x1000#32, .regWrite 0x138#32 0x1#32], running 0#64 0#64) := by decide +kernel

/-- V-L2: START of a Running direction. -/
theorem test_start_running : faultOf (exec (.start 0 .wr) (onPort .lifecycle (.start 0 .wr) (blk (running 9#64 7#64)))) =
    some (.startWhileActive, 0x01#8, some dW, 2#64) := by decide +kernel

/-- V-L4: STOP's begin step cancels the deferred request. -/
theorem test_stop_begin :
    (nextOf (exec (.stop 0 .wr) (onPort .lifecycle (.stop 0 .wr)
      (blk { running 9#64 7#64 with deferred := pend 7 4096, overflow := 3#64 })))).map
      (fun t => (t.history, (t.dir dW).st, (t.dir dW).deferred, (t.dir dW).overflow)) =
    some ([.complete 7#64 0#64 .cancelled], .stopping, none, 3#64) := by decide +kernel

/-- V-L4: STOP's end step. -/
theorem test_stop_end :
    (nextOf (agentStep .lifecycle
      { blk { running 9#64 7#64 with st := .stopping, overflow := 3#64 } with lifePhase := .stopEnd dW })).map
      (fun t => (t.history, t.dir dW)) =
    some ([.regWrite 0x12C#32 0#32, .regWrite 0x128#32 1#32, .settle 0 .wr, .regWrite 0x124#32 0#32, .regWrite 0x128#32 1#32],
      { DirState.inert with overflow := 3#64 }) := by decide +kernel

/-- V-MG1 and V-MG2. -/
theorem test_merge :
    (nextOf (exec .merge (onPort (.client 4) .merge State.reset ⟨0xFFFFA#64, 3#32, 16#32, 0#64, ⟨0⟩, 0#64⟩))).map
      (fun t => t.results) = some [(.client 4, .merged 0x100003#64)] ∧
    (nextOf (exec .merge (onPort .lifecycle .merge State.reset ⟨0x10#64, 0x10#32, 16#32, 0#64, ⟨0⟩, 0#64⟩))).map
      (fun t => t.results) = some [(.lifecycle, .merged 0x10#64)] := by decide +kernel

/-- V-MG3 to V-MG6 and V-M11. -/
theorem test_merge_faults :
    [(0#64, 0#32, 12#32), (0#64, 0x100000#32, 16#32), (0#64, 0#32, 0#32), (0#64, 0#32, 131072#32),
      (0xFFFFFFFFFFFFFFF0#64, 1#32, 16#32)].map
      (fun x => (faultOf (exec .merge
        (onPort .interrupt .merge State.reset ⟨x.1, x.2.1, x.2.2, 0#64, ⟨0⟩, 0#64⟩))).map fun y => (y.1, y.2.2.2)) =
    [some (.mergeArgument, 12#64), some (.mergeArgument, 0x100000#64), some (.mergeArgument, 0#64),
      some (.mergeArgument, 131072#64), some (.hwCountOverflow, 0xFFFFFFFFFFFFFFF0#64)] := by decide +kernel

/-- V-M1 to V-M9b: last, raw, k and the result. -/
theorem test_merge_table :
    [(0x0#64, 5, 4), (5#64, 19, 4), (19#64, 19, 4), (0xFFFFA#64, 3, 4), (0x100003#64, 12, 4), (0x2FFFF0#64, 1, 4),
      (0#64, 3, 4), (0xFFFF#64, 0, 0), (0xFFFFFFF0#64, 0xFFFFFFFF, 16), (0xFFFFFFFF#64, 2, 16), (0x1FFFFA#64, 3, 4)].map
      (fun x => match merge x.1 x.2.1 x.2.2 with
        | .ok m => m.toNat
        | .error _ => 0) =
    [5, 19, 19, 0x100003, 0x10000C, 0x300001, 3, 0x10000, 0xFFFFFFFF, 0x100000002, 0x200003] := by decide +kernel

/-- V-U2: the read step holds the status, the merge step stores it in both counters. -/
theorem test_updateHw :
    ((nextOf (exec (.updateHw 0 .wr) (onPort .interrupt (.updateHw 0 .wr)
      { blk (running 0xFFFFA#64 0xFFFF8#64) with oracle := [3#32] }))).bind fun t => nextOf (agentStep .interrupt t)).map
      (fun t => (t.dir dW, t.history, t.oracle)) =
    some (running 0x100003#64 0xFFFF8#64, [.regRead 0x120#32 3#32], []) := by decide +kernel

/-- V-M10: a slot of 16 in a ring of 16. -/
theorem test_updateHw_slot_range :
    faultOf (agentStep .interrupt { blk (running 7#64 0#64) with intPhase := .upd dW (.merge 0x10#32) }) =
    some (.loopStatusSlotRange, 0x04#8, some dW, 0x10#64) := by decide +kernel

/-- V-A1 and V-A3. -/
theorem test_available : [(5#64, 3#64), (0x100003#64, 0#64)].map
      (fun x => (nextOf (exec (.available 0 .wr) (onPort (.client 0) (.available 0 .wr) (blk (running x.1 x.2))))).map
        fun t => t.results) =
    [some [(.client 0, .available 2#64)], some [(.client 0, .available 0x100003#64)]] := by decide +kernel

/-- V-A4. -/
theorem test_available_negative :
    faultOf (exec (.available 0 .wr) (onPort .lifecycle (.available 0 .wr) (blk (running 2#64 3#64)))) =
    some (.availableNegative, 0x05#8, some dW, 1#64) := by decide +kernel

/-- V-S1 and V-S6's first snapshot: a snapshot of 14 counts an overflow, and the slot is `sw_count mod CAP`. -/
theorem test_service_snapshot :
    (nextOf (agentStep (.client 0) (inCall (running 0x10011#64 0x10003#64) (frame 4096 0 .snapshot)))).map
      (fun t => ((t.dir dW).overflow, t.client 0)) =
    some (1#64, some (frame 4096 0 (.copy 3#16))) := by decide +kernel

/-- V-S8b: the displaced request's signal comes before the new one's completion. -/
theorem test_service_outcome :
    (nextOf (agentStep (.client 0) (inCall { running 2#64 1#64 with deferred := pend 1 4096 } (frame 0 4096 .outcome)))).map
      (fun t => (t.history, t.dir dW, t.results)) =
    some ([.complete 1#64 0#64 .superseded, .complete 7#64 4096#64 .success], running 2#64 1#64,
      [(.client 0, .completed 4096#64 .success)]) := by decide +kernel

/-- V-T2 and V-T4. -/
theorem test_topHalf :
    [(0#32, false, 2#32), (2#32, true, 0#32)].map
      (fun x => (nextOf (exec .topHalf (onPort .interrupt .topHalf
        { State.reset with pendingMask := x.1, bhScheduled := x.2.1, oracle := [x.2.2] }))).map
        fun t => (t.pendingMask, t.bhScheduled, t.history)) =
    [some (2#32, true, [.regRead 0x0#32 2#32, .regWrite 0x4#32 2#32, .handled true]),
      some (2#32, true, [.regRead 0x0#32 0#32, .handled false])] := by decide +kernel

/-- V-B2's snapshot at the begin step. -/
theorem test_bottomHalf_begin :
    (nextOf (exec .bottomHalf (onPort .interrupt .bottomHalf
      { State.reset with pendingMask := 3#32, enabledMask := 2#32, bhScheduled := true }))).map
      (fun t => (t.intPhase, t.bhScheduled, t.pendingMask)) =
    some (.bh ⟨2#32, 0#32, ⟨0, .rd⟩⟩ .test, false, 3#32) := by decide +kernel

/-- V-B6: the deferred check meets client 0's claim. -/
theorem test_bottomHalf_claim :
    faultOf (agentStep .interrupt (inBh { running 3#64 0#64 with deferred := pend 1 8192, claim := some (.client 0) } .deferCheck)) =
    some (.concurrentServicer, 0x08#8, none, 2#64) := by decide +kernel

/-- V-E4. -/
theorem test_irqEnable :
    (nextOf (exec (.irqEnable 31) (onPort .lifecycle (.irqEnable 31) { State.reset with enabledMask := 1#32 }))).map
      (fun t => (t.enabledMask, t.history)) =
    some (0x80000001#32, [.regWrite 0x8#32 0x80000001#32, .regWrite 0x4#32 0x80000001#32]) := by decide +kernel

/-- V-E2. -/
theorem test_irqDisable :
    (nextOf (exec (.irqDisable 1) (onPort .lifecycle (.irqDisable 1) { State.reset with enabledMask := 3#32 }))).map
      (fun t => (t.enabledMask, t.history)) =
    some (1#32, [.regWrite 0x8#32 1#32]) := by decide +kernel

/-! ## Witnesses: for each statement with hypotheses, states and operands that meet them all, clause by clause

Each `witness_<Name>` is about the statement `Obligations.<Name>`. -/

theorem next_of_isSome {x : Answer} (h : (nextOf x).isSome = true) : ∃ t, x = .next t := by
  cases x with
  | next t => exact ⟨t, rfl⟩
  | fault r => cases h
  | refused r => cases h

/-- A direction at the edge of 64 bits. -/
def edge : DirState := running 0xFFFFFFFFFFFFFFFF#64 0xFFFFFFFFFFFFFFFE#64

/-- The writer Running, client 0 in a call about to commit, its buffer half full. -/
def wCommit : State := inCall (running 5#64 2#64) (frame 4096 4096 .commit)

/-- The bottom half re-invoking the servicer for request 7. -/
def wReinvoke : State :=
  inBh { running 5#64 2#64 with deferred := pend 7 8192, claim := some .interrupt } (.svc (frame 8192 0 .snapshot))

theorem witness_DecodeOfEncodeIsTheInstruction : (Instr.start 255 .wr).wf = true ∧ (Instr.service 0 .rd).wf = true ∧
    (Instr.irqEnable 31).wf = true ∧ Instr.merge.wf = true := by decide

theorem witness_EncodeOfDecodeIsTheWord : decode 0x01FF8000#32 = .ok (.start 255 .wr) ∧
    decode 0x0900001F#32 = .ok (.irqEnable 31) ∧ decode 0x03000000#32 = .ok .merge := by decide

theorem witness_IllegalWordsRaiseIllegalCommand :
    { State.reset with inputs := [.issue ⟨.client 0, 0x0B000000#32, ask 1 0⟩] }.live ∧ decode 0x0B000000#32 = .error .opcode ∧
    decode 0x00000000#32 = .error .opcode ∧ decode 0x07010000#32 = .error .unusedField := by decide

theorem witness_StepRunsTheDecodedInstruction :
    { State.reset with inputs := [.issue ⟨.client 0, 0x06008000#32, ask 1 4096⟩] }.inputs =
      .issue ⟨.client 0, 0x06008000#32, ask 1 4096⟩ :: [] ∧ decode 0x06008000#32 = .ok (.service 0 .wr) := by decide

theorem witness_StepIsTheChosenAgentsStep :
    { wCommit with inputs := [.run (.client 0)] }.inputs = .run (.client 0) :: [] ∧
    (State.reset.live ∧ State.reset.inputs = [] ∧ step State.reset = .fault .endOfRun) ∧
    (wCommit.live ∧ wCommit.inputs = [] ∧ step wCommit ≠ .fault .endOfRun) := by
  refine ⟨rfl, ⟨by decide, rfl, ?_⟩, by decide, rfl, ?_⟩
  · unfold step drain guarded
    simp [State.reset, State.construct, State.pick, State.candidates, show Cfg.example16.wf = true by decide]
  · have hp : wCommit.pick = some (.client 0) := by
      simp [State.pick, State.candidates, wCommit, inCall, blk, State.reset, State.construct, Nat.mod_one]
    have hs : step wCommit = drain wCommit := rfl
    have hw : wCommit.cfg.wf = true := by decide
    obtain ⟨t, ht⟩ : ∃ t, agentStep (.client 0) { wCommit with freeCount := wCommit.freeCount + 1 } = .next t :=
      next_of_isSome (by decide +kernel)
    rw [hs]
    unfold drain guarded
    rw [if_pos hw]
    show (match wCommit.pick with
      | some a => agentStep a { wCommit with freeCount := wCommit.freeCount + 1 }
      | none => .fault .endOfRun) ≠ _
    rw [hp]
    intro h
    have h' := ht.symm.trans h
    cases h'

theorem witness_WrongAgentExactlyOutsideThePermissionTable :
    (onPort (.client 0) (.start 0 .wr) State.reset).live ∧
    faultOf (exec (.start 0 .wr) (onPort (.client 0) (.start 0 .wr) State.reset)) = some (.wrongAgent, 0x01#8, some dW, 2#64) ∧
    faultOf (exec (.service 255 .wr) (onPort .interrupt (.service 255 .wr) State.reset)) =
      some (.wrongAgent, 0x06#8, some ⟨255, .wr⟩, 0#64) := by decide +kernel

/-- An illegal word, a wrong agent (V-D24), a channel out of range (V-D13), an agent that is not Idle, a command that runs. -/
theorem witness_IssueChecksComeInOrder :
    ({ State.reset with port := ⟨.client 0, 0x07010000#32, ask 0 0⟩ }.live ∧ decode 0x07010000#32 = .error .unusedField) ∧
    (mayIssue .service .interrupt = false ∧ decode 0x06FF8000#32 = .ok (.service 255 .wr)) ∧
    (mayIssue .service (.client 0) = true ∧ decode 0x06018000#32 = .ok (.service 1 .wr) ∧ State.reset.cfg.nCh ≤ 1) ∧
    (mayIssue .available (.client 0) = true ∧ wCommit.agentIdle (.client 0) = false ∧ 0 < wCommit.cfg.nCh) ∧
    (mayIssue .available (.client 1) = true ∧ wCommit.agentIdle (.client 1) = true) := by decide

/-- P4's illegal word, and the state it leaves. -/
theorem witness_FaultIsTheStepsOnlyEffectAndEndsTheRun :
    { State.reset with inputs := [.issue ⟨.client 0, 0x06008001#32, ask 0 0⟩] }.fault = none ∧
    (nextOf (step { State.reset with inputs := [.issue ⟨.client 0, 0x06008001#32, ask 0 0⟩] })).map (fun t => t.fault) =
      some (some ⟨.illegalCommand, .client 0, 0x06#8, none, 0x06008001#64⟩) := by decide +kernel

theorem witness_NoStepRunsUnderAnIllFormedConfiguration :
    (State.construct (Cfg.exampleOf [chanOf 3 1])).cfg.wf = false ∧ (Cfg.exampleOf [chanOf 1 1]).wf = true ∧
    (Cfg.exampleOf [{ chanOf 4 4 with blockSize := 2 ^ 24 - 1, irqPhase := 3, irqRd := 31 }]).wf = true := by decide

theorem witness_StartBeginFollowsItsRule :
    [{ DirState.inert with st := .starting }, running 9#64 7#64, { running 9#64 7#64 with st := .stopping },
      { DirState.inert with claim := some (.client 0) }, DirState.inert].all (fun x =>
        decide ((onPort .lifecycle (.start 0 .wr) (blk x)).ready ∧ (blk x).shaped ∧ 0 < (blk x).cfg.nCh)) = true ∧
    (blk { DirState.inert with claim := some (.client 0) }).busy dW = true ∧ (blk DirState.inert).busy dW = false := by
  decide +kernel

theorem witness_StartEndWritesTheRingAndZeroesTheCounters :
    { blk { DirState.inert with st := .starting } with lifePhase := .startEnd dW }.live ∧
    { blk { DirState.inert with st := .starting } with lifePhase := .startEnd dW }.shaped := by decide

/-- The first and the last slot. -/
theorem witness_DescriptorEntriesCarryTheirOwnSlot :
    (∃ t, agentStep .lifecycle { blk { DirState.inert with st := .starting } with lifePhase := .startEnd dW } = .next t) ∧
    0 < State.reset.cfg.cap 0 ∧ 15 < State.reset.cfg.cap 0 :=
  ⟨next_of_isSome (by decide +kernel), by decide, by decide⟩

theorem witness_DescriptorControlWordHoldsSizeAndFlags : Cfg.example16.wf = true ∧ cfg2.wf = true ∧
    descCtrl Cfg.example16 0 0 = 0x02001000#32 ∧ descCtrl Cfg.example16 0 15 = 0x03001000#32 ∧
    descCtrl cfg2 0 1 = 0x00001000#32 := by decide +kernel

theorem witness_StopBeginCancelsTheDeferredRequest :
    [{ running 9#64 7#64 with claim := some (.client 0) }, { running 9#64 7#64 with deferred := pend 7 4096 },
      DirState.inert].all (fun x =>
        decide ((onPort .lifecycle (.stop 0 .wr) (blk x)).ready ∧ (blk x).shaped)) = true ∧
    (blk { running 9#64 7#64 with claim := some (.client 0) }).busy dW = true ∧
    (blk { running 9#64 7#64 with deferred := pend 7 4096 }).busy dW = false := by decide +kernel

theorem witness_StopEndDisablesAndZeroesTheCounters :
    { blk { running 9#64 7#64 with st := .stopping } with lifePhase := .stopEnd dW }.live ∧
    { blk { running 9#64 7#64 with st := .stopping } with lifePhase := .stopEnd dW }.shaped := by decide

theorem witness_StartAndStopLeaveInertCounters :
    BlockInv { State.reset with inputs := opInputs ⟨.lifecycle, encode (.start 0 .wr), ask 0 0⟩ 1 } ∧
    BlockInv { blk { running 9#64 7#64 with deferred := pend 7 4096 } with
          inputs := opInputs ⟨.lifecycle, encode (.stop 0 .wr), ask 0 0⟩ 1 } ∧
    (blk { running 9#64 7#64 with deferred := pend 7 4096 }).busy dW = false := by unfold BlockInv; decide +kernel

/-- A sample at the edges of its field, for the smallest and the largest ring. -/
theorem witness_MergeNeverLowersTheCount : merge 0xFFFF#64 0 0 = .ok 0x10000#64 ∧ 0 < 2 ^ (0 + 16) ∧
    merge 0xFFFFFFF0#64 0xFFFFFFFF 16 = .ok 0xFFFFFFFF#64 ∧ 0xFFFFFFFF < 2 ^ (16 + 16) ∧
    merge 19#64 19 4 = .ok 19#64 := by decide

theorem witness_MergeIsExactBelowOneSpan : 0xFFFFA ≤ 0x1FFFF9 ∧ 0x1FFFF9 < 0xFFFFA + 2 ^ (4 + 16) ∧
    0x1FFFF9 < 2 ^ 64 ∧ 2 ^ 64 - 1 < 2 ^ 64 - 1 + 2 ^ (0 + 16) := by decide

theorem witness_MergeLosesWholeSpansOnly : 5 ≤ 5 + 2 ^ (4 + 16) ∧ 5 < 2 ^ 64 ∧
    merge (BitVec.ofNat 64 5) ((5 + 2 ^ (4 + 16)) % 2 ^ (4 + 16)) 4 = .ok 5#64 ∧
    merge (BitVec.ofNat 64 0) (2 ^ 64 % 2 ^ (4 + 16)) 4 = .ok 0#64 := by decide

theorem witness_MergeIsIdempotent : merge 0xFFFFA#64 3 4 = .ok 0x100003#64 ∧ 3 < 2 ^ (4 + 16) := by decide

/-- The port's agent is ready, with: no legal capacity; a raw one too large; the largest raw; a result of 2^64. -/
theorem witness_MergeCommandDeliversTheMerge :
    (onPort (.client 0) .merge State.reset).ready ∧ (∀ k ≤ 16, (131072#32).toNat ≠ 2 ^ k) ∧
    ((65536#32).toNat = 2 ^ 16 ∧ (1#32).toNat = 2 ^ 0) ∧ (2 ^ (4 + 16) ≤ (0x100000#32).toNat) ∧
    ((0xFFFFF#32).toNat < 2 ^ (4 + 16)) ∧ mergeOperands ⟨0#64, 0xFFFFFFFF#32, 65536#32, 0#64, ⟨0⟩, 0#64⟩ = .ok 16 ∧
    2 ^ 64 ≤ 0xFFFFFFFFFFFFFFF0 / 2 ^ (4 + 16) * 2 ^ (4 + 16) + 1 + 2 ^ (4 + 16) := by decide +kernel

theorem witness_LoopStatusDecodesBelowTheSpan : Cfg.example16.wf = true ∧
    Cfg.example16.cap 0 ≤ (0xFFFF0010#32).toNat % 2 ^ 16 ∧ (0xFFFF000F#32).toNat % 2 ^ 16 < Cfg.example16.cap 0 := by decide

theorem witness_UpdateHwReadsTheLoopStatus :
    (onPort .interrupt (.updateHw 0 .wr) (blk (running 5#64 2#64))).ready ∧
    (onPort .interrupt (.updateHw 0 .wr) { blk (running 5#64 2#64) with oracle := [3#32] }).ready ∧
    (onPort .interrupt (.updateHw 0 .wr) (blk { DirState.inert with st := .starting })).ready := by decide

/-- A slot of 16; a merge past 2^64; a merge that stores. -/
theorem witness_UpdateHwMergesTheLoopStatus :
    [(7#64, 0x10#32), (0xFFFFFFFFFFFFFFF0#64, 1#32), (7#64, 0xFFFF000F#32)].all (fun x =>
      decide ({ blk (running x.1 0#64) with intPhase := .upd dW (.merge x.2) }.live ∧
        { blk (running x.1 0#64) with intPhase := .upd dW (.merge x.2) }.shaped)) = true ∧
    merge2 0xFFFFFFFFFFFFFFF0#64 0xFFFFFFFFFFFFFFF0#64 1 4 = .error ⟨.hwCountOverflow, 0xFFFFFFFFFFFFFFF0#64⟩ ∧
    merge2 7#64 7#64 0xFFFFF 4 = .ok 0xFFFFF#64 := by decide +kernel

theorem witness_NoUpdateOutsideRunning :
    { State.reset with intPhase := .upd dW .read }.live ∧ (State.reset.dir dW).st ≠ .running ∧
    (inBh DirState.inert .updRead).live ∧ BlockInv (inBh (running 5#64 2#64) (.updMerge 7#32)) ∧
    (inBh (running 5#64 2#64) (.updMerge 7#32)).intPhase.merging dW = true ∧
    BlockInv { blk (running 5#64 2#64) with intPhase := .upd dW (.merge 7#32) } := by unfold BlockInv; decide +kernel

theorem witness_AvailableReturnsTheDifference :
    (onPort (.client 0) (.available 0 .wr) (blk (running 3#64 3#64))).ready ∧
    (onPort .interrupt (.available 0 .wr) (blk (running 2#64 3#64))).ready ∧
    BlockInv State.reset ∧ (State.reset.dir dW).st = .stopped := by unfold BlockInv; decide +kernel

/-- V-M14's true counts, sampled from a count of 0. -/
theorem witness_UpdatesReconstructTheTrueCount :
    BlockInv { blk (running 0#64 0#64) with
          inputs := updateInputs dW 4, oracle := [0x5, 0xFFFF0, 0x100003, 0x1FFFFF].map (statusOf 16) } ∧
    [0x5, 0xFFFF0, 0x100003, 0x1FFFFF].map (statusOf 16) = [0x5#32, 0xFFFF0000#32, 0x3#32, 0xFFFF000F#32] ∧
    (0 ≤ 0x5 ∧ 0x5 < 0 + 2 ^ 20) ∧ (0x5 ≤ 0xFFFF0 ∧ 0xFFFF0 < 0x5 + 2 ^ 20) ∧
    (0xFFFF0 ≤ 0x100003 ∧ 0x100003 < 0xFFFF0 + 2 ^ 20) ∧ (0x100003 ≤ 0x1FFFFF ∧ 0x1FFFFF < 0x100003 + 2 ^ 20) ∧
    lastCount 0 [0x5, 0xFFFF0, 0x100003, 0x1FFFFF] = 0x1FFFFF := by unfold BlockInv; decide +kernel

theorem witness_TrueCounts : TrueCounts (2 ^ (Cfg.example16.k 0 + 16)) 0 [0x5, 0xFFFF0, 0x100003, 0x1FFFFF] := by
  rw [show Cfg.example16.k 0 = 4 by decide]
  simp [TrueCounts]

theorem witness_ServiceEntersOnlyARunningUnclaimedDirection :
    [DirState.inert, { running 1#64 0#64 with claim := some .interrupt }, running 1#64 0#64].all (fun x =>
      decide ((onPort (.client 0) (.service 0 .wr) (blk x) (ask 1 4096)).ready ∧
        (onPort (.client 0) (.service 0 .wr) (blk x) (ask 1 4095)).ready ∧ (blk x).shaped)) = true := by decide +kernel

/-- Negative, zero, one, and the whole range. -/
theorem witness_SnapshotCountsOverflowAndChoosesTheSlot :
    [running 2#64 3#64, running 3#64 3#64, running 4#64 3#64, running 0xFFFFFFFFFFFFFFFF#64 0#64].all (fun x =>
      decide ((inCall x (frame 4096 0 .snapshot)).live ∧ (inCall x (frame 4096 0 .snapshot)).shaped ∧
        (inCall x (frame 4096 0 .snapshot)).client 0 = some (frame 4096 0 .snapshot))) = true := by decide +kernel

theorem witness_CopyMovesOneBlock : (inCall (running 5#64 2#64) (frame 4096 0 (.copy 2#16))).live ∧
    (inCall (running 5#64 2#64) (frame 4096 0 (.copy 2#16))).client 0 = some (frame 4096 0 (.copy 2#16)) := by decide +kernel

theorem witness_CommitAdvancesTheSoftwareCount : BlockInv wCommit ∧ wCommit.fault = none ∧
    wCommit.client 0 = some (frame 4096 4096 .commit) ∧ (∃ t, agentStep (.client 0) wCommit = .next t) ∧
    BlockInv (inCall edge (frame 4096 4096 .commit)) :=
  ⟨by unfold BlockInv; decide +kernel, rfl, rfl, next_of_isSome (by decide +kernel), by unfold BlockInv; decide +kernel⟩

/-- With another request, the same request and none in the deferred slot. -/
theorem witness_OutcomeAfterProgressCompletesTheRequest :
    [pend 1 4096, pend 7 4096, none].all (fun o =>
      decide ((inCall { running 5#64 2#64 with deferred := o } (frame 0 4096 .outcome)).live ∧
        (inCall { running 5#64 2#64 with deferred := o } (frame 0 4096 .outcome)).shaped)) = true ∧
    (frame 0 4096 .outcome).bytes ≠ 0#64 := by decide +kernel

theorem witness_OutcomeWithoutProgressDefersTheRequest :
    [pend 1 4096, pend 7 4096, none].all (fun o =>
      decide ((inCall { running 2#64 2#64 with deferred := o } (frame 8192 0 .outcome)).live ∧
        (inCall { running 2#64 2#64 with deferred := o } (frame 8192 0 .outcome)).shaped)) = true ∧
    (frame 8192 0 .outcome).bytes = 0#64 := by decide +kernel

/-- A step that goes on, one that ends the call, one that faults. -/
theorem witness_ReinvocationUsesTheClientsSteps :
    wReinvoke.live ∧ (∃ t, agentStep .interrupt wReinvoke = .next t) ∧
    (∃ u, agentStep (.client 3) { wReinvoke with clients := [(3, frame 8192 0 .snapshot)] } = .next u) ∧
    (∃ t, agentStep .interrupt (inBh (running 5#64 2#64) (.svc (frame 0 4096 .outcome))) = .next t) ∧
    (∃ t, agentStep .interrupt (inBh (running 2#64 3#64) (.svc (frame 8192 0 .snapshot))) = .next t) :=
  ⟨by decide, next_of_isSome (by decide +kernel), next_of_isSome (by decide +kernel), next_of_isSome (by decide +kernel),
    next_of_isSome (by decide +kernel)⟩

/-- V-S1: three blocks of five available; V-S10: a length of 0; V-S11's shape: more asked than there is. -/
theorem witness_ServiceTransfersWholeBlocks :
    BlockInv { blk (running 5#64 0#64) with inputs := opInputs ⟨.client 0, encode (.service 0 .wr), ask 1 12288⟩ 10 } ∧
    BlockInv { blk (running 5#64 0#64) with inputs := opInputs ⟨.client 0, encode (.service 0 .wr), ask 1 0⟩ 1 } ∧
    BlockInv { blk (running 2#64 0#64) with inputs := opInputs ⟨.client 0, encode (.service 0 .wr), ask 1 20480⟩ 8 } ∧
    (blk (running 5#64 0#64)).client 0 = none ∧ 3 * min (12288 / 4096) 5 + 0 + 1 = 10 ∧ 3 * min (0 / 4096) 5 + 0 + 1 = 1 ∧
    3 * min (20480 / 4096) 2 + 1 + 1 = 8 := by unfold BlockInv; decide +kernel

theorem witness_AShortDeferredRequestIsDeferredAgain :
    (inBh { running 3#64 0#64 with deferred := pend 7 4095 } .deferCheck).live ∧
    (inBh { running 3#64 0#64 with deferred := pend 7 4095 } .deferCheck).shaped ∧
    (4095#64).toNat < (inBh { running 3#64 0#64 with deferred := pend 7 4095 } .deferCheck).cfg.blockSize 0 := by decide +kernel

theorem witness_TopHalfCapturesAndClearsTheVector :
    [0#32, 0x80000000#32].all (fun v =>
      decide ((onPort .interrupt .topHalf { State.reset with oracle := [v] }).ready ∧
        (onPort .interrupt .topHalf { State.reset with oracle := [v] }).nextDraw = v)) = true := by decide +kernel

theorem witness_BottomHalfBeginsWithTheEnabledPendingBits :
    (onPort .interrupt .bottomHalf State.reset).ready ∧
    (onPort .interrupt .bottomHalf { State.reset with pendingMask := 3#32, bhScheduled := true }).ready := by decide

/-- A bit in the snapshot and one not in it, the first direction and the last. -/
theorem witness_BottomHalfVisitsTheDirectionsInOrder :
    (inBh (running 5#64 2#64) .test).live ∧ bhW.snap.getLsbD (Cfg.example16.irq bhW.cur) = true ∧
    { inBh (running 5#64 2#64) .test with intPhase := .bh ⟨2#32, 0#32, ⟨0, .rd⟩⟩ .test }.live ∧
    (2#32).getLsbD (Cfg.example16.irq ⟨0, .rd⟩) = false ∧ (inBh (running 5#64 2#64) .accum).live ∧
    (allDirs Cfg.example16)[0]? = some ⟨0, .rd⟩ ∧ (allDirs Cfg.example16)[1]? = some dW ∧
    (allDirs Cfg.example16)[2]? = none := by decide +kernel

theorem witness_BottomHalfUpdatesLikeUpdateHw :
    (inBh (running 5#64 2#64) .updRead).live ∧
    (∃ u, agentStep .interrupt { inBh (running 5#64 2#64) (.updMerge 7#32) with intPhase := .upd dW (.merge 7#32) } = .next u) ∧
    (∃ u, agentStep .interrupt { inBh (running 5#64 2#64) (.updMerge 16#32) with intPhase := .upd dW (.merge 16#32) } = .next u) :=
  ⟨by decide, next_of_isSome (by decide +kernel), next_of_isSome (by decide +kernel)⟩

theorem witness_DeferCheckReinvokesTheServicer :
    [running 3#64 0#64, { running 3#64 0#64 with deferred := pend 1 4096, claim := some (.client 0) },
      { running 3#64 0#64 with deferred := pend 1 4096 }, { running 3#64 0#64 with deferred := pend 1 4095 }].all (fun x =>
        decide ((inBh x .deferCheck).live ∧ (inBh x .deferCheck).shaped)) = true := by decide +kernel

theorem witness_BottomHalfEndSubtractsTheClearMask :
    { State.reset with pendingMask := 0x80000003#32, intPhase := .bh ⟨3#32, 2#32, dW⟩ .finish }.live := by decide

/-- V-B1's and V-B2's masks: the bottom half of one channel with the writer's bit runs to its end in seven steps. -/
theorem witness_BottomHalfConsumesTheAssignedBits :
    BlockInv { blk (running 0#64 0#64) with
          pendingMask := 0x80000003#32, enabledMask := 0x80000002#32, oracle := [4#32],
          inputs := opInputs ⟨.interrupt, encode .bottomHalf, ask 0 0⟩ 7 } ∧
    (after 8 { blk (running 0#64 0#64) with
      pendingMask := 0x80000003#32, enabledMask := 0x80000002#32, oracle := [4#32],
      inputs := opInputs ⟨.interrupt, encode .bottomHalf, ask 0 0⟩ 7 }).map (fun t => (t.fault, t.intPhase, t.pendingMask)) =
    some (none, .idle, 0x80000001#32) := by unfold BlockInv; decide +kernel

theorem witness_BottomHalfEnds : BlockInv { blk (running 0#64 0#64) with pendingMask := 3#32, enabledMask := 2#32 } ∧
    (blk (running 0#64 0#64)).fault = none ∧ (blk (running 0#64 0#64)).intPhase = .idle := by unfold BlockInv; decide +kernel

theorem witness_IrqEnableWritesEnableAndClear : (onPort .lifecycle (.irqEnable 31) State.reset).ready ∧
    (onPort .lifecycle (.irqEnable 0) State.reset).ready := by decide

theorem witness_IrqDisableRewritesEnableOnly : (onPort .lifecycle (.irqDisable 31) State.reset).ready ∧
    (onPort .lifecycle (.irqDisable 0) State.reset).ready := by decide

theorem witness_ConstructionIsInert : 0 < Cfg.example16.nCh ∧ 0 < cfg2.nCh := by decide

theorem witness_ConstructionMeetsTheInvariant : Cfg.example16.wf = true ∧ cfg2.wf = true := by decide

theorem witness_EveryStepKeepsTheInvariant : BlockInv { wReinvoke with inputs := [.run .interrupt] } ∧
    ∃ t, step { wReinvoke with inputs := [.run .interrupt] } = .next t :=
  ⟨by unfold BlockInv; decide +kernel, next_of_isSome (by decide +kernel)⟩

/-- A commit that raises `sw_count`, and STOP's end, which zeroes. -/
theorem witness_CountersFallOnlyByZeroing :
    (BlockInv { wCommit with inputs := [.run (.client 0)] } ∧ ∃ t, step { wCommit with inputs := [.run (.client 0)] } = .next t) ∧
    BlockInv { blk { running 9#64 7#64 with st := .stopping } with lifePhase := .stopEnd dW, inputs := [.run .lifecycle] } ∧
    ∃ t, step { blk { running 9#64 7#64 with st := .stopping } with lifePhase := .stopEnd dW, inputs := [.run .lifecycle] } =
      .next t :=
  ⟨⟨by unfold BlockInv; decide +kernel, next_of_isSome (by decide +kernel)⟩, by unfold BlockInv; decide +kernel,
    next_of_isSome (by decide +kernel)⟩

/-- Construction, START, and its end. -/
theorem witness_NoRunFindsNegativeAvailability :
    ∃ t, core.run 2 { State.construct Cfg.example16 with
      inputs := opInputs ⟨.lifecycle, encode (.start 0 .wr), ask 0 0⟩ 1, oracle := [] } = .next t := by
  have h : ∀ x : Host.Outcome State Fault Refusal, (nextOf x).isSome = true → ∃ t, x = .next t := fun _ => next_of_isSome
  exact h _ (by decide +kernel)

/-- A merge, a commit and a zeroing. -/
theorem witness_OnlyMergesCommitsAndZeroingWriteTheCounters :
    (nextOf (step { inBh (running 5#64 2#64) (.updMerge 7#32) with inputs := [.run .interrupt] })).map
      (fun t => (t.dir dW).hwCount) = some 7#64 ∧
    (nextOf (step { wCommit with inputs := [.run (.client 0)] })).map (fun t => (t.dir dW).swCount) = some 3#64 ∧
    (nextOf (step { blk { running 9#64 7#64 with st := .stopping } with
      lifePhase := .stopEnd dW, inputs := [.run .lifecycle] })).map (fun t => (t.dir dW).swCount) = some 0#64 := by
  decide +kernel

theorem witness_OnlyTheLifecycleAgentMovesADirection :
    (nextOf (step { State.reset with inputs := [.issue ⟨.lifecycle, 0x01008000#32, ask 0 0⟩] })).map
      (fun t => (t.dir dW).st) = some .starting ∧ (State.reset.dir dW).st = .stopped := by decide +kernel

/-- A displacement: request 1 leaves the slot in the outcome of request 7. -/
theorem witness_ALeavingDeferredRequestCompletesOnce :
    (nextOf (step { inCall { running 2#64 2#64 with deferred := pend 1 4096 } (frame 8192 0 .outcome) with
      inputs := [.run (.client 0)] })).map (fun t => ((t.dir dW).deferred, t.history)) =
    some (pend 7 8192, [.complete 1#64 0#64 .superseded, .deferred 7#64 8192#64]) := by decide +kernel

/-- A client's next step, and an issue whose operand record (a length of 4096) the port does not keep. -/
theorem witness_HistoryOnlyGrowsAndConfigurationStays :
    (∃ t, step { wCommit with inputs := [.run (.client 0)] } = .next t) ∧ wCommit.port.operands = OperandRecord.zero ∧
    (nextOf (step { State.reset with inputs := [.issue ⟨.client 0, 0x06008000#32, ask 1 4096⟩] })).map (fun t => t.port) =
      some Call.vacant := ⟨next_of_isSome (by decide +kernel), by decide +kernel, by decide +kernel⟩

/-- A loop-status read. -/
theorem witness_RegisterAccessesAreAlignedAndReadsAreTwo :
    BlockInv { inBh (running 5#64 2#64) .updRead with inputs := [.run .interrupt], oracle := [7#32] } ∧
    (nextOf (step { inBh (running 5#64 2#64) .updRead with inputs := [.run .interrupt], oracle := [7#32] })).map
      (fun t => t.history) = some [.regRead 0x120#32 7#32] := by unfold BlockInv; decide +kernel

theorem witness_EachAgentWritesItsOwn :
    ∃ t, step { State.reset with inputs := [.issue ⟨.lifecycle, 0x09000001#32, ask 0 0⟩] } = .next t :=
  next_of_isSome (by decide +kernel)

theorem witness_AWaitingCallEntersLater :
    (onPort (.client 0) (.service 0 .wr) (blk (running 1#64 0#64)) (ask 1 4096)).ready ∧
    (∃ t, exec (.service 0 .wr) (onPort (.client 0) (.service 0 .wr) (blk (running 1#64 0#64)) (ask 1 4096)) = .next t) :=
  ⟨by decide, next_of_isSome (by decide +kernel)⟩

end Sys2Proof.Tests
end

section
/-! SUPPORT. Each well-formedness check of the configuration as the range that it tests (R7, R51, R60, R76). -/

namespace Sys2Proof

theorem aligned_iff {off : U32} : aligned off = true ↔ 4 ∣ off.toNat := by
  rw [aligned, beq_iff_eq, Nat.dvd_iff_mod_eq_zero]

theorem DirOffsets.aligned_iff {o : DirOffsets} :
    o.aligned = true ↔ ∀ off ∈ [o.loopStatus, o.dirEnable, o.tableFlush, o.loopMode, o.descCtrl, o.descAddrLo,
      o.descAddrHi], 4 ∣ off.toNat := by
  simp [DirOffsets.aligned, Sys2Proof.aligned_iff, and_assoc]

theorem Cfg.offsetsWf_iff {g : Cfg} :
    g.offsetsWf = true ↔ (∀ off ∈ [g.offIntVector, g.offIntClear, g.offIntEnable], 4 ∣ off.toNat) ∧
      ∀ o ∈ [g.offRd, g.offWr], o.aligned = true := by
  simp [Cfg.offsetsWf, aligned_iff, and_assoc]

theorem Cfg.descWf_iff {g : Cfg} :
    g.descWf = true ↔ g.descSizeBits ≤ g.descNoirqBit ∧ g.descSizeBits ≤ g.descNotlastBit ∧
      g.descNoirqBit ≠ g.descNotlastBit ∧ g.descNoirqBit ≤ 31 ∧ g.descNotlastBit ≤ 31 := by
  simp [Cfg.descWf, and_assoc]

theorem capLog2_isSome {n : Nat} : (capLog2 n).isSome = true ↔ ∃ k ≤ 16, n = 2 ^ k := by
  simp only [Option.isSome_iff_exists, capLog2_eq_some]

/-- `k[c]` is the exponent of `CAP[c]` and of nothing else (R7). -/
theorem Cfg.k_eq {g : Cfg} {c k : Nat} (hk : k ≤ 16) (h : g.cap c = 2 ^ k) : g.k c = k := by
  rw [Cfg.k, capLog2_eq_some.mpr ⟨hk, h⟩, Option.getD_some]

theorem ChanCfg.wf_iff {sizeBits : Nat} {x : ChanCfg} :
    x.wf sizeBits = true ↔ (∃ k ≤ 16, x.cap = 2 ^ k) ∧
      (1 ≤ x.blockSize ∧ x.blockSize < 2 ^ 32 ∧ x.blockSize < 2 ^ sizeBits) ∧
      (1 ≤ x.perIrq ∧ x.perIrq ≤ x.cap) ∧ x.irqPhase < x.perIrq ∧ 4 ∣ x.base.toNat ∧
      (x.irqRd < 32 ∧ x.irqWr < 32) ∧ x.ringRd.length = x.cap ∧ x.ringWr.length = x.cap := by
  simp only [ChanCfg.wf, Bool.and_eq_true, decide_eq_true_eq, beq_iff_eq, capLog2_isSome, aligned_iff, and_assoc]

theorem Cfg.chan_eq_getElem {g : Cfg} {c : Nat} (h : c < g.chans.length) : g.chan c = g.chans[c] := by
  rw [Cfg.chan, List.getElem?_eq_getElem h, Option.getD_some]

/-- A property of every channel of the list is one of every channel number. -/
theorem Cfg.forall_mem_chans {g : Cfg} {P : ChanCfg → Prop} : (∀ x ∈ g.chans, P x) ↔ ∀ c < g.nCh, P (g.chan c) := by
  rw [List.forall_mem_iff_forall_getElem]
  exact forall₂_congr fun c hc => by rw [Cfg.chan_eq_getElem hc]

theorem Cfg.wf_iff {g : Cfg} :
    g.wf = true ↔ (1 ≤ g.nCh ∧ g.nCh ≤ 256) ∧ g.descWf = true ∧ g.offsetsWf = true ∧
      ∀ c < g.nCh, (g.chan c).wf g.descSizeBits = true := by
  simp only [Cfg.wf, Bool.and_eq_true, decide_eq_true_eq, List.all_eq_true, Cfg.forall_mem_chans, and_assoc]

/-- The interrupt bits and the rings of a channel, each read through its direction. -/
theorem Cfg.forall_dir_irq_ring {g : Cfg} {c : Nat} :
    (∀ dir, g.irq ⟨c, dir⟩ ≤ 31 ∧ (g.ring ⟨c, dir⟩).length = g.cap c) ↔
      ((g.chan c).irqRd < 32 ∧ (g.chan c).irqWr < 32) ∧
        (g.chan c).ringRd.length = g.cap c ∧ (g.chan c).ringWr.length = g.cap c := by
  constructor
  · intro h
    obtain ⟨hrd, hringRd⟩ := h .rd
    obtain ⟨hwr, hringWr⟩ := h .wr
    exact ⟨⟨Nat.lt_succ_of_le hrd, Nat.lt_succ_of_le hwr⟩, hringRd, hringWr⟩
  · rintro ⟨⟨hrd, hwr⟩, hringRd, hringWr⟩ (_ | _)
    · exact ⟨Nat.le_of_lt_succ hrd, hringRd⟩
    · exact ⟨Nat.le_of_lt_succ hwr, hringWr⟩

/-- The check of channel `c` in the configuration's own terms: `CAP` and `k`, `B`, `K`, `IRQ_PHASE`, `BASE`, and the
interrupt bit and ring of each direction. -/
theorem Cfg.chan_wf_iff {g : Cfg} {c : Nat} :
    (g.chan c).wf g.descSizeBits = true ↔
      (∃ k ≤ 16, g.cap c = 2 ^ k ∧ g.k c = k) ∧
      (1 ≤ g.blockSize c ∧ g.blockSize c ≤ 2 ^ 32 - 1 ∧ g.blockSize c < 2 ^ g.descSizeBits) ∧
      (1 ≤ g.perIrq c ∧ g.perIrq c ≤ g.cap c) ∧ (g.chan c).irqPhase ≤ g.perIrq c - 1 ∧ 4 ∣ (g.chan c).base.toNat ∧
      (∀ dir, g.irq ⟨c, dir⟩ ≤ 31 ∧ (g.ring ⟨c, dir⟩).length = g.cap c) := by
  rw [ChanCfg.wf_iff, Cfg.forall_dir_irq_ring]
  have hcap : (∃ k ≤ 16, g.cap c = 2 ^ k ∧ g.k c = k) ↔ ∃ k ≤ 16, g.cap c = 2 ^ k :=
    exists_congr fun _ => and_congr_right fun hk => and_iff_left_of_imp (Cfg.k_eq hk)
  have hblock : g.blockSize c ≤ 2 ^ 32 - 1 ↔ g.blockSize c < 2 ^ 32 := by omega
  rw [hcap, hblock]
  refine and_congr_right fun _ => and_congr_right fun _ => and_congr_right fun ⟨hpos, _⟩ => and_congr_left fun _ => ?_
  exact Nat.lt_iff_le_pred hpos

end Sys2Proof
end

section
/-! SUPPORT. What every meaning and every step answers under an ill-formed configuration (R9). -/

namespace Sys2Proof.Machine

/-- An instruction's first step, once the checks at issue have passed (R88). -/
def firstStep : Instr → State → Except Trap State
  | .start ch dir => startBegin ⟨ch, dir⟩
  | .stop ch dir => stopBegin ⟨ch, dir⟩
  | .merge => mergeStep
  | .updateHw ch dir => updReadStep ⟨ch, dir⟩
  | .available ch dir => availableStep ⟨ch, dir⟩
  | .service ch dir => serviceStep ⟨ch, dir⟩
  | .topHalf => topHalfStep
  | .bottomHalf => bhBegin
  | .irqEnable n => irqEnableStep n
  | .irqDisable n => irqDisableStep n

/-- Every meaning is the checks at issue, then the instruction's first step. -/
theorem exec_eq_issue (i : Instr) (s : State) : exec i s = issue i.op i.dirId? (firstStep i) s := by
  cases i <;> rfl

theorem guarded_of_illFormed {s : State} (h : s.cfg.wf = false) (k : Answer) :
    guarded s k = .refused .illFormedConfig := by
  simp [guarded, h]

theorem issue_of_illFormed {s : State} (h : s.cfg.wf = false) (op : Op) (d : Option DirId)
    (body : State → Except Trap State) : issue op d body s = .refused .illFormedConfig := guarded_of_illFormed h _

theorem exec_of_illFormed {s : State} (h : s.cfg.wf = false) (i : Instr) : exec i s = .refused .illFormedConfig := by
  rw [exec_eq_issue, issue_of_illFormed h]

theorem agentStep_of_illFormed {s : State} (h : s.cfg.wf = false) (a : AgentId) :
    agentStep a s = .refused .illFormedConfig := guarded_of_illFormed h _

theorem illegalCommand_of_illFormed {s : State} (h : s.cfg.wf = false) :
    illegalCommand s = .refused .illFormedConfig := guarded_of_illFormed h _

theorem issueWord_of_illFormed {s : State} (h : s.cfg.wf = false) : issueWord s = .refused .illFormedConfig := by
  unfold issueWord
  split
  · exact exec_of_illFormed h _
  · exact illegalCommand_of_illFormed h

theorem postWord_of_illFormed {s : State} (h : s.cfg.wf = false) : postWord s = .refused .illFormedConfig := by
  unfold postWord
  split
  · exact issue_of_illFormed h ..
  · exact issue_of_illFormed h ..
  · exact exec_of_illFormed h _
  · exact illegalCommand_of_illFormed h

theorem takeInput_of_illFormed {s : State} (h : s.cfg.wf = false) (x : Input) :
    takeInput x s = .refused .illFormedConfig := by
  cases x with
  | issue c => rw [takeInput, issueWord_of_illFormed (s := s.latch c) h, released]
  | post c => rw [takeInput, postWord_of_illFormed (s := s.latch c) h, released]
  | run a => exact agentStep_of_illFormed h a

theorem step_of_illFormed {s : State} (h : s.cfg.wf = false) : step s = .refused .illFormedConfig := by
  unfold step
  split
  · next x rest _ => exact takeInput_of_illFormed (s := { s with inputs := rest }) h x
  · exact guarded_of_illFormed h _

/-- Settles O11: every path of a step goes through the guard of R9, and each check of `Cfg.wf` is the range it tests. -/
theorem noStepRunsUnderAnIllFormedConfiguration : Obligations.NoStepRunsUnderAnIllFormedConfiguration := by
  unfold Obligations.NoStepRunsUnderAnIllFormedConfiguration
  refine ⟨fun s h => ⟨step_of_illFormed h, exec_of_illFormed h, agentStep_of_illFormed h⟩, fun g => ?_⟩
  simp only [Cfg.wf_iff, Cfg.descWf_iff, Cfg.offsetsWf_iff, DirOffsets.aligned_iff, Cfg.chan_wf_iff, and_assoc]

end Sys2Proof.Machine
end

section
/-! SUPPORT. What an agent's step leaves to the others: the configuration, the rest of the state's records, the other
agents' phases. -/

namespace Sys2Proof.Machine

/-- What every step of agent `a` respects: it appends to the history and the results, and writes of the agents' phases and
the masks only its own (R40, R46, R160). -/
structure Confined (a : AgentId) (s t : State) : Prop where
  cfg : t.cfg = s.cfg
  chans : t.chans.length = s.chans.length
  history : s.history <+: t.history
  results : s.results <+: t.results
  port : t.port = s.port
  fault : t.fault = s.fault
  int : a ≠ .interrupt →
    t.intPhase = s.intPhase ∧ t.pendingMask = s.pendingMask ∧ t.bhScheduled = s.bhScheduled
  life : a ≠ .lifecycle → t.lifePhase = s.lifePhase ∧ t.enabledMask = s.enabledMask
  client : ∀ n, a ≠ .client n → t.client n = s.client n
  canon : clientsWf s.clients = true → clientsWf t.clients = true

namespace Confined

variable {a : AgentId} {s t u : State}

theorem refl (a : AgentId) (s : State) : Confined a s s :=
  ⟨rfl, rfl, List.prefix_rfl, List.prefix_rfl, rfl, rfl, fun _ => ⟨rfl, rfl, rfl⟩, fun _ => ⟨rfl, rfl⟩, fun _ _ => rfl, id⟩

theorem emits (h : Confined a s t) (es : List Event) : Confined a s (t.emits es) :=
  { h with history := h.history.trans ⟨es, rfl⟩ }

theorem emit (h : Confined a s t) (e : Event) : Confined a s (t.emit e) := h.emits [e]

theorem mmioWrite (h : Confined a s t) (off v : U32) : Confined a s (t.mmioWrite off v) := h.emit _

theorem deliver (h : Confined a s t) (b : AgentId) (r : Result) : Confined a s (t.deliver b r) :=
  { h with results := h.results.trans ⟨[(b, r)], rfl⟩ }

theorem updDir (h : Confined a s t) (d : DirId) (f : DirState → DirState) : Confined a s (t.updDir d f) :=
  { h with chans := (State.chans_length_updDir t d f).trans h.chans }

theorem drawn (h : Confined a s t) : Confined a s t.drawn := by
  unfold State.drawn
  split <;> exact { h with }

theorem mmioRead (h : Confined a s t) (off : U32) : Confined a s (t.mmioRead off) := h.drawn.emit _

theorem setInt (h : Confined .interrupt s t) (p : IntPhase) : Confined .interrupt s (t.setInt p) :=
  { h with int := fun hne => absurd rfl hne }

theorem setPending (h : Confined .interrupt s t) (m : U32) : Confined .interrupt s (t.setPending m) :=
  { h with int := fun hne => absurd rfl hne }

theorem setScheduled (h : Confined .interrupt s t) (b : Bool) : Confined .interrupt s (t.setScheduled b) :=
  { h with int := fun hne => absurd rfl hne }

theorem setLife (h : Confined .lifecycle s t) (p : LifePhase) : Confined .lifecycle s (t.setLife p) :=
  { h with life := fun hne => absurd rfl hne }

theorem setEnabled (h : Confined .lifecycle s t) (m : U32) : Confined .lifecycle s (t.setEnabled m) :=
  { h with life := fun hne => absurd rfl hne }

theorem setClient {n : Nat} (h : Confined (.client n) s t) (o : Option SvcFrame) :
    Confined (.client n) s (t.setClient n o) where
  cfg := by simp [h.cfg]
  chans := by simp [h.chans]
  history := by simp [h.history]
  results := by simp [h.results]
  port := by simp [h.port]
  fault := by simp [h.fault]
  int := by simpa using h.int
  life := by simpa using h.life
  client m hm := by rw [State.client_setClient_ne _ _ (by rintro rfl; exact hm rfl), h.client m hm]
  canon hc := by
    cases o with
    | none => exact clientsWf_clientDel _ n (h.canon hc)
    | some f => exact clientsWf_clientPut _ n f (h.canon hc)

theorem mergeStatus {d : DirId} {st : U32} (h : Machine.mergeStatus d st s = .ok t) : Confined a s t := by
  obtain ⟨_, m, -, -, rfl⟩ := mergeStatus_ok h
  exact (refl a s).updDir ..

theorem svcDid {me : AgentId} {f : SvcFrame} {x : SvcNext} (h : SvcDid me s f t x) : Confined a s t := by
  have r := refl a s
  cases h with
  | inactive => exact r.emit _
  | enter => exact r.updDir ..
  | dry => exact r
  | snapshot => exact r.updDir ..
  | copy => exact r.emit _
  | commit => exact r.updDir ..
  | outcome => exact (r.updDir ..).emits _

theorem clientStep {n : Nat} {f : SvcFrame} (h : Machine.clientStep n f s = .ok t) : Confined (.client n) s t := by
  obtain ⟨u, f', hu, rfl⟩ | ⟨u, r, hu, rfl⟩ := clientStep_ok h
  · exact (svcDid (svcStep_ok hu)).setClient _
  · exact ((svcDid (svcStep_ok hu)).setClient _).deliver ..

theorem updReadStep {d : DirId} (h : Machine.updReadStep d s = .ok t) : Confined .interrupt s t := by
  obtain ⟨-, rfl⟩ | ⟨-, rfl⟩ := updReadStep_ok h
  · exact ((refl _ s).mmioRead _).setInt _
  · exact ((refl _ s).setInt _).deliver ..

theorem updStep {d : DirId} {p : UpdPhase} (h : Machine.updStep d p s = .ok t) : Confined .interrupt s t := by
  cases p with
  | read => exact updReadStep h
  | merge st =>
    obtain ⟨u, hu, rfl⟩ := updMergeStep_ok h
    exact ((mergeStatus hu).setInt _).deliver ..

theorem topHalfStep (h : Machine.topHalfStep s = .ok t) : Confined .interrupt s t := by
  cases h
  have r := (refl .interrupt s).mmioRead s.cfg.offIntVector
  refine Confined.deliver (Confined.emit ?_ _) ..
  unfold topHalfCapture
  split
  · exact ((r.setPending _).mmioWrite ..).setScheduled _
  · exact r

theorem bhStep {f : BhFrame} {p : BhPhase} (h : Machine.bhStep f p s = .ok t) : Confined .interrupt s t := by
  have r := refl .interrupt s
  cases p with
  | test => obtain ⟨-, rfl⟩ | ⟨-, rfl⟩ := bhTest_ok h <;> exact r.setInt _
  | updRead =>
    obtain ⟨-, rfl⟩ | ⟨-, rfl⟩ := bhUpdRead_ok h
    · exact (r.mmioRead _).setInt _
    · exact r.setInt _
  | updMerge st =>
    obtain ⟨u, hu, rfl⟩ := bhUpdMerge_ok h
    exact (mergeStatus hu).setInt _
  | deferCheck =>
    obtain ⟨-, rfl⟩ | ⟨q, -, -, rfl⟩ := bhDeferCheck_ok h
    · exact r.setInt _
    · exact (r.updDir ..).setInt _
  | svc v =>
    obtain ⟨u, v', hu, rfl⟩ | ⟨u, x, hu, rfl⟩ := bhSvc_ok h <;> exact (svcDid (svcStep_ok hu)).setInt _
  | accum => cases h; exact r.setInt _
  | finish => cases h; exact ((r.setPending _).setInt _).deliver ..

end Confined

/-- Every effect is confined to its agent's own. -/
theorem Effect.confined {s t : State} {a : AgentId} (h : Effect s a t) : Confined a s t := by
  have r := Confined.refl a s
  cases h with
  | startBegin d hi hd h =>
    obtain ⟨-, -, rfl⟩ := startBegin_ok h
    exact (r.updDir ..).setLife _
  | startEnd d hp h => cases h; exact (((((r.emits _).updDir ..).mmioWrite ..).updDir ..).setLife _).deliver ..
  | stopBegin d hi hd h =>
    obtain ⟨-, rfl⟩ := stopBegin_ok h
    exact ((r.updDir ..).emits _).setLife _
  | stopEnd d hp h => cases h; exact (((((r.emits _).emit _).emits _).updDir ..).setLife _).deliver ..
  | irqEnable n hi h => cases h; exact (((r.setEnabled _).mmioWrite ..).mmioWrite ..).deliver ..
  | irqDisable n hi h => cases h; exact ((r.setEnabled _).mmioWrite ..).deliver ..
  | merge h => obtain ⟨m, rfl⟩ := mergeStep_ok h; exact r.deliver ..
  | available d hd h => obtain ⟨m, rfl⟩ := availableStep_ok h; exact r.deliver ..
  | updIssue d hi hd h => exact .updReadStep h
  | updPost d hi hd h => cases h; exact r.setInt _
  | updRun d p hp h => exact .updStep h
  | topHalf hi h => exact .topHalfStep h
  | bhBegin hi h => cases h; exact (r.setScheduled _).setInt _
  | bhRun f p hp h => exact .bhStep h
  | svcIssue n d hi hd h => exact .clientStep h
  | svcPost n d hi hd h => subst h; exact r.setClient _
  | svcRun n f hp h => exact .clientStep h

/-- A step, in terms of the state in which the agent took it: `s` with the environment's side moved on. -/
theorem step_effect {s t : State} (h : step s = .next t) :
    ∃ i p k a u p', s.stepper = some a ∧ s.live ∧ t = { u with port := p' } ∧
      Stepped { s with inputs := i, port := p, freeCount := k } a u := by
  obtain ⟨s0, a, u, hs0, ha, hl, hu, ht⟩ := step_stepped h
  refine ⟨s0.inputs, s0.port, s0.freeCount, a, u, t.port, ha, hl, ht, ?_⟩
  unfold sameBlock at hs0
  rwa [← hs0]

/-- A step that answers `t` is confined to its agent's own, but for the port and the fault record. -/
theorem Stepped.confined {s t : State} {a : AgentId} (h : Stepped s a t) : Confined a s { t with fault := s.fault } := by
  obtain h | ⟨op, d, e, rfl, -, -⟩ := h
  · exact { h.confined with fault := rfl }
  · exact .refl a s

theorem agentStep_port {a : AgentId} {s t : State} (h : agentStep a s = .next t) : t.port = s.port :=
  (agentStep_stepped h).2.confined.port

/-- An issue clears the port, and a further step of an agent leaves it (R37). -/
theorem step_port {s t : State} (h : step s = .next t) :
    t.port = Call.vacant ∨ t.port = s.port ∧ ∀ c rest, ¬ (s.inputs = .issue c :: rest ∨ s.inputs = .post c :: rest) := by
  unfold step at h
  split at h
  · next x rest hx =>
    cases x with
    | issue c =>
      obtain ⟨u, -, rfl⟩ := released_eq_next.mp h
      exact .inl rfl
    | post c =>
      obtain ⟨u, -, rfl⟩ := released_eq_next.mp h
      exact .inl rfl
    | run a => exact .inr ⟨agentStep_port (s := { s with inputs := rest }) h, by simp [hx]⟩
  · next hx =>
    obtain ⟨-, h⟩ := guarded_eq_next.mp h
    split at h
    · next a _ => exact .inr ⟨agentStep_port (s := { s with freeCount := s.freeCount + 1 }) h, by simp [hx]⟩
    · cases h

/-- Settles O57: every step is confined to its agent's own, and an issue clears the port. -/
theorem historyOnlyGrowsAndConfigurationStays : Obligations.HistoryOnlyGrowsAndConfigurationStays := by
  unfold Obligations.HistoryOnlyGrowsAndConfigurationStays
  intro s t h
  obtain ⟨i, p, k, a, u, p', -, -, ht, hu⟩ := step_effect h
  have hc := hu.confined
  subst ht
  refine ⟨hc.cfg, hc.chans, hc.history, hc.results, fun c rest hx => ?_, fun hz => ?_⟩
  · obtain hp | ⟨-, hp⟩ := step_port h
    · exact congrArg Call.operands hp
    · exact absurd hx (hp c rest)
  · obtain hp | ⟨hp, -⟩ := step_port h
    · exact congrArg Call.operands hp
    · exact (congrArg Call.operands hp).trans hz

end Sys2Proof.Machine
end

section
/-! SUPPORT. What a step does to the direction records and to the servicer frames, said once. -/

namespace Sys2Proof.Machine

/-- What the lifecycle agent does to a direction's record, from its own phase and to it (R102, R103, R107, R108). -/
inductive LifeMove (s : State) (d : DirId) : (DirState → DirState) → LifePhase → Prop
  | starting (hr : s.hasDir d = true) (hp : s.lifePhase = .idle) (hst : (s.dir d).st = .stopped) (hb : s.busy d = false) :
      LifeMove s d (·.setSt .starting) (.startEnd d)
  | running (hp : s.lifePhase = .startEnd d) : LifeMove s d (·.zeroed.setSt .running) .idle
  | stopping (hr : s.hasDir d = true) (hp : s.lifePhase = .idle) (hb : s.busy d = false) :
      LifeMove s d (fun x => { x.setSt .stopping with deferred := none }) (.stopEnd d)
  | stopped (hp : s.lifePhase = .stopEnd d) : LifeMove s d (·.zeroed.setSt .stopped) .idle

/-- The frame of a servicer call after a step of it, if it goes on. -/
def SvcNext.frame : SvcNext → Option SvcFrame
  | .more f => some f
  | .finish _ => none

/-- A call that has taken no step yet (R41, R141). -/
structure SvcFrame.Fresh (s : State) (f : SvcFrame) : Prop where
  dir : s.hasDir f.d = true
  ph : f.ph = .enter
  bytes : f.bytes = 0#64

/-- What a step of agent `a` does to the direction records, its own servicer frame and the lifecycle agent's phase: nothing,
a lifecycle move, a merge, the claim for a re-invocation, a servicer step, or the posting of a servicer call. -/
inductive Moved (s : State) : AgentId → State → Prop
  | kept {a : AgentId} {t : State} (hd : ∀ q, t.dir q = s.dir q) (hf : t.frameOf a = s.frameOf a)
      (hl : t.lifePhase = s.lifePhase) : Moved s a t
  | life {t : State} (d : DirId) (g : DirState → DirState) (h : LifeMove s d g t.lifePhase)
      (hd : ∀ q, t.dir q = (s.updDir d g).dir q) : Moved s .lifecycle t
  | merged {t : State} (d : DirId) (st : U32) (u : State) (hp : s.intPhase.merging d = true)
      (h : mergeStatus d st s = .ok u) (hd : ∀ q, t.dir q = u.dir q) (hf : t.frameOf .interrupt = none)
      (hl : t.lifePhase = s.lifePhase) : Moved s .interrupt t
  | reclaimed {t : State} (f : BhFrame) (r : DeferredReq) (hp : s.intPhase = .bh f .deferCheck)
      (hr : (s.dir f.cur).deferred = some r) (hc : (s.dir f.cur).claim = none)
      (hd : ∀ q, t.dir q = (s.updDir f.cur (·.setClaim (some .interrupt))).dir q)
      (hf : t.frameOf .interrupt = some (reinvokeFrame s.cfg f.cur r)) (hl : t.lifePhase = s.lifePhase) :
      Moved s .interrupt t
  | served {a : AgentId} {t : State} (f : SvcFrame) (u : State) (x : SvcNext) (ha : a ≠ .lifecycle)
      (h0 : s.frameOf a = some f ∨ s.frameOf a = none ∧ f.Fresh s) (h : SvcDid a s f u x)
      (hd : ∀ q, t.dir q = u.dir q) (hf : t.frameOf a = x.frame) (hl : t.lifePhase = s.lifePhase) : Moved s a t
  | posted {a : AgentId} {t : State} (f : SvcFrame) (h0 : s.frameOf a = none) (hf0 : f.Fresh s)
      (hd : ∀ q, t.dir q = s.dir q) (hf : t.frameOf a = some f) (hl : t.lifePhase = s.lifePhase) : Moved s a t

@[simp] theorem frameOf_client (s : State) (n : Nat) : s.frameOf (.client n) = s.client n := rfl

@[simp] theorem frameOf_lifecycle (s : State) : s.frameOf .lifecycle = none := rfl

theorem frameOf_interrupt {s : State} {v : SvcFrame} :
    s.frameOf .interrupt = some v ↔ ∃ f, s.intPhase = .bh f (.svc v) := by
  unfold State.frameOf
  cases hp : s.intPhase with
  | idle => simp
  | upd d p => simp
  | bh f p => cases p <;> simp

/-- An interrupt agent whose phase is no re-invocation has no servicer call in progress. -/
theorem frameOf_interrupt_none {s : State} (h : ∀ f v, s.intPhase ≠ .bh f (.svc v)) : s.frameOf .interrupt = none := by
  cases hf : s.frameOf .interrupt with
  | none => rfl
  | some v =>
    obtain ⟨f, hp⟩ := frameOf_interrupt.mp hf
    exact absurd hp (h f v)

theorem frameOf_congr {s t : State} (a : AgentId) (hi : t.intPhase = s.intPhase) (hc : ∀ n, t.client n = s.client n) :
    t.frameOf a = s.frameOf a := by
  cases a with
  | interrupt => unfold State.frameOf; rw [hi]
  | lifecycle => rfl
  | client n => exact hc n

/-- No agent's step changes another agent's servicer call. -/
theorem Confined.frameOf {a b : AgentId} {s t : State} (h : Confined a s t) (hb : b ≠ a) : t.frameOf b = s.frameOf b := by
  cases b with
  | interrupt => unfold State.frameOf; rw [(h.int hb.symm).1]
  | lifecycle => rfl
  | client n => exact h.client n hb.symm

theorem bhAdvance_ne_svc (g : Cfg) (f f' : BhFrame) (v : SvcFrame) : bhAdvance g f ≠ .bh f' (.svc v) := by
  unfold bhAdvance
  split <;> simp

/-- Two updates of one record are one. -/
theorem State.dir_updDir_updDir (s : State) (d q : DirId) (f g : DirState → DirState) :
    ((s.updDir d f).updDir d g).dir q = (s.updDir d fun x => g (f x)).dir q := by
  simp only [State.dir_updDir, State.chans_length_updDir]
  split <;> rfl

theorem serviceFrame_fresh {s : State} {d : DirId} (o : OperandRecord) (h : s.hasDir d = true) :
    (serviceFrame d o).Fresh s := ⟨h, rfl, rfl⟩

/-- A step of the interrupt agent that changes no record and neither begins nor ends in a re-invocation. -/
theorem Moved.of_setInt {s t : State} (hd : ∀ q, t.dir q = s.dir q) (hl : t.lifePhase = s.lifePhase)
    (hs : ∀ f v, s.intPhase ≠ .bh f (.svc v)) (ht : ∀ f v, t.intPhase ≠ .bh f (.svc v)) : Moved s .interrupt t :=
  .kept hd ((frameOf_interrupt_none ht).trans (frameOf_interrupt_none hs).symm) hl

theorem mergeStatus_lifePhase {d : DirId} {st : U32} {s u : State} (h : mergeStatus d st s = .ok u) :
    u.lifePhase = s.lifePhase := ((Confined.mergeStatus (a := .interrupt) h).life (by simp)).1

theorem svcDid_lifePhase {a : AgentId} {f : SvcFrame} {x : SvcNext} {s u : State} (h : SvcDid a s f u x) :
    u.lifePhase = s.lifePhase := ((Confined.svcDid (a := .interrupt) h).life (by simp)).1

/-- A servicer step whose agent then writes only its own phase and the results. -/
theorem Moved.svcStep {s t u : State} {a : AgentId} {f : SvcFrame} {x : SvcNext} (ha : a ≠ .lifecycle)
    (h0 : s.frameOf a = some f ∨ s.frameOf a = none ∧ f.Fresh s) (h : Machine.svcStep a f s = .ok (u, x))
    (hd : ∀ q, t.dir q = u.dir q) (hf : t.frameOf a = x.frame) (hl : t.lifePhase = u.lifePhase) : Moved s a t :=
  .served f u x ha h0 (svcStep_ok h) hd hf (hl.trans (svcDid_lifePhase (svcStep_ok h)))

theorem Moved.updReadStep {s t : State} {d : DirId} (hs : ∀ f v, s.intPhase ≠ .bh f (.svc v))
    (h : Machine.updReadStep d s = .ok t) : Moved s .interrupt t := by
  obtain ⟨-, rfl⟩ | ⟨-, rfl⟩ := updReadStep_ok h <;> exact .of_setInt (by simp) (by simp) hs (by simp)

theorem Moved.updStep {s t : State} {d : DirId} {p : UpdPhase} (hp : s.intPhase = .upd d p)
    (h : Machine.updStep d p s = .ok t) : Moved s .interrupt t := by
  cases p with
  | read => exact .updReadStep (by simp [hp]) h
  | merge st =>
    obtain ⟨u, hu, rfl⟩ := updMergeStep_ok h
    exact .merged d st u (by simp [hp, IntPhase.merging]) hu (by simp) (frameOf_interrupt_none (by simp))
      (mergeStatus_lifePhase hu : u.lifePhase = _)

theorem Moved.bhStep {s t : State} {f : BhFrame} {p : BhPhase} (hp : s.intPhase = .bh f p)
    (h : Machine.bhStep f p s = .ok t) : Moved s .interrupt t := by
  cases p with
  | test =>
    obtain ⟨-, rfl⟩ | ⟨-, rfl⟩ := bhTest_ok h
    · exact .of_setInt (by simp) rfl (by simp [hp]) (by simp)
    · exact .of_setInt (by simp) rfl (by simp [hp]) (bhAdvance_ne_svc _ _)
  | updRead =>
    obtain ⟨-, rfl⟩ | ⟨-, rfl⟩ := bhUpdRead_ok h <;> exact .of_setInt (by simp) (by simp) (by simp [hp]) (by simp)
  | updMerge st =>
    obtain ⟨u, hu, rfl⟩ := bhUpdMerge_ok h
    exact .merged f.cur st u (by simp [hp, IntPhase.merging]) hu (by simp) (frameOf_interrupt_none (by simp))
      (mergeStatus_lifePhase hu : u.lifePhase = _)
  | deferCheck =>
    obtain ⟨-, rfl⟩ | ⟨r, hr, hc, rfl⟩ := bhDeferCheck_ok h
    · exact .of_setInt (by simp) rfl (by simp [hp]) (by simp)
    · exact .reclaimed f r hp hr hc (by simp) rfl rfl
  | svc v =>
    have hv : s.frameOf .interrupt = some v := frameOf_interrupt.mpr ⟨f, hp⟩
    obtain ⟨u, v', hu, rfl⟩ | ⟨u, r, hu, rfl⟩ := bhSvc_ok h <;> exact .svcStep (by simp) (.inl hv) hu (by simp) rfl rfl
  | accum => cases h; exact .of_setInt (by simp) rfl (by simp [hp]) (bhAdvance_ne_svc _ _)
  | finish => cases h; exact .of_setInt (by simp) rfl (by simp [hp]) (by simp)

theorem Moved.clientStep {s t : State} {n : Nat} {f : SvcFrame}
    (h0 : s.client n = some f ∨ s.client n = none ∧ f.Fresh s) (h : Machine.clientStep n f s = .ok t) :
    Moved s (.client n) t := by
  obtain ⟨u, f', hu, rfl⟩ | ⟨u, r, hu, rfl⟩ := clientStep_ok h <;>
    exact .svcStep (by simp) h0 hu (by simp) (by simp [SvcNext.frame]) (by simp)

theorem topHalfStep_frame {s t : State} (h : topHalfStep s = .ok t) :
    (∀ q, t.dir q = s.dir q) ∧ t.lifePhase = s.lifePhase ∧ t.intPhase = s.intPhase := by
  cases h
  unfold topHalfCapture
  split <;> simp

/-- Every effect is one of the moves. -/
theorem Effect.moved {s t : State} {a : AgentId} (h : Effect s a t) : Moved s a t := by
  cases h with
  | startBegin d hi hd h =>
    obtain ⟨hst, hb, rfl⟩ := startBegin_ok h
    exact .life d _ (.starting hd hi hst hb) (by simp)
  | startEnd d hp h =>
    cases h
    exact .life d _ (.running hp) fun q => State.dir_updDir_updDir s d q DirState.zeroed (·.setSt .running)
  | stopBegin d hi hd h =>
    obtain ⟨hb, rfl⟩ := stopBegin_ok h
    exact .life d _ (.stopping hd hi hb) (by simp)
  | stopEnd d hp h => cases h; exact .life d _ (.stopped hp) fun q => rfl
  | irqEnable n hi h => cases h; exact .kept (by simp) rfl rfl
  | irqDisable n hi h => cases h; exact .kept (by simp) rfl rfl
  | merge h => obtain ⟨m, rfl⟩ := mergeStep_ok h; exact .kept (by simp) (frameOf_congr _ rfl fun _ => rfl) rfl
  | available d hd h =>
    obtain ⟨m, rfl⟩ := availableStep_ok h
    exact .kept (by simp) (frameOf_congr _ rfl fun _ => rfl) rfl
  | updIssue d hi hd h => exact .updReadStep (by simp [hi]) h
  | updPost d hi hd h => cases h; exact .of_setInt (by simp) rfl (by simp [hi]) (by simp)
  | updRun d p hp h => exact .updStep hp h
  | topHalf hi h =>
    obtain ⟨hd, hl, hp⟩ := topHalfStep_frame h
    exact .of_setInt hd hl (by simp [hi]) (by simp [hp, hi])
  | bhBegin hi h => cases h; exact .of_setInt (by simp) rfl (by simp [hi]) (by simp)
  | bhRun f p hp h => exact .bhStep hp h
  | svcIssue n d hi hd h => exact .clientStep (.inr ⟨hi, serviceFrame_fresh _ hd⟩) h
  | svcPost n d hi hd h =>
    subst h
    exact .posted (serviceFrame d s.port.operands) hi (serviceFrame_fresh _ hd) (by simp) (by simp) (by simp)
  | svcRun n f hp h => exact .clientStep (.inl hp) h

/-- A step that answers `t` moves the records as some effect does, or records a fault and leaves them. -/
theorem Stepped.moved {s t : State} {a : AgentId} (h : Stepped s a t) : Moved s a t := by
  obtain h | ⟨op, d, e, rfl, -, -⟩ := h
  · exact h.moved
  · exact .kept (by simp) (frameOf_congr _ rfl fun _ => rfl) rfl

/-- What a step of agent `a` does to the record of direction `d`, and when. -/
inductive DirMove (s : State) (d : DirId) : AgentId → DirState → Prop
  | same {a : AgentId} : DirMove s d a (s.dir d)
  | life (g : DirState → DirState) (p : LifePhase) (h : LifeMove s d g p) : DirMove s d .lifecycle (g (s.dir d))
  | merged (st : U32) (raw : Nat) (m : U64) (hp : s.intPhase.merging d = true)
      (hr : statusRaw (s.cfg.cap d.ch) st = some raw)
      (hm : merge2 (s.dir d).hwCount (s.dir d).hwCountLast raw (s.cfg.k d.ch) = .ok m) :
      DirMove s d .interrupt ((s.dir d).setHw m)
  | claimed {a : AgentId} (hc : (s.dir d).claim = none)
      (hr : (s.dir d).st = .running ∨ s.intPhase.updating d = true) : DirMove s d a ((s.dir d).setClaim (some a))
  | counted {a : AgentId} (f : SvcFrame) (n : U64) (hf : s.frameOf a = some f) (hd : f.d = d) (hp : f.ph = .snapshot) :
      DirMove s d a { s.dir d with overflow := n }
  | committed {a : AgentId} (f : SvcFrame) (hf : s.frameOf a = some f) (hd : f.d = d) (hp : f.ph = .commit) :
      DirMove s d a { s.dir d with swCount := (s.dir d).swCount + 1#64 }
  | closed {a : AgentId} (f : SvcFrame) (hf : s.frameOf a = some f) (hd : f.d = d) (hp : f.ph = .outcome) :
      DirMove s d a { (s.dir d).setClaim none with deferred := outcomeDeferred f }

/-- An update of direction `d` changes no other record, and `d`'s own only where the state holds it. -/
theorem State.dir_updDir_cases (s : State) (d q : DirId) (f : DirState → DirState) :
    (s.updDir d f).dir q = s.dir q ∨ d = q ∧ (s.updDir d f).dir q = f (s.dir q) := by
  rw [State.dir_updDir]
  split
  · next h => exact .inr ⟨h.1.symm, rfl⟩
  · exact .inl rfl

/-- A call past `Enter` is one that was in progress before the step. -/
theorem frameOf_of_past_enter {s : State} {a : AgentId} {f : SvcFrame}
    (h0 : s.frameOf a = some f ∨ s.frameOf a = none ∧ f.Fresh s) (hp : f.ph ≠ .enter) : s.frameOf a = some f :=
  h0.resolve_right fun h => hp h.2.ph

/-- Counting an overflow writes no other part of the record (R143). -/
theorem countOverflow_eq (g : Cfg) (c a : Nat) (x : DirState) : ∃ n, countOverflow g c a x = { x with overflow := n } := by
  unfold countOverflow
  split
  · exact ⟨_, rfl⟩
  · exact ⟨x.overflow, rfl⟩

/-- A servicer step, seen from one direction. -/
theorem SvcDid.dirMove {s u : State} {a : AgentId} {f : SvcFrame} {x : SvcNext} (h : SvcDid a s f u x)
    (h0 : s.frameOf a = some f ∨ s.frameOf a = none ∧ f.Fresh s) (d : DirId) : DirMove s d a (u.dir d) := by
  cases h with
  | inactive => exact .same
  | dry => exact .same
  | copy => exact .same
  | enter hp hr hc =>
    obtain e | ⟨rfl, e⟩ := State.dir_updDir_cases s f.d d (·.setClaim (some a)) <;> rw [e]
    · exact .same
    · exact .claimed hc (.inl hr)
  | snapshot hp hlt =>
    obtain e | ⟨rfl, e⟩ := State.dir_updDir_cases s f.d d
      (countOverflow s.cfg f.d.ch ((s.dir f.d).hwCount.toNat - (s.dir f.d).swCount.toNat)) <;> rw [e]
    · exact .same
    · obtain ⟨n, hn⟩ := countOverflow_eq s.cfg f.d.ch ((s.dir f.d).hwCount.toNat - (s.dir f.d).swCount.toNat) (s.dir f.d)
      rw [hn]
      exact .counted f n (frameOf_of_past_enter h0 (by simp [hp])) rfl hp
  | commit hp =>
    obtain e | ⟨rfl, e⟩ := State.dir_updDir_cases s f.d d (fun x => { x with swCount := x.swCount + 1#64 }) <;> rw [e]
    · exact .same
    · exact .committed f (frameOf_of_past_enter h0 (by simp [hp])) rfl hp
  | outcome hp =>
    rw [State.dir_emits]
    obtain e | ⟨rfl, e⟩ := State.dir_updDir_cases s f.d d
      (fun x => { x.setClaim none with deferred := outcomeDeferred f }) <;> rw [e]
    · exact .same
    · exact .closed f (frameOf_of_past_enter h0 (by simp [hp])) rfl hp

/-- A step's move, seen from one direction. -/
theorem Moved.dirMove {s t : State} {a : AgentId} (h : Moved s a t) (d : DirId) : DirMove s d a (t.dir d) := by
  cases h with
  | kept hd hf hl => rw [hd]; exact .same
  | posted f h0 hf0 hd hf hl => rw [hd]; exact .same
  | life e g hg hd =>
    rw [hd]
    obtain he | ⟨rfl, he⟩ := State.dir_updDir_cases s e d g <;> rw [he]
    · exact .same
    · exact .life g _ hg
  | merged e st u hp hu hd hf hl =>
    obtain ⟨raw, m, hr, hm, rfl⟩ := mergeStatus_ok hu
    rw [hd]
    obtain he | ⟨rfl, he⟩ := State.dir_updDir_cases s e d (·.setHw m) <;> rw [he]
    · exact .same
    · exact .merged st raw m hp hr hm
  | reclaimed f r hp hr hc hd hf hl =>
    rw [hd]
    obtain he | ⟨rfl, he⟩ := State.dir_updDir_cases s f.cur d (·.setClaim (some .interrupt)) <;> rw [he]
    · exact .same
    · exact .claimed hc (.inr (by simp [hp, IntPhase.updating]))
  | served f u x ha h0 h hd hf hl => rw [hd]; exact h.dirMove h0 d

end Sys2Proof.Machine
end

section
/-! SUPPORT. Which step may write a direction's counters and its lifecycle state. -/

namespace Sys2Proof.Machine

variable {s : State} {a : AgentId} {d : DirId} {x : DirState}

/-- A change of a hardware counter is a merge or a zeroing (R22, R23, R247). -/
theorem DirMove.hwCount_changed (h : DirMove s d a x)
    (hne : x.hwCount ≠ (s.dir d).hwCount ∨ x.hwCountLast ≠ (s.dir d).hwCountLast) :
    (a = .interrupt ∧ s.intPhase.merging d = true ∧ x.hwCount = x.hwCountLast) ∨
      (a = .lifecycle ∧ (s.lifePhase = .startEnd d ∨ s.lifePhase = .stopEnd d) ∧
        x.hwCount = 0#64 ∧ x.hwCountLast = 0#64) := by
  have same (hh : x.hwCount = (s.dir d).hwCount) (hl : x.hwCountLast = (s.dir d).hwCountLast) : False :=
    hne.elim (· hh) (· hl)
  cases h with
  | merged st raw m hp hr hm => exact .inl ⟨rfl, hp, rfl⟩
  | life g p h =>
    right
    cases h with
    | running hp => exact ⟨rfl, .inl hp, rfl, rfl⟩
    | stopped hp => exact ⟨rfl, .inr hp, rfl, rfl⟩
    | starting => exact (same rfl rfl).elim
    | stopping => exact (same rfl rfl).elim
  | same => exact (same rfl rfl).elim
  | claimed => exact (same rfl rfl).elim
  | counted => exact (same rfl rfl).elim
  | committed => exact (same rfl rfl).elim
  | closed => exact (same rfl rfl).elim

/-- A change of the software counter is a commit or a zeroing (R24, R247). -/
theorem DirMove.swCount_changed (h : DirMove s d a x) (hne : x.swCount ≠ (s.dir d).swCount) :
    (∃ f, s.frameOf a = some f ∧ f.d = d ∧ f.ph = .commit ∧ x.swCount = (s.dir d).swCount + 1#64) ∨
      (a = .lifecycle ∧ (s.lifePhase = .startEnd d ∨ s.lifePhase = .stopEnd d) ∧ x.swCount = 0#64) := by
  cases h with
  | committed f hf hd hp => exact .inl ⟨f, hf, hd, hp, rfl⟩
  | life g p h =>
    right
    cases h with
    | running hp => exact ⟨rfl, .inl hp, rfl⟩
    | stopped hp => exact ⟨rfl, .inr hp, rfl⟩
    | starting => exact absurd rfl hne
    | stopping => exact absurd rfl hne
  | same => exact absurd rfl hne
  | merged => exact absurd rfl hne
  | claimed => exact absurd rfl hne
  | counted => exact absurd rfl hne
  | closed => exact absurd rfl hne

/-- A change of the lifecycle state is a lifecycle move (R21). -/
theorem DirMove.st_changed (h : DirMove s d a x) (hne : x.st ≠ (s.dir d).st) :
    a = .lifecycle ∧ ∃ g p, LifeMove s d g p ∧ x = g (s.dir d) := by
  cases h with
  | life g p h => exact ⟨rfl, g, p, h, rfl⟩
  | same => exact absurd rfl hne
  | merged => exact absurd rfl hne
  | claimed => exact absurd rfl hne
  | counted => exact absurd rfl hne
  | committed => exact absurd rfl hne
  | closed => exact absurd rfl hne

/-- Settles O54: of the moves of a direction's record, only a merge, a commit and a zeroing write a counter. -/
theorem onlyMergesCommitsAndZeroingWriteTheCounters : Obligations.OnlyMergesCommitsAndZeroingWriteTheCounters := by
  unfold Obligations.OnlyMergesCommitsAndZeroingWriteTheCounters
  intro s t d h
  obtain ⟨i, p, k, a, u, p', ha, -, rfl, hu⟩ := step_effect h
  have hm := hu.moved.dirMove d
  rw [ha]
  simp only [Option.some.injEq]
  refine ⟨hm.hwCount_changed, fun hne => ?_⟩
  obtain ⟨f, hf⟩ | hz := hm.swCount_changed hne
  · exact .inl ⟨a, f, rfl, hf⟩
  · exact .inr hz

/-- Settles O55: only a lifecycle move changes a direction's state, and each of the four is one of the machine's edges. -/
theorem onlyTheLifecycleAgentMovesADirection : Obligations.OnlyTheLifecycleAgentMovesADirection := by
  unfold Obligations.OnlyTheLifecycleAgentMovesADirection
  intro s t d h hne
  obtain ⟨i, p, k, a, u, p', ha, -, rfl, hu⟩ := step_effect h
  obtain ⟨rfl, g, l, hg, hx⟩ := (hu.moved.dirMove d).st_changed hne
  have hst : (u.dir d).st = (g (s.dir d)).st := congrArg DirState.st hx
  refine ⟨ha, ?_⟩
  cases hg with
  | starting hr hp h0 hb => exact .inl ⟨h0, hst, hp, hb⟩
  | stopping hr hp hb => exact .inr (.inl ⟨hst, hp, hb⟩)
  | running hp => exact .inr (.inr (.inl ⟨hst, hp⟩))
  | stopped hp => exact .inr (.inr (.inr ⟨hst, hp⟩))

end Sys2Proof.Machine
end

section
/-! SUPPORT. The block's invariant read through the servicer calls in progress and the interrupt agent's phases. -/

namespace Sys2Proof.Machine

/-- The part of the invariant that is about one direction's record alone (R25, R26, R110). -/
structure RecFacts (x : DirState) : Prop where
  last : x.hwCount = x.hwCountLast
  le : x.swCount.toNat ≤ x.hwCount.toNat
  deferred : x.deferred ≠ none → x.st = .running
  claimed : x.claim ≠ none → x.st = .running
  inert : x.st = .stopped ∨ x.st = .starting → x.hwCount = 0#64 ∧ x.swCount = 0#64

/-- Agent `a`'s servicer call and the claims match (R29): a call past `Enter` holds its direction's claim, and a claim of `a`
is that of such a call. -/
structure ServeFacts (s : State) (a : AgentId) : Prop where
  frame : ∀ f, s.frameOf a = some f → FrameFacts s f
  holds : ∀ f, s.frameOf a = some f → f.ph ≠ .enter → (s.dir f.d).claim = some a
  held : ∀ q, q.ch < s.cfg.nCh → (s.dir q).claim = some a → ∃ f, s.frameOf a = some f ∧ f.d = q ∧ f.ph ≠ .enter

/-- A re-invocation's part of the invariant: it is past `Enter`, at the cursor's direction, and its request is still in the
deferred slot (R169). -/
structure ReinvokeFacts (s : State) (f : BhFrame) (v : SvcFrame) : Prop where
  cur : v.d = f.cur
  past : v.ph ≠ .enter
  frame : FrameFacts s v
  claim : (s.dir f.cur).claim = some .interrupt
  entry : ∃ r, (s.dir f.cur).deferred = some r ∧ r.req = v.req ∧ r.buf = v.buf ∧
    r.left.toNat = v.left.toNat + v.bytes.toNat

theorem reinvokeInv_iff {s : State} {f : BhFrame} {v : SvcFrame} : reinvokeInv s f v = true ↔ ReinvokeFacts s f v := by
  simp only [reinvokeInv, Bool.and_eq_true, beq_iff_eq, bne_iff_ne, frameInv_iff, Option.any_eq_true, and_assoc]
  constructor
  · rintro ⟨h1, h2, h3, h4, h5⟩; exact ⟨h1, h2, h3, h4, h5⟩
  · rintro ⟨h1, h2, h3, h4, h5⟩; exact ⟨h1, h2, h3, h4, h5⟩

/-- A bottom half's frame: the cursor exists and the masks are nested (R160, R171, R172). -/
structure BhFacts (s : State) (f : BhFrame) : Prop where
  cur : f.cur.ch < s.cfg.nCh
  clear : f.clear &&& ~~~f.snap = 0#32
  snap : f.snap &&& ~~~s.pendingMask = 0#32

/-- What a bottom half's sub-phase says of the cursor's direction. -/
def phaseFacts (s : State) (f : BhFrame) : BhPhase → Prop
  | .test => True
  | .updRead => maskHas f.snap s.cfg f.cur = true
  | .updMerge _ => maskHas f.snap s.cfg f.cur = true ∧ (s.dir f.cur).st = .running
  | .deferCheck => maskHas f.snap s.cfg f.cur = true ∧ (s.dir f.cur).st = .running
  | .svc v => maskHas f.snap s.cfg f.cur = true ∧ ReinvokeFacts s f v
  | .accum => maskHas f.snap s.cfg f.cur = true
  | .finish => True

theorem intInv_idle {s : State} (hp : s.intPhase = .idle) : intInv s = true := by
  simp [intInv, hp]

theorem intInv_bh {s : State} {f : BhFrame} {p : BhPhase} (hp : s.intPhase = .bh f p) :
    intInv s = true ↔ BhFacts s f ∧ phaseFacts s f p := by
  have hb : BhFacts s f ↔ (f.cur.ch < s.cfg.nCh ∧ f.clear &&& ~~~f.snap = 0#32) ∧ f.snap &&& ~~~s.pendingMask = 0#32 :=
    ⟨fun h => ⟨⟨h.cur, h.clear⟩, h.snap⟩, fun h => ⟨h.1.1, h.1.2, h.2⟩⟩
  rw [hb]
  unfold intInv
  rw [hp]
  cases p <;> simp [phaseFacts, hasDir_iff, reinvokeInv_iff]

theorem bhFacts_of_intInv {s : State} {f : BhFrame} {p : BhPhase} (hp : s.intPhase = .bh f p) (h : intInv s = true) :
    BhFacts s f := ((intInv_bh hp).mp h).1

theorem reinvokeFacts_of_intInv {s : State} {f : BhFrame} {v : SvcFrame} (hp : s.intPhase = .bh f (.svc v))
    (h : intInv s = true) : ReinvokeFacts s f v := by
  obtain ⟨-, -, hr⟩ := (intInv_bh hp).mp h
  exact hr

theorem intInv_updRead {s : State} {d : DirId} (hp : s.intPhase = .upd d .read) :
    intInv s = true ↔ d.ch < s.cfg.nCh := by
  simp [intInv, hp, hasDir_iff]

theorem intInv_updMerge {s : State} {d : DirId} {st : U32} (hp : s.intPhase = .upd d (.merge st)) :
    intInv s = true ↔ d.ch < s.cfg.nCh ∧ (s.dir d).st = .running := by
  simp [intInv, hp, hasDir_iff]

theorem serving_iff {p : IntPhase} {d : DirId} :
    p.serving d = true ↔ ∃ f v, p = .bh f (.svc v) ∧ f.cur = d ∧ v.d = d := by
  unfold IntPhase.serving
  split
  · simp
  · next hne => simpa using fun f v hp => absurd hp (hne f v)

theorem merging_updating {p : IntPhase} {d : DirId} (h : p.merging d = true) : p.updating d = true := by
  unfold IntPhase.merging at h
  split at h
  · exact h
  · exact h
  · cases h

theorem FrameFacts.of_enter {s : State} {f : SvcFrame} (hd : f.d.ch < s.cfg.nCh) (hp : f.ph = .enter)
    (hb : f.bytes = 0#64) : FrameFacts s f := by
  refine ⟨hd, ?_, ?_, ?_⟩
  · rw [hb]; simpa using f.left.isLt
  · simpa [needsBlock, hp] using hb
  · simp [needsSlot, hp]

/-- A call at the loop's test needs nothing of the counters (R141, R146). -/
theorem FrameFacts.of_loop {s : State} {f : SvcFrame} (hd : f.d.ch < s.cfg.nCh)
    (hlen : f.bytes.toNat + f.left.toNat < 2 ^ 64) (hp : f.ph = loopPhase (s.cfg.blockSize f.d.ch) f.left) :
    FrameFacts s f := by
  unfold loopPhase at hp
  split at hp
  · next hb => exact ⟨hd, hlen, by simpa [needsBlock, hp] using hb, by simp [needsSlot, hp]⟩
  · exact ⟨hd, hlen, by simp [needsBlock, hp], by simp [needsSlot, hp]⟩

theorem loopPhase_ne_enter (b : Nat) (l : U64) : loopPhase b l ≠ .enter := by
  unfold loopPhase
  split <;> simp

theorem DirFacts.recFacts {s : State} {d : DirId} (h : DirFacts s d) : RecFacts (s.dir d) :=
  ⟨h.last, h.le, h.deferred, h.claimed, h.inert⟩

/-- Under the invariant every agent's call and the claims match. -/
theorem InvFacts.serveFacts {s : State} (h : InvFacts s) (a : AgentId) : ServeFacts s a := by
  cases a with
  | lifecycle =>
    refine ⟨by simp, by simp, fun q hq hc => ?_⟩
    have hcl := (h.dirs q hq).claim
    rw [hc] at hcl
    cases hcl
  | client n =>
    refine ⟨h.frames n, h.claims n, fun q hq hc => ?_⟩
    have hcl := (h.dirs q hq).claim
    rw [hc] at hcl
    simp only [claimInv, Option.any_eq_true, Bool.and_eq_true, beq_iff_eq, bne_iff_ne] at hcl
    exact hcl
  | interrupt =>
    have reinvoke {v : SvcFrame} (hv : s.frameOf .interrupt = some v) : ∃ f, ReinvokeFacts s f v := by
      obtain ⟨f, hp⟩ := frameOf_interrupt.mp hv
      exact ⟨f, reinvokeFacts_of_intInv hp h.int⟩
    refine ⟨fun v hv => ?_, fun v hv hp => ?_, fun q hq hc => ?_⟩
    · obtain ⟨f, hr⟩ := reinvoke hv
      exact hr.frame
    · obtain ⟨f, hr⟩ := reinvoke hv
      rw [hr.cur, hr.claim]
    · have hcl := (h.dirs q hq).claim
      rw [hc] at hcl
      obtain ⟨f, v, hp, -, hd⟩ := serving_iff.mp hcl
      exact ⟨v, frameOf_interrupt.mpr ⟨f, hp⟩, hd, (reinvokeFacts_of_intInv hp h.int).past⟩

/-- Claims that match the calls in progress meet the invariant's part on claims. -/
theorem claimInv_of_serveFacts {s : State} (h : ∀ a, ServeFacts s a) (hi : intInv s = true) {q : DirId}
    (hq : q.ch < s.cfg.nCh) : claimInv s q (s.dir q).claim = true := by
  cases hc : (s.dir q).claim with
  | none => rfl
  | some a =>
    obtain ⟨f, hf, rfl, hp⟩ := (h a).held q hq hc
    cases a with
    | interrupt =>
      obtain ⟨g, hg⟩ := frameOf_interrupt.mp hf
      exact serving_iff.mpr ⟨g, f, hg, (reinvokeFacts_of_intInv hg hi).cur.symm, rfl⟩
    | lifecycle => cases hf
    | client n =>
      rw [frameOf_client] at hf
      simp [claimInv, hf, hp]

end Sys2Proof.Machine
end

section
/-! SUPPORT. What the moves of the records keep of the invariant. -/

namespace Sys2Proof.Machine

variable {s t : State} {a b : AgentId} {d q : DirId} {x : DirState}

/-- A direction that is not busy is unclaimed and not being updated (R44). -/
theorem not_busy_iff : s.busy d = false ↔ (s.dir d).claim = none ∧ s.intPhase.updating d = false := by
  simp [State.busy]

/-- The merge of a direction being updated lowers no counter (R127). -/
theorem InvFacts.le_merged (h : InvFacts s) (hd : d.ch < s.cfg.nCh) {st : U32} {raw : Nat} {m : U64}
    (hr : statusRaw (s.cfg.cap d.ch) st = some raw)
    (hm : merge2 (s.dir d).hwCount (s.dir d).hwCountLast raw (s.cfg.k d.ch) = .ok m) :
    (s.dir d).hwCount.toNat ≤ m.toNat := by
  obtain ⟨hcap, hk⟩ := Cfg.cap_eq h.wf hd
  have hlast := (h.dirs d hd).last
  rw [hlast]
  exact merge2_ge hm hlast hk (statusRaw_lt hcap hr)

theorem LifeMove.recFacts {g : DirState → DirState} {p : LifePhase} (h : InvFacts s) (hd : d.ch < s.cfg.nCh)
    (hg : LifeMove s d g p) : RecFacts (g (s.dir d)) := by
  have hx := h.dirs d hd
  cases hg with
  | starting hr hp hst hb =>
    have hne : (s.dir d).st ≠ .running := by simp [hst]
    exact ⟨hx.last, hx.le, fun hdef => absurd (hx.deferred hdef) hne, fun hc => absurd (hx.claimed hc) hne,
      fun _ => hx.inert (.inl hst)⟩
  | running hp => exact ⟨rfl, Nat.le_refl _, fun _ => rfl, fun _ => rfl, fun _ => ⟨rfl, rfl⟩⟩
  | stopping hr hp hb =>
    exact ⟨hx.last, hx.le, fun hdef => absurd rfl hdef, fun hc => absurd (not_busy_iff.mp hb).1 hc,
      by simp [DirState.setSt]⟩
  | stopped hp =>
    have hne : (s.dir d).st ≠ .running := by simp [hx.stopping.mpr hp]
    exact ⟨rfl, Nat.le_refl _, fun hdef => absurd (hx.deferred hdef) hne, fun hc => absurd (hx.claimed hc) hne,
      fun _ => ⟨rfl, rfl⟩⟩

/-- Every move keeps the record's part of the invariant. -/
theorem DirMove.recFacts (h : InvFacts s) (hd : d.ch < s.cfg.nCh) (hm : DirMove s d a x) : RecFacts x := by
  have hx := (h.dirs d hd).recFacts
  have hv := h.serveFacts a
  have notInert (hr : (s.dir d).st = .running) :
      ¬ ((s.dir d).st = .stopped ∨ (s.dir d).st = .starting) := by simp [hr]
  cases hm with
  | same => exact hx
  | life g p hg => exact hg.recFacts h hd
  | merged st raw m hp hr hm => exact { hx with
      last := rfl
      le := hx.le.trans (h.le_merged hd hr hm)
      inert := fun hs => absurd hs (notInert (updating_running h.int (merging_updating hp))) }
  | claimed hc hr => exact { hx with claimed := fun _ => hr.elim id (updating_running h.int) }
  | counted f n hf hd hp => exact { hx with }
  | committed f hf hd hp =>
    subst hd
    have hlt : (s.dir f.d).swCount.toNat < (s.dir f.d).hwCount.toNat := by
      simpa [needsSlot, hp] using (hv.frame f hf).slot
    have hr := hx.claimed (by simp [hv.holds f hf (by simp [hp])])
    exact { hx with
      le := by bv_omega
      inert := fun hs => absurd hs (notInert hr) }
  | closed f hf hd hp =>
    subst hd
    have hr := hx.claimed (by simp [hv.holds f hf (by simp [hp])])
    exact { hx with
      deferred := fun _ => hr
      claimed := fun _ => hr }

/-- What a direction claimed by a call keeps while another agent takes a step. -/
structure Untouched (x y : DirState) : Prop where
  st : y.st = x.st
  sw : y.swCount = x.swCount
  hw : x.hwCount.toNat ≤ y.hwCount.toNat
  deferred : y.deferred = x.deferred
  claim : y.claim = x.claim

theorem Untouched.refl (x : DirState) : Untouched x x := ⟨rfl, rfl, Nat.le_refl _, rfl, rfl⟩

/-- A lifecycle move is of an unclaimed direction that is not being updated (R102, R107). -/
theorem LifeMove.free {g : DirState → DirState} {p : LifePhase} (h : InvFacts s) (hd : d.ch < s.cfg.nCh)
    (hg : LifeMove s d g p) : (s.dir d).claim = none ∧ s.intPhase.updating d = false := by
  have hx := h.dirs d hd
  cases hg with
  | starting hr hp hst hb => exact not_busy_iff.mp hb
  | stopping hr hp hb => exact not_busy_iff.mp hb
  | running hp => exact not_running_free h hd (by simp [hx.starting.mpr hp])
  | stopped hp => exact not_running_free h hd (by simp [hx.stopping.mpr hp])

/-- A direction that another agent's call has claimed: a step changes at most its hardware counters, upwards (R29). -/
theorem DirMove.untouched (h : InvFacts s) (hd : d.ch < s.cfg.nCh) (hm : DirMove s d a x) (hb : b ≠ a)
    (hc : (s.dir d).claim = some b) : Untouched (s.dir d) x := by
  have hv := h.serveFacts a
  have other {f : SvcFrame} (hf : s.frameOf a = some f) (hd : f.d = d) (hp : f.ph ≠ .enter) : False := by
    have := hv.holds f hf hp
    rw [hd, hc] at this
    exact hb (Option.some.inj this)
  cases hm with
  | same => exact .refl _
  | life g p hg => simp [(hg.free h hd).1] at hc
  | merged st raw m hp hr hm => exact ⟨rfl, rfl, h.le_merged hd hr hm, rfl, rfl⟩
  | claimed hn hr => simp [hn] at hc
  | counted f n hf hd hp => exact ⟨rfl, rfl, Nat.le_refl _, rfl, rfl⟩
  | committed f hf hd hp => exact (other hf hd (by simp [hp])).elim
  | closed f hf hd hp => exact (other hf hd (by simp [hp])).elim

/-- No step makes a claim for another agent. -/
theorem DirMove.claim_of_other (hm : DirMove s d a x) (hb : b ≠ a) (hc : x.claim = some b) :
    (s.dir d).claim = some b := by
  cases hm with
  | same => exact hc
  | life g p hg => cases hg <;> exact hc
  | merged => exact hc
  | claimed hn hr => exact absurd (Option.some.inj hc).symm hb
  | counted => exact hc
  | committed => exact hc
  | closed => cases hc

end Sys2Proof.Machine
end

section
/-! SUPPORT. What a step does to the servicer calls in progress. -/

namespace Sys2Proof.Machine

variable {s t u : State} {a b : AgentId} {f f' : SvcFrame}

/-- A servicer step that goes on: the same request on the same direction, whose claim the call holds, with as many bytes in
all. -/
structure SvcGoesOn (a : AgentId) (s u : State) (f f' : SvcFrame) : Prop where
  dir : f'.d = f.d
  req : f'.req = f.req
  buf : f'.buf = f.buf
  past : f'.ph ≠ .enter
  total : f'.left.toNat + f'.bytes.toNat = f.left.toNat + f.bytes.toNat
  frame : FrameFacts u f'
  claim : (u.dir f.d).claim = some a
  deferred : (u.dir f.d).deferred = (s.dir f.d).deferred

/-- Under the invariant a servicer step that goes on keeps its call sound (R141 to R146). -/
theorem SvcDid.goesOn (hwf : s.cfg.wf = true) (hsh : s.shaped) (hf : FrameFacts s f)
    (hown : f.ph ≠ .enter → (s.dir f.d).claim = some a) (h : SvcDid a s f u (.more f')) : SvcGoesOn a s u f f' := by
  have hlen : f.d.ch < s.chans.length := shaped_ch hsh hf.dir
  have hblock := hf.block
  have hslot := hf.slot
  cases h with
  | enter hp hr hc =>
    refine ⟨rfl, rfl, rfl, loopPhase_ne_enter _ _, rfl, .of_loop hf.dir hf.lens rfl, ?_, ?_⟩ <;>
      rw [State.dir_updDir_self _ _ hlen] <;> rfl
  | dry hp hle =>
    exact ⟨rfl, rfl, rfl, by simp, rfl, ⟨hf.dir, hf.lens, trivial, trivial⟩, hown (by simp [hp]), rfl⟩
  | snapshot hp hlt =>
    obtain ⟨n, hn⟩ := countOverflow_eq s.cfg f.d.ch ((s.dir f.d).hwCount.toNat - (s.dir f.d).swCount.toNat) (s.dir f.d)
    have hself := (State.dir_updDir_self s _ hlen).trans hn
    simp only [needsBlock, hp] at hblock
    refine ⟨rfl, rfl, rfl, by simp, rfl, ⟨hf.dir, hf.lens, hblock, ?_⟩, ?_,
      (congrArg DirState.deferred hself).trans rfl⟩
    · simp only [needsSlot, hself]
      exact ⟨hlt, rfl⟩
    · exact (congrArg DirState.claim hself).trans (hown (by simp [hp]))
  | copy slot hp =>
    simp only [needsBlock, needsSlot, hp] at hblock hslot
    exact ⟨rfl, rfl, rfl, by simp, rfl, ⟨hf.dir, hf.lens, hblock, hslot.1⟩, hown (by simp [hp]), rfl⟩
  | commit hp =>
    simp only [needsBlock, hp] at hblock
    have hb := Cfg.blockSize_lt hwf hf.dir
    have hleft := left_sub_block hb hblock
    have hbytes := bytes_add_block hb hblock hf.lens
    have hlens := hf.lens
    refine ⟨rfl, rfl, rfl, loopPhase_ne_enter _ _, ?_, .of_loop hf.dir ?_ rfl, ?_, ?_⟩
    · show BitVec.toNat _ + BitVec.toNat _ = _
      rw [hleft, hbytes]; omega
    · show BitVec.toNat _ + BitVec.toNat _ < _
      rw [hleft, hbytes]; omega
    · rw [State.dir_updDir_self _ _ hlen]; exact hown (by simp [hp])
    · rw [State.dir_updDir_self _ _ hlen]

/-- A servicer step that ends its call leaves it without a claim (R141, R148, R149). -/
theorem SvcDid.unclaimed {r : Result} (hlen : f.d.ch < s.chans.length)
    (hfree : f.ph = .enter → (s.dir f.d).claim ≠ some a) (h : SvcDid a s f u (.finish r)) : (u.dir f.d).claim ≠ some a := by
  cases h with
  | inactive hp hr => exact hfree hp
  | outcome hp =>
    rw [State.dir_emits, State.dir_updDir_self _ _ hlen]
    simp [DirState.setClaim]

theorem ServeFacts.congr (h : ServeFacts s a) (hc : t.cfg = s.cfg) (hd : ∀ q, t.dir q = s.dir q)
    (hf : t.frameOf a = s.frameOf a) : ServeFacts t a := by
  refine ⟨fun f hs => ?_, ?_, ?_⟩
  · exact (h.frame f (hf ▸ hs)).mono hc (by rw [hd]) (by rw [hd])
  · simpa only [hd, hf] using h.holds
  · simpa only [hd, hf, hc] using h.held

/-- An agent with no call in progress holds no claim. -/
theorem ServeFacts.of_none (hf : t.frameOf a = none) (hd : ∀ q, q.ch < t.cfg.nCh → (t.dir q).claim ≠ some a) :
    ServeFacts t a :=
  ⟨by simp [hf], by simp [hf], fun q hq hc => absurd hc (hd q hq)⟩

theorem ServeFacts.of_some (hf : t.frameOf a = some f) (hff : FrameFacts t f)
    (hc : f.ph ≠ .enter → (t.dir f.d).claim = some a)
    (hd : ∀ q, q.ch < t.cfg.nCh → (t.dir q).claim = some a → f.d = q ∧ f.ph ≠ .enter) : ServeFacts t a := by
  refine ⟨fun g hg => ?_, fun g hg => ?_, fun q hq hcl => ⟨f, hf, hd q hq hcl⟩⟩ <;>
    obtain rfl : f = g := Option.some.inj (hf.symm.trans hg)
  · exact hff
  · exact hc

theorem ServeFacts.claim_ne_of_none (h : ServeFacts s a) (hf : s.frameOf a = none) {q : DirId} (hq : q.ch < s.cfg.nCh) :
    (s.dir q).claim ≠ some a := by
  intro hc
  obtain ⟨f, hs, -⟩ := h.held q hq hc
  simp [hf] at hs

/-- Another agent's call and its claim survive a step. -/
theorem Moved.serveFacts_other (h : InvFacts s) (hm : Moved s a t) (hc : Confined a s t) (hb : b ≠ a) : ServeFacts t b := by
  have hv := h.serveFacts b
  have hfr : t.frameOf b = s.frameOf b := hc.frameOf hb
  have still (f : SvcFrame) (hf : s.frameOf b = some f) (hp : f.ph ≠ .enter) : Untouched (s.dir f.d) (t.dir f.d) :=
    (hm.dirMove f.d).untouched h (hv.frame f hf).dir hb (hv.holds f hf hp)
  refine ⟨fun f hf => ?_, fun f hf hp => ?_, fun q hq hcl => ?_⟩
  · rw [hfr] at hf
    have hff := hv.frame f hf
    by_cases hp : f.ph = .enter
    · exact .of_enter (hc.cfg ▸ hff.dir) hp (by simpa [needsBlock, hp] using hff.block)
    · have hu := still f hf hp
      exact hff.mono hc.cfg hu.sw hu.hw
  · rw [hfr] at hf
    exact (still f hf hp).claim.trans (hv.holds f hf hp)
  · rw [hfr]
    exact hv.held q (hc.cfg ▸ hq) ((hm.dirMove q).claim_of_other hb hcl)

theorem SvcFrame.Fresh.frameFacts (h : f.Fresh s) : FrameFacts s f := .of_enter (hasDir_iff.mp h.dir) h.ph h.bytes

theorem reinvokeFrame_frameFacts {d : DirId} (r : DeferredReq) (hd : d.ch < s.cfg.nCh) :
    FrameFacts s (reinvokeFrame s.cfg d r) :=
  .of_loop hd (by simpa [reinvokeFrame] using r.left.isLt) rfl

/-- The stepping agent's call and its claim match after a servicer step. -/
theorem Moved.serveFacts_served {x : SvcNext} (h : InvFacts s) (hcfg : t.cfg = s.cfg)
    (h0 : s.frameOf a = some f ∨ s.frameOf a = none ∧ f.Fresh s) (hs : SvcDid a s f u x) (hd : ∀ q, t.dir q = u.dir q)
    (hf : t.frameOf a = x.frame) : ServeFacts t a := by
  have hv := h.serveFacts a
  have hff : FrameFacts s f := h0.elim (hv.frame f) fun h => h.2.frameFacts
  have hown (hp : f.ph ≠ .enter) : (s.dir f.d).claim = some a := hv.holds f (frameOf_of_past_enter h0 hp) hp
  have hmine {q : DirId} (hq : q.ch < s.cfg.nCh) (hc : (s.dir q).claim = some a) : f.d = q ∧ f.ph ≠ .enter := by
    obtain ⟨g, hg, hd, hp⟩ := hv.held q hq hc
    obtain hfs | ⟨hn, -⟩ := h0
    · obtain rfl : f = g := Option.some.inj (hfs.symm.trans hg)
      exact ⟨hd, hp⟩
    · simp [hn] at hg
  have hother {q : DirId} (hq : q.ch < s.cfg.nCh) (hc : (t.dir q).claim = some a) : f.d = q := by
    obtain ⟨-, -, hrest, -⟩ := svcDid_frame hs
    by_contra hne
    rw [hd, hrest q (Ne.symm hne)] at hc
    exact hne (hmine hq hc).1
  have hucfg : t.cfg = u.cfg := hcfg.trans (Confined.svcDid (a := a) hs).cfg.symm
  cases x with
  | more f' =>
    have hg := hs.goesOn h.wf h.shaped hff hown
    refine .of_some hf (hg.frame.mono hucfg (by rw [hd]) (by rw [hd])) (fun _ => ?_) fun q hq hc => ⟨?_, hg.past⟩
    · rw [hd, hg.dir, hg.claim]
    · exact hg.dir.trans (hother (hcfg ▸ hq) hc)
  | finish r =>
    refine .of_none hf fun q hq hc => ?_
    obtain rfl := hother (hcfg ▸ hq) hc
    rw [hd] at hc
    exact hs.unclaimed (shaped_ch h.shaped hff.dir) (fun hp hc => (hmine hff.dir hc).2 hp) hc

/-- The stepping agent's call and its claim match after its step. -/
theorem Moved.serveFacts_own (h : InvFacts s) (hm : Moved s a t) (hcfg : t.cfg = s.cfg) : ServeFacts t a := by
  have hv := h.serveFacts a
  cases hm with
  | kept hd hf hl => exact hv.congr hcfg hd hf
  | life d g hg hd =>
    refine .of_none rfl fun q hq => ?_
    have hkeep : (t.dir q).claim = (s.dir q).claim := by
      rw [hd]
      exact State.dir_updDir_keep s d q g DirState.claim fun x => by
        generalize t.lifePhase = p at hg
        cases hg <;> rfl
    rw [hkeep]
    exact hv.claim_ne_of_none rfl (hcfg ▸ hq)
  | merged d st u hp hu hd hf hl =>
    obtain ⟨raw, m, -, -, rfl⟩ := mergeStatus_ok hu
    have hnone : s.frameOf .interrupt = none := frameOf_interrupt_none fun f v hs => by simp [hs, IntPhase.merging] at hp
    refine .of_none hf fun q hq => ?_
    rw [hd, State.dir_updDir_keep s d q (·.setHw m) DirState.claim fun _ => rfl]
    exact hv.claim_ne_of_none hnone (hcfg ▸ hq)
  | reclaimed g r hp hr hc hd hf hl =>
    have hnone : s.frameOf .interrupt = none := frameOf_interrupt_none fun f v hs => by simp [hs] at hp
    have hcur : g.cur.ch < s.cfg.nCh := (bhFacts_of_intInv hp h.int).cur
    refine .of_some hf ?_ (fun _ => ?_) fun q hq hcl => ⟨?_, loopPhase_ne_enter _ _⟩
    · rw [← hcfg]
      exact reinvokeFrame_frameFacts r (hcfg ▸ hcur)
    · show (t.dir g.cur).claim = some .interrupt
      rw [hd, State.dir_updDir_self _ _ (shaped_ch h.shaped hcur)]
      rfl
    · by_contra hne
      change g.cur ≠ q at hne
      rw [hd, State.dir_updDir_ne _ _ (Ne.symm hne)] at hcl
      exact hv.claim_ne_of_none hnone (hcfg ▸ hq) hcl
  | served f u x ha h0 hs hd hf hl => exact Moved.serveFacts_served h hcfg h0 hs hd hf
  | posted f h0 hf0 hd hf hl =>
    refine .of_some hf (hf0.frameFacts.mono hcfg (by rw [hd]) (by rw [hd])) (absurd hf0.ph) fun q hq hc => ?_
    rw [hd] at hc
    exact absurd hc (hv.claim_ne_of_none h0 (hcfg ▸ hq))

/-- A step leaves every agent's call and the claims matching. -/
theorem Moved.serveFacts (h : InvFacts s) (hm : Moved s a t) (hc : Confined a s t) (b : AgentId) : ServeFacts t b := by
  by_cases hb : b = a
  · subst hb
    exact hm.serveFacts_own h hc.cfg
  · exact hm.serveFacts_other h hc hb

end Sys2Proof.Machine
end

section
/-! SUPPORT. What a step does to the lifecycle agent's and the interrupt agent's parts of the invariant. -/

namespace Sys2Proof.Machine

variable {s t : State} {a : AgentId} {f : BhFrame}

/-- The lifecycle agent's phase and the directions' states agree (R21). -/
structure LifeAgrees (s : State) (q : DirId) : Prop where
  starting : (s.dir q).st = .starting ↔ s.lifePhase = .startEnd q
  stopping : (s.dir q).st = .stopping ↔ s.lifePhase = .stopEnd q

theorem LifeAgrees.congr {q : DirId} (h : LifeAgrees s q) (hst : (t.dir q).st = (s.dir q).st)
    (hl : t.lifePhase = s.lifePhase) : LifeAgrees t q :=
  ⟨by rw [hst, hl]; exact h.starting, by rw [hst, hl]; exact h.stopping⟩

/-- A step that is no lifecycle move changes no direction's state. -/
theorem Moved.st_kept (hm : Moved s a t) :
    ((∀ q, (t.dir q).st = (s.dir q).st) ∧ t.lifePhase = s.lifePhase) ∨
      ∃ d g, LifeMove s d g t.lifePhase ∧ ∀ q, t.dir q = (s.updDir d g).dir q := by
  have keep (ha : a ≠ .lifecycle) (q : DirId) : (t.dir q).st = (s.dir q).st := by
    by_contra hne
    exact ha ((hm.dirMove q).st_changed hne).1
  cases hm with
  | life d g hg hd => exact .inr ⟨d, g, hg, hd⟩
  | kept hd hf hl => exact .inl ⟨fun q => by rw [hd], hl⟩
  | posted f h0 hf0 hd hf hl => exact .inl ⟨fun q => by rw [hd], hl⟩
  | merged d st u hp hu hd hf hl => exact .inl ⟨keep (by simp), hl⟩
  | reclaimed f r hp hr hc hd hf hl => exact .inl ⟨keep (by simp), hl⟩
  | served f u x ha h0 h hd hf hl => exact .inl ⟨keep ha, hl⟩

theorem LifeMove.agrees {d q : DirId} {g : DirState → DirState} (h : InvFacts s) (hq : q.ch < s.cfg.nCh)
    (hg : LifeMove s d g t.lifePhase) (hd : ∀ q, t.dir q = (s.updDir d g).dir q) : LifeAgrees t q := by
  have hx := h.dirs q hq
  have hstart := hx.starting
  have hstop := hx.stopping
  generalize hl : t.lifePhase = p at hg
  by_cases hqd : q = d
  · subst hqd
    have hself := (hd q).trans (State.dir_updDir_self s g (shaped_ch h.shaped hq))
    constructor <;> rw [hself, hl] <;> cases hg <;> simp [DirState.setSt]
  · have hsame := (hd q).trans (State.dir_updDir_ne s g hqd)
    have hdq : d ≠ q := Ne.symm hqd
    constructor <;> rw [hsame, hl]
    · rw [hstart]; cases hg <;> simp [*]
    · rw [hstop]; cases hg <;> simp [*]

/-- A step leaves the lifecycle agent's phase and the directions' states in agreement. -/
theorem Moved.lifeAgrees (h : InvFacts s) (hm : Moved s a t) {q : DirId} (hq : q.ch < s.cfg.nCh) : LifeAgrees t q := by
  obtain ⟨hst, hl⟩ | ⟨d, g, hg, hd⟩ := hm.st_kept
  · exact LifeAgrees.congr ⟨(h.dirs q hq).starting, (h.dirs q hq).stopping⟩ (hst q) hl
  · exact hg.agrees h hq hd

theorem lifeInv_congr (h : lifeInv s = true) (hcfg : t.cfg = s.cfg) (hl : t.lifePhase = s.lifePhase) :
    lifeInv t = true := by
  simpa only [lifeInv, State.hasDir, hcfg, hl] using h

theorem Moved.lifeInv (h : InvFacts s) (hm : Moved s a t) (hcfg : t.cfg = s.cfg) : lifeInv t = true := by
  obtain ⟨-, hl⟩ | ⟨d, g, hg, -⟩ := hm.st_kept
  · exact lifeInv_congr h.life hcfg hl
  · unfold Machine.lifeInv
    generalize t.lifePhase = p at hg
    cases hg with
    | starting hr => simpa only [State.hasDir, hcfg] using hr
    | stopping hr => simpa only [State.hasDir, hcfg] using hr
    | running => rfl
    | stopped => rfl

theorem LifeMove.dir_lt {d : DirId} {g : DirState → DirState} {p : LifePhase} (h : InvFacts s) (hg : LifeMove s d g p) :
    d.ch < s.cfg.nCh := by
  have hlife := h.life
  refine hasDir_iff.mp ?_
  cases hg with
  | starting hr => exact hr
  | stopping hr => exact hr
  | running hp => simpa only [Machine.lifeInv, hp] using hlife
  | stopped hp => simpa only [Machine.lifeInv, hp] using hlife

/-- A direction that is being updated keeps its lifecycle state (R102, R107). -/
theorem Moved.updating_st (h : InvFacts s) (hm : Moved s a t) {d : DirId} (hu : s.intPhase.updating d = true) :
    (t.dir d).st = (s.dir d).st := by
  obtain ⟨hst, -⟩ | ⟨e, g, hg, hd⟩ := hm.st_kept
  · exact hst d
  · rw [hd]
    obtain he | ⟨rfl, -⟩ := State.dir_updDir_cases s e d g
    · rw [he]
    · have hfree := (hg.free h (hg.dir_lt h)).2
      simp [hu] at hfree

/-- The interrupt agent's part survives another agent's step. -/
theorem Moved.intInv_other (h : InvFacts s) (hm : Moved s a t) (hc : Confined a s t) (ha : a ≠ .interrupt) :
    intInv t = true := by
  obtain ⟨hp, hpend, -⟩ := hc.int ha
  refine intInv_mono h.int hc.cfg hp hpend (fun d hu => hm.updating_st h hu) fun d hs => ?_
  obtain ⟨f, v, hf, rfl, -⟩ := serving_iff.mp hs
  have hu := (hm.dirMove f.cur).untouched h (bhFacts_of_intInv hf h.int).cur ha.symm (serving_claim h.int hs)
  exact ⟨hu.claim, hu.deferred, hu.sw, hu.hw⟩

theorem BhFacts.congr (h : BhFacts s f) (hcfg : t.cfg = s.cfg) (hpend : t.pendingMask = s.pendingMask) : BhFacts t f :=
  ⟨hcfg ▸ h.cur, h.clear, hpend ▸ h.snap⟩

theorem nextDir_lt {g : Cfg} {d e : DirId} (hd : d.ch < g.nCh) (h : nextDir g d = some e) : e.ch < g.nCh := by
  unfold nextDir at h
  split at h
  · cases h; exact hd
  · split at h
    · next hlt => cases h; exact hlt
    · cases h

theorem intInv_setInt_bh {p : BhPhase} (hf : BhFacts s f) (hp : phaseFacts (s.setInt (.bh f p)) f p) :
    intInv (s.setInt (.bh f p)) = true := (intInv_bh rfl).mpr ⟨hf.congr rfl rfl, hp⟩

/-- The bottom half goes on to the next direction's `Test`, or to BH_END (R171). -/
theorem intInv_setInt_bhAdvance (hf : BhFacts s f) : intInv (s.setInt (bhAdvance s.cfg f)) = true := by
  unfold bhAdvance
  split
  · next d hd => exact intInv_setInt_bh ⟨nextDir_lt hf.cur hd, hf.clear, hf.snap⟩ trivial
  · exact intInv_setInt_bh hf trivial

/-- The snapshot lies within the pending mask (R166). -/
theorem snapshotMask_within (p e : U32) : snapshotMask p e &&& ~~~p = 0#32 :=
  within_iff.mpr fun i _ hi => by
    rw [snapshotMask, BitVec.getLsbD_and, Bool.and_eq_true] at hi
    exact hi.1

/-- Accumulating the bit of a direction whose `Test` found it set keeps the clear-mask within the snapshot (R171). -/
theorem clear_within {g : Cfg} {d : DirId} {clear snap : U32} (hn : g.irq d < 32) (hm : maskHas snap g d = true)
    (h : clear &&& ~~~snap = 0#32) : maskMerge clear (dirMask g d) &&& ~~~snap = 0#32 := by
  rw [maskHas_eq hn] at hm
  refine within_iff.mpr fun i hi hb => ?_
  rw [maskMerge, BitVec.getLsbD_or, Bool.or_eq_true, dirMask, bitMask_bit i hn, decide_eq_true_eq] at hb
  obtain hb | rfl := hb
  · exact within_iff.mp h i hi hb
  · exact hm

theorem mergeStatus_frame {d : DirId} {st : U32} {u : State} (h : mergeStatus d st s = .ok u) :
    u.cfg = s.cfg ∧ u.pendingMask = s.pendingMask ∧ ∀ q, (u.dir q).st = (s.dir q).st := by
  obtain ⟨raw, m, -, -, rfl⟩ := mergeStatus_ok h
  exact ⟨rfl, rfl, fun q => State.dir_updDir_keep s d q (·.setHw m) DirState.st fun _ => rfl⟩

theorem intInv_updReadStep {d : DirId} (hd : d.ch < s.cfg.nCh) (h : updReadStep d s = .ok t) : intInv t = true := by
  obtain ⟨hr, rfl⟩ | ⟨-, rfl⟩ := updReadStep_ok h
  · exact (intInv_updMerge rfl).mpr ⟨by simpa using hd, by simpa using hr⟩
  · exact intInv_idle rfl

theorem intInv_updStep {d : DirId} {p : UpdPhase} (hi : intInv s = true) (hp : s.intPhase = .upd d p)
    (h : updStep d p s = .ok t) : intInv t = true := by
  cases p with
  | read => exact intInv_updReadStep ((intInv_updRead hp).mp hi) h
  | merge st =>
    obtain ⟨u, -, rfl⟩ := updMergeStep_ok h
    exact intInv_idle rfl

/-- A re-invocation that goes on still serves the deferred entry (R152, R169). -/
theorem ReinvokeFacts.goesOn {u : State} {v v' : SvcFrame} (h : ReinvokeFacts s f v) (hg : SvcGoesOn .interrupt s u v v')
    (hd : ∀ q, t.dir q = u.dir q) (hcfg : t.cfg = u.cfg) : ReinvokeFacts t f v' := by
  obtain ⟨r, hr, hreq, hbuf, hleft⟩ := h.entry
  have hclaim := hg.claim
  have hdef := hg.deferred
  rw [h.cur] at hclaim hdef
  refine ⟨hg.dir.trans h.cur, hg.past, hg.frame.mono hcfg (by rw [hd]) (by rw [hd]), by rw [hd]; exact hclaim,
    r, ?_, hreq.trans hg.req.symm, hbuf.trans hg.buf.symm, hleft.trans hg.total.symm⟩
  rw [hd, hdef, hr]

/-- A bottom half's step keeps the interrupt agent's part (R166 to R172). -/
theorem intInv_bhStep {p : BhPhase} (h : InvFacts s) (hp : s.intPhase = .bh f p) (hs : bhStep f p s = .ok t) :
    intInv t = true := by
  obtain ⟨hf, hph⟩ := (intInv_bh hp).mp h.int
  cases p with
  | test =>
    obtain ⟨hm, rfl⟩ | ⟨-, rfl⟩ := bhTest_ok hs
    · exact intInv_setInt_bh hf hm
    · exact intInv_setInt_bhAdvance hf
  | updRead =>
    obtain ⟨hr, rfl⟩ | ⟨-, rfl⟩ := bhUpdRead_ok hs
    · refine intInv_setInt_bh (hf.congr (by simp) (by simp)) ?_
      simpa [phaseFacts] using And.intro hph hr
    · exact intInv_setInt_bh hf hph
  | updMerge st =>
    obtain ⟨u, hu, rfl⟩ := bhUpdMerge_ok hs
    obtain ⟨hcfg, hpend, hst⟩ := mergeStatus_frame hu
    refine intInv_setInt_bh (hf.congr hcfg hpend) ?_
    simpa [phaseFacts, hcfg, hst] using hph
  | deferCheck =>
    obtain ⟨-, rfl⟩ | ⟨r, hr, hc, rfl⟩ := bhDeferCheck_ok hs
    · exact intInv_setInt_bh hf hph.1
    · have hself := State.dir_updDir_self s (·.setClaim (some .interrupt)) (shaped_ch h.shaped hf.cur)
      refine intInv_setInt_bh (hf.congr rfl rfl) ⟨hph.1, rfl, loopPhase_ne_enter _ _, ?_, ?_, r, ?_, rfl, rfl, rfl⟩
      · exact reinvokeFrame_frameFacts (s := State.setInt _ _) r hf.cur
      · exact congrArg DirState.claim hself
      · exact (congrArg DirState.deferred hself).trans hr
  | svc v =>
    obtain ⟨hm, hr⟩ := hph
    obtain ⟨u, v', hu, rfl⟩ | ⟨u, r, hu, rfl⟩ := bhSvc_ok hs <;> have hdid := svcStep_ok hu <;>
      obtain ⟨hcfg, -, -, -, -, hpend, -⟩ := svcDid_frame hdid
    · have hg := hdid.goesOn h.wf h.shaped hr.frame fun _ => by rw [hr.cur, hr.claim]
      refine intInv_setInt_bh (hf.congr hcfg hpend) ⟨?_, hr.goesOn hg (by simp) rfl⟩
      simpa [hcfg] using hm
    · refine intInv_setInt_bh (hf.congr hcfg hpend) ?_
      simpa [phaseFacts, hcfg] using hm
  | accum =>
    cases hs
    have hclear := clear_within (Cfg.irq_lt h.wf hf.cur) hph hf.clear
    exact intInv_setInt_bhAdvance (f := { f with clear := _ }) ⟨hf.cur, hclear, hf.snap⟩
  | finish => cases hs; exact intInv_idle rfl

theorem firstDir_lt (hwf : s.cfg.wf = true) : firstDir.ch < s.cfg.nCh := Cfg.nCh_pos hwf

theorem Effect.intInv (h : InvFacts s) (hE : Effect s a t) : intInv t = true := by
  by_cases ha : a = .interrupt
  case neg => exact hE.moved.intInv_other h hE.confined ha
  cases hE with
  | merge hs => obtain ⟨m, rfl⟩ := mergeStep_ok hs; exact h.int
  | available d hd hs => obtain ⟨m, rfl⟩ := availableStep_ok hs; exact h.int
  | updIssue d hi hd hs => exact intInv_updReadStep (hasDir_iff.mp hd) hs
  | updPost d hi hd hs => cases hs; exact (intInv_updRead rfl).mpr (hasDir_iff.mp hd)
  | updRun d p hp hs => exact intInv_updStep h.int hp hs
  | topHalf hi hs =>
    obtain ⟨-, -, hp⟩ := topHalfStep_frame hs
    exact intInv_idle (hp.trans hi)
  | bhBegin hi hs =>
    cases hs
    exact intInv_setInt_bh ⟨firstDir_lt h.wf, BitVec.zero_and, snapshotMask_within _ _⟩ trivial
  | bhRun f p hp hs => exact intInv_bhStep h hp hs
  | startBegin => cases ha
  | startEnd => cases ha
  | stopBegin => cases ha
  | stopEnd => cases ha
  | irqEnable => cases ha
  | irqDisable => cases ha
  | svcIssue => cases ha
  | svcPost => cases ha
  | svcRun => cases ha

end Sys2Proof.Machine
end

section
/-! SUPPORT. Construction meets the block's invariant and every step keeps it. -/

namespace Sys2Proof.Machine

variable {s t : State} {a : AgentId}

/-- Every effect keeps the block's invariant, part by part. -/
theorem Effect.invFacts (h : InvFacts s) (hE : Effect s a t) : InvFacts t := by
  have hc := hE.confined
  have hm := hE.moved
  have hv := hm.serveFacts h hc
  have hi := hE.intInv h
  refine ⟨hc.cfg ▸ h.wf, ?_, fun q hq => ?_, hc.canon h.canon, fun n => (hv (.client n)).frame,
    fun n => (hv (.client n)).holds, hi, hm.lifeInv h hc.cfg⟩
  · show _ = _
    rw [hc.chans, hc.cfg, h.shaped]
  · have hqs : q.ch < s.cfg.nCh := hc.cfg ▸ hq
    have hr := (hm.dirMove q).recFacts h hqs
    have hl := hm.lifeAgrees h hqs
    exact ⟨hr.last, hr.le, hr.deferred, hr.claimed, hr.inert, hl.starting, hl.stopping, claimInv_of_serveFacts hv hi hq⟩

theorem Effect.blockInv (h : BlockInv s) (hE : Effect s a t) : BlockInv t := inv_iff.mpr (hE.invFacts (inv_iff.mp h))

/-- Settles O51: each effect keeps the parts of the invariant, and a fault's record is no part of it. -/
theorem everyStepKeepsTheInvariant : Obligations.EveryStepKeepsTheInvariant := by
  unfold Obligations.EveryStepKeepsTheInvariant
  intro s t h hs
  obtain ⟨i, p, k, a, u, p', -, -, rfl, hu⟩ := step_effect hs
  refine (blockInv_port u p').mpr ?_
  obtain hE | ⟨op, d, e, rfl, -, -⟩ := hu
  · exact hE.blockInv (s := { s with inputs := i, port := p, freeCount := k }) h
  · exact h

end Sys2Proof.Machine
end

section
/-! SUPPORT. Runs from construction. -/

namespace Sys2Proof.Machine

variable {s t : State}

theorem construct_dir (g : Cfg) (d : DirId) (h : d.ch < g.nCh) : (State.construct g).dir d = DirState.inert := by
  have hl : d.ch < g.chans.length := h
  unfold State.dir State.construct
  rw [List.getElem?_map, List.getElem?_eq_getElem hl]
  cases d.dir <;> rfl

theorem construct_shaped (g : Cfg) : (State.construct g).shaped := by
  simp [State.shaped, State.construct, Cfg.nCh]

theorem construct_agentIdle (g : Cfg) (a : AgentId) : (State.construct g).agentIdle a = true := by
  cases a <;> rfl

theorem construct_invFacts (g : Cfg) (h : g.wf = true) : InvFacts (State.construct g) where
  wf := h
  shaped := construct_shaped g
  dirs d hd := by
    have hx := construct_dir g d hd
    constructor <;> rw [hx] <;> simp [DirState.inert, State.construct, claimInv]
  canon := rfl
  frames n f hf := by cases hf
  claims n f hf := by cases hf
  int := rfl
  life := rfl

/-- Settles O49: every channel of the configuration gets the inert record, and the rest is as constructed. -/
theorem constructionIsInert : Obligations.ConstructionIsInert := by
  unfold Obligations.ConstructionIsInert
  refine fun g => ⟨rfl, construct_shaped g, fun d hd => ?_, rfl, rfl, rfl, rfl, rfl, construct_agentIdle g⟩
  rw [construct_dir g d hd]
  exact ⟨rfl, rfl, rfl, rfl, rfl, rfl, rfl⟩

/-- The invariant says nothing of what the environment has laid down. -/
theorem blockInv_environment (s : State) (xs : List Input) (vs : List U32) :
    BlockInv { s with inputs := xs, oracle := vs } ↔ BlockInv s := Iff.rfl

/-- Settles O50: inert records and Idle agents meet each part of the invariant. -/
theorem constructionMeetsTheInvariant : Obligations.ConstructionMeetsTheInvariant := by
  unfold Obligations.ConstructionMeetsTheInvariant
  exact fun g xs vs h => (blockInv_environment _ xs vs).mpr (inv_iff.mpr (construct_invFacts g h))

/-- What every step keeps holds at the end of a run. -/
theorem run_keeps {P : State → Prop} (hstep : ∀ s t, P s → step s = .next t → P t) {n : Nat} {s t : State} (hs : P s)
    (h : core.run n s = .next t) : P t := by
  induction n generalizing s with
  | zero => cases h; exact hs
  | succ n ih =>
    obtain ⟨u, hu, h⟩ := run_succ_eq_next h
    exact ih (hstep s u hs hu) h

/-- No fault record says that an availability was negative (R126). -/
def noNegative (s : State) : Prop := ∀ r, s.fault = some r → r.code ≠ .availableNegative

/-- A direction that the state does not hold reads as a record of zeros. -/
theorem swCount_of_missing {q : DirId} (h : ¬ q.ch < s.chans.length) : (s.dir q).swCount = 0#64 := by
  unfold State.dir
  rw [List.getElem?_eq_none (Nat.le_of_not_lt h)]
  cases q.dir <;> rfl

/-- Under the invariant no direction's availability is negative, whether or not the state holds it (R26). -/
theorem InvFacts.swCount_le (h : InvFacts s) (q : DirId) : (s.dir q).swCount.toNat ≤ (s.dir q).hwCount.toNat := by
  by_cases hq : q.ch < s.cfg.nCh
  · exact (h.dirs q hq).le
  · have hlen : ¬ q.ch < s.chans.length := by rwa [h.shaped]
    rw [swCount_of_missing hlen]
    exact Nat.zero_le _

theorem step_live (h : step s = .next t) : s.live := by
  obtain ⟨i, p, k, a, u, p', -, hl, -, -⟩ := step_effect h
  exact hl

/-- From a state that meets the invariant no step records `AvailableNegative` (R26, R155). -/
theorem step_noNegative (hi : BlockInv s) (h : step s = .next t) : noNegative t := by
  obtain ⟨i, p, k, a, u, p', -, hl, rfl, hu⟩ := step_effect h
  intro r hr
  obtain hE | ⟨op, d, e, rfl, -, hneg⟩ := hu
  · have hnone : u.fault = none := hE.confined.fault.trans hl.2
    simp [hnone] at hr
  · cases hr
    intro hcode
    obtain ⟨q, hq⟩ := hneg hcode
    exact absurd ((inv_iff.mp hi).swCount_le q) (Nat.not_le.mpr hq)

/-- Settles O53: a run of a well-formed configuration keeps the invariant, whose part R26 leaves no step that finds a
negative availability; an ill-formed configuration takes no step. -/
theorem noRunFindsNegativeAvailability : Obligations.NoRunFindsNegativeAvailability := by
  unfold Obligations.NoRunFindsNegativeAvailability
  intro g xs vs n t h
  by_cases hw : g.wf = true
  · obtain ⟨hi, hn⟩ := run_keeps (P := fun s => BlockInv s ∧ noNegative s)
      (fun s u hs hu => ⟨everyStepKeepsTheInvariant s u hs.1 hu, step_noNegative hs.1 hu⟩)
      ⟨constructionMeetsTheInvariant g xs vs hw, by simp [noNegative, State.construct]⟩ h
    exact ⟨fun d _ => (inv_iff.mp hi).swCount_le d, hn⟩
  · cases n with
    | zero =>
      cases h
      refine ⟨fun d hd => ?_, by simp [State.construct]⟩
      show ((State.construct g).dir d).swCount.toNat ≤ ((State.construct g).dir d).hwCount.toNat
      rw [construct_dir g d hd]
      exact Nat.le_refl _
    | succ n =>
      obtain ⟨u, hu, -⟩ := run_succ_eq_next h
      exact absurd (step_live hu).1 hw

end Sys2Proof.Machine
end

section
/-! SUPPORT. The registers that a step accesses (R51, R53, R70). -/

namespace Sys2Proof

variable {g : Cfg} {d : DirId} {off : U32}

/-- The seven registers of direction `d` (R70). -/
def Cfg.dirRegs (g : Cfg) (d : DirId) : List U32 :=
  [g.offLoopStatus d, g.offDirEnable d, g.offTableFlush d, g.offLoopMode d, g.offDescCtrl d, g.offDescAddrLo d,
    g.offDescAddrHi d]

/-- A register of the block: one of the three interrupt registers, or one of an existing direction's (R70). -/
def Cfg.HasReg (g : Cfg) (off : U32) : Prop :=
  off ∈ [g.offIntVector, g.offIntClear, g.offIntEnable] ∨ ∃ d, d.ch < g.nCh ∧ off ∈ g.dirRegs d

/-- A sum of multiples of 4 stays one modulo 2^32 (log entry 9). -/
theorem dvd_toNat_add {a b : U32} (ha : 4 ∣ a.toNat) (hb : 4 ∣ b.toNat) : 4 ∣ (a + b).toNat := by
  rw [BitVec.toNat_add]
  exact (Nat.dvd_mod_iff (by decide)).mpr (Nat.dvd_add ha hb)

theorem Cfg.offs_aligned (h : g.wf = true) (dir : Dir) : (g.offs dir).aligned = true := by
  obtain ⟨-, -, hoffs, -⟩ := Cfg.wf_iff.mp h
  obtain ⟨-, hdirs⟩ := Cfg.offsetsWf_iff.mp hoffs
  cases dir with
  | rd => exact hdirs _ (.head _)
  | wr => exact hdirs _ (.tail _ (.head _))

/-- The channel's base and the direction's offset are multiples of 4, so each register of the direction is (R51). -/
theorem Cfg.dirRegs_aligned (h : g.wf = true) (hd : d.ch < g.nCh) (ho : off ∈ g.dirRegs d) : 4 ∣ off.toNat := by
  have hbase : 4 ∣ (g.chan d.ch).base.toNat := Nat.dvd_of_mod_eq_zero (Cfg.base_aligned h hd)
  have hoffs := DirOffsets.aligned_iff.mp (Cfg.offs_aligned h d.dir)
  obtain ⟨o, hmem, rfl⟩ := (List.mem_map (l := [_, _, _, _, _, _, _]) (f := ((g.chan d.ch).base + ·))).mp ho
  exact dvd_toNat_add hbase (hoffs o hmem)

theorem Cfg.HasReg.aligned (h : g.wf = true) (hr : g.HasReg off) : 4 ∣ off.toNat := by
  obtain hint | ⟨d, hd, ho⟩ := hr
  · obtain ⟨-, -, hoffs, -⟩ := Cfg.wf_iff.mp h
    exact (Cfg.offsetsWf_iff.mp hoffs).1 off hint
  · exact Cfg.dirRegs_aligned h hd ho

end Sys2Proof

namespace Sys2Proof.Machine

variable {s t u : State} {a : AgentId} {d : DirId}

/-- A write is to a register of the block, a read of INT_VECTOR or of a direction's loop status (R53, R70). -/
def Event.Lawful (g : Cfg) : Event → Prop
  | .regRead off _ => off = g.offIntVector ∨ ∃ d, d.ch < g.nCh ∧ off = g.offLoopStatus d
  | .regWrite off _ => g.HasReg off
  | .copy .. => True
  | .settle .. => True
  | .complete .. => True
  | .deferred .. => True
  | .handled _ => True

/-- Each register access that `t`'s history adds to `s`'s is lawful. -/
def LawfulAccesses (s t : State) : Prop := ∀ e ∈ t.history.drop s.history.length, e.Lawful s.cfg

theorem LawfulAccesses.of_append {es : List Event} (h : t.history = s.history ++ es) (hes : ∀ e ∈ es, e.Lawful s.cfg) :
    LawfulAccesses s t := by
  rwa [LawfulAccesses, h, List.drop_left]

theorem LawfulAccesses.of_same (h : t.history = s.history) : LawfulAccesses s t :=
  .of_append (es := []) (by simpa using h) (List.forall_mem_nil _)

theorem LawfulAccesses.congr (h : LawfulAccesses s u) (ht : t.history = u.history) : LawfulAccesses s t := by
  rwa [LawfulAccesses, ht]

theorem LawfulAccesses.of_loopStatus (hd : d.ch < s.cfg.nCh)
    (h : t.history = (s.mmioRead (s.cfg.offLoopStatus d)).history) : LawfulAccesses s t :=
  .of_append (h.trans (State.history_mmioRead s _)) (List.forall_mem_singleton.mpr (.inr ⟨d, hd, rfl⟩))

theorem lawful_writeEvents {g : Cfg} {ws : List (U32 × U32)} :
    (∀ e ∈ writeEvents ws, e.Lawful g) ↔ ∀ w ∈ ws, g.HasReg w.1 :=
  List.forall_mem_map

/-- Each descriptor entry's three writes are to registers of its direction (R103, R104). -/
theorem startEntries_mem_dirRegs {g : Cfg} {w : U32 × U32} (h : w ∈ startEntries g d) : w.1 ∈ g.dirRegs d := by
  obtain ⟨i, -, hw⟩ := List.mem_flatMap.mp h
  simp only [descWrites, List.mem_cons, List.not_mem_nil, or_false] at hw
  obtain rfl | rfl | rfl := hw <;> simp [Cfg.dirRegs]

theorem hasReg_dir {g : Cfg} {off : U32} (hd : d.ch < g.nCh) (h : off ∈ g.dirRegs d) : g.HasReg off := .inr ⟨d, hd, h⟩

theorem LawfulAccesses.startEnd (hd : d.ch < s.cfg.nCh) (h : Machine.startEnd d s = .ok t) : LawfulAccesses s t := by
  cases h
  refine .of_append (es := writeEvents (startOpening s.cfg d ++ (startEntries s.cfg d ++
    [(s.cfg.offLoopMode d, s.cfg.valLoopOn), (s.cfg.offDirEnable d, s.cfg.valEnable)])))
    (by simp [writeEvents]) (lawful_writeEvents.mpr fun w hw => hasReg_dir hd ?_)
  obtain hopen | hw := List.mem_append.mp hw
  · simp only [startOpening, List.mem_cons, List.not_mem_nil, or_false] at hopen
    obtain rfl | rfl | rfl := hopen <;> simp [Cfg.dirRegs]
  · obtain hentry | hclose := List.mem_append.mp hw
    · exact startEntries_mem_dirRegs hentry
    · simp only [List.mem_cons, List.not_mem_nil, or_false] at hclose
      obtain rfl | rfl := hclose <;> simp [Cfg.dirRegs]

theorem LawfulAccesses.stopEnd (hd : d.ch < s.cfg.nCh) (h : Machine.stopEnd d s = .ok t) : LawfulAccesses s t := by
  cases h
  have hmode : s.cfg.HasReg (s.cfg.offLoopMode d) := hasReg_dir hd (by simp [Cfg.dirRegs])
  have hflush : s.cfg.HasReg (s.cfg.offTableFlush d) := hasReg_dir hd (by simp [Cfg.dirRegs])
  have henable : s.cfg.HasReg (s.cfg.offDirEnable d) := hasReg_dir hd (by simp [Cfg.dirRegs])
  refine .of_append (es := [.regWrite (s.cfg.offLoopMode d) s.cfg.valLoopOff,
    .regWrite (s.cfg.offTableFlush d) s.cfg.valFlush, .settle d.ch d.dir,
    .regWrite (s.cfg.offDirEnable d) s.cfg.valDisable, .regWrite (s.cfg.offTableFlush d) s.cfg.valFlush])
    (by simp [writeEvents]) ?_
  simp [Event.Lawful, hmode, hflush, henable]

theorem LawfulAccesses.stopBegin (h : Machine.stopBegin d s = .ok t) : LawfulAccesses s t := by
  obtain ⟨-, rfl⟩ := stopBegin_ok h
  refine .of_append (es := cancelEvents (s.dir d).deferred) (by simp) ?_
  cases (s.dir d).deferred <;> simp [cancelEvents, Event.Lawful]

theorem LawfulAccesses.irqEnable {n : Nat} (h : irqEnableStep n s = .ok t) : LawfulAccesses s t := by
  cases h
  exact .of_append (List.append_assoc ..) (by simp [Event.Lawful, Cfg.HasReg])

theorem LawfulAccesses.irqDisable {n : Nat} (h : irqDisableStep n s = .ok t) : LawfulAccesses s t := by
  cases h
  exact .of_append rfl (by simp [Event.Lawful, Cfg.HasReg])

/-- TOP_HALF reads INT_VECTOR and, when it was not zero, writes INT_CLEAR (R162, R163). -/
theorem LawfulAccesses.topHalf (h : topHalfStep s = .ok t) : LawfulAccesses s t := by
  cases h
  unfold topHalfCapture
  split
  · exact .of_append (es := [.regRead s.cfg.offIntVector s.nextDraw, .regWrite s.cfg.offIntClear s.nextDraw,
      .handled (handledFlag s.nextDraw)]) (by simp) (by simp [Event.Lawful, Cfg.HasReg])
  · exact .of_append (es := [.regRead s.cfg.offIntVector s.nextDraw, .handled (handledFlag s.nextDraw)]) (by simp)
      (by simp [Event.Lawful])

/-- The servicer accesses no register: its events are copies, completions and deferrals (R145, R148 to R150). -/
theorem SvcDid.lawfulAccesses {f : SvcFrame} {x : SvcNext} (h : SvcDid a s f u x) : LawfulAccesses s u := by
  cases h with
  | inactive => exact .of_append rfl (by simp [Event.Lawful])
  | enter => exact .of_same rfl
  | dry => exact .of_same rfl
  | snapshot => exact .of_same rfl
  | copy => exact .of_append rfl (by simp [Event.Lawful])
  | commit => exact .of_same rfl
  | outcome =>
    refine .of_append rfl (List.forall_mem_append.mpr ⟨?_, ?_⟩)
    · unfold displaceEvents
      split
      · split <;> simp [Event.Lawful]
      · simp
    · unfold outcomeEvent
      split <;> simp [Event.Lawful]

theorem LawfulAccesses.clientStep {n : Nat} {f : SvcFrame} (h : Machine.clientStep n f s = .ok t) :
    LawfulAccesses s t := by
  obtain ⟨u, f', hu, rfl⟩ | ⟨u, r, hu, rfl⟩ := clientStep_ok h <;>
    exact (svcStep_ok hu).lawfulAccesses.congr (by simp)

theorem LawfulAccesses.mergeStatus {st : U32} (h : Machine.mergeStatus d st s = .ok u) : LawfulAccesses s u := by
  obtain ⟨raw, m, -, -, rfl⟩ := mergeStatus_ok h
  exact .of_same rfl

theorem LawfulAccesses.updReadStep (hd : d.ch < s.cfg.nCh) (h : Machine.updReadStep d s = .ok t) :
    LawfulAccesses s t := by
  obtain ⟨-, rfl⟩ | ⟨-, rfl⟩ := updReadStep_ok h
  · exact .of_loopStatus hd rfl
  · exact .of_same rfl

theorem LawfulAccesses.updStep {p : UpdPhase} (hi : intInv s = true) (hp : s.intPhase = .upd d p)
    (h : Machine.updStep d p s = .ok t) : LawfulAccesses s t := by
  cases p with
  | read => exact .updReadStep ((intInv_updRead hp).mp hi) h
  | merge st =>
    obtain ⟨u, hu, rfl⟩ := updMergeStep_ok h
    exact LawfulAccesses.mergeStatus (u := u) hu

/-- A bottom half reads the loop status of its cursor's direction and accesses no other register (R168). -/
theorem LawfulAccesses.bhStep {f : BhFrame} {p : BhPhase} (hi : intInv s = true) (hp : s.intPhase = .bh f p)
    (h : Machine.bhStep f p s = .ok t) : LawfulAccesses s t := by
  cases p with
  | test => obtain ⟨-, rfl⟩ | ⟨-, rfl⟩ := bhTest_ok h <;> exact .of_same rfl
  | updRead =>
    obtain ⟨-, rfl⟩ | ⟨-, rfl⟩ := bhUpdRead_ok h
    · exact .of_loopStatus (bhFacts_of_intInv hp hi).cur rfl
    · exact .of_same rfl
  | updMerge st =>
    obtain ⟨u, hu, rfl⟩ := bhUpdMerge_ok h
    exact LawfulAccesses.mergeStatus (u := u) hu
  | deferCheck => obtain ⟨-, rfl⟩ | ⟨r, -, -, rfl⟩ := bhDeferCheck_ok h <;> exact .of_same rfl
  | svc v =>
    obtain ⟨u, v', hu, rfl⟩ | ⟨u, r, hu, rfl⟩ := bhSvc_ok h <;> exact (svcStep_ok hu).lawfulAccesses
  | accum => cases h; exact .of_same rfl
  | finish => cases h; exact .of_same rfl

/-- Under the invariant the register accesses of every effect are lawful. -/
theorem Effect.lawfulAccesses (h : InvFacts s) (hE : Effect s a t) : LawfulAccesses s t := by
  cases hE with
  | startBegin d hi hd hs => obtain ⟨-, -, rfl⟩ := startBegin_ok hs; exact .of_same rfl
  | startEnd d hp hs => exact .startEnd ((LifeMove.running hp).dir_lt h) hs
  | stopBegin d hi hd hs => exact .stopBegin hs
  | stopEnd d hp hs => exact .stopEnd ((LifeMove.stopped hp).dir_lt h) hs
  | irqEnable n hi hs => exact .irqEnable hs
  | irqDisable n hi hs => exact .irqDisable hs
  | merge hs => obtain ⟨m, rfl⟩ := mergeStep_ok hs; exact .of_same rfl
  | available d hd hs => obtain ⟨m, rfl⟩ := availableStep_ok hs; exact .of_same rfl
  | updIssue d hi hd hs => exact .updReadStep (hasDir_iff.mp hd) hs
  | updPost d hi hd hs => cases hs; exact .of_same rfl
  | updRun d p hp hs => exact .updStep h.int hp hs
  | topHalf hi hs => exact .topHalf hs
  | bhBegin hi hs => cases hs; exact .of_same rfl
  | bhRun f p hp hs => exact .bhStep h.int hp hs
  | svcIssue n d hi hd hs => exact .clientStep hs
  | svcPost n d hi hd hs => cases hs; exact .of_same rfl
  | svcRun n f hp hs => exact .clientStep hs

theorem step_lawfulAccesses (hi : BlockInv s) (h : step s = .next t) : LawfulAccesses s t := by
  obtain ⟨i, p, k, a, u, p', -, -, rfl, hu⟩ := step_effect h
  obtain hE | ⟨op, d, e, rfl, -, -⟩ := hu
  · exact hE.lawfulAccesses (t := u) (s := { s with inputs := i, port := p, freeCount := k }) (inv_iff.mp hi)
  · exact .of_same rfl

/-- Settles O58: every step accesses only registers of the block and reads only the two that R53 names, and a well-formed
configuration's registers are aligned. -/
theorem registerAccessesAreAlignedAndReadsAreTwo : Obligations.RegisterAccessesAreAlignedAndReadsAreTwo := by
  unfold Obligations.RegisterAccessesAreAlignedAndReadsAreTwo
  intro s t hi h e he
  have hlawful := step_lawfulAccesses hi h e he
  have hwf : s.cfg.wf = true := (inv_iff.mp hi).wf
  refine ⟨?_, ?_⟩
  · rintro off v rfl
    exact Cfg.HasReg.aligned hwf hlawful
  · rintro off v rfl
    refine ⟨?_, hlawful⟩
    obtain rfl | ⟨d, hd, rfl⟩ := hlawful
    · exact Cfg.HasReg.aligned hwf (.inl (.head _))
    · exact Cfg.dirRegs_aligned hwf hd (.head _)

end Sys2Proof.Machine
end

section
/-! SUPPORT. The command word field by field (R82, R83): a word is its five fields side by side, and a row of the opcode map
tests the fields that its operation does not use. -/

namespace Sys2Proof

/-- The five fields of a command word side by side, most significant first (R82). -/
def fieldsWord (op : U8) (ch : BitVec 8) (dir : BitVec 1) (rsv : BitVec 10) (irq : BitVec 5) : U32 :=
  op ++ ch ++ dir ++ rsv ++ irq

theorem append_inj {v w : Nat} {x x' : BitVec v} {y y' : BitVec w} : x ++ y = x' ++ y' ↔ x = x' ∧ y = y' := by
  refine ⟨fun h => ?_, fun ⟨hx, hy⟩ => hx ▸ hy ▸ rfl⟩
  have hx := congrArg (BitVec.extractLsb' w v) h
  have hy := congrArg (BitVec.extractLsb' 0 w) h
  simp only [BitVec.extractLsb'_append_eq_left, BitVec.extractLsb'_append_eq_right] at hx hy
  exact ⟨hx, hy⟩

section
variable (op op' : U8) (ch ch' : BitVec 8) (dir dir' : BitVec 1) (rsv rsv' : BitVec 10) (irq irq' : BitVec 5)

/-- Words agree exactly when each field does; the closing `rfl` is the sum of the fields' widths, 32. -/
theorem fieldsWord_inj :
    fieldsWord op ch dir rsv irq = fieldsWord op' ch' dir' rsv' irq' ↔
      op = op' ∧ ch = ch' ∧ dir = dir' ∧ rsv = rsv' ∧ irq = irq' := by
  rw [← and_assoc, ← and_assoc, ← and_assoc, ← append_inj, ← append_inj, ← append_inj, ← append_inj]
  rfl

theorem fieldsWord_and :
    fieldsWord op ch dir rsv irq &&& fieldsWord op' ch' dir' rsv' irq' =
      fieldsWord (op &&& op') (ch &&& ch') (dir &&& dir') (rsv &&& rsv') (irq &&& irq') := by
  simp only [fieldsWord, ← BitVec.and_append]

end

/-- A word is its own fields side by side. -/
theorem fieldsWord_self (w : U32) :
    fieldsWord (wordOp w) (w.extractLsb' 16 8) (w.extractLsb' 15 1) (wordRsv w) (w.extractLsb' 0 5) = w := by
  rw [fieldsWord, wordOp, wordRsv,
    BitVec.extractLsb'_append_extractLsb'_eq_extractLsb' (show 24 = 16 + 8 from rfl),
    BitVec.extractLsb'_append_extractLsb'_eq_extractLsb' (show 16 = 15 + 1 from rfl),
    BitVec.extractLsb'_append_extractLsb'_eq_extractLsb' (show 15 = 5 + 10 from rfl),
    BitVec.extractLsb'_append_extractLsb'_eq_extractLsb' (show 5 = 0 + 5 from rfl)]
  exact BitVec.extractLsb'_eq_self

theorem Dir.bit_inj {a b : Dir} : a.bit = b.bit ↔ a = b := by
  cases a <;> cases b <;> decide

theorem wordDir_bit (w : U32) : (wordDir w).bit = w.extractLsb' 15 1 := by
  have hbit : (w.extractLsb' 15 1) = BitVec.ofBool (w.getLsbD 15) := by
    apply BitVec.eq_of_getLsbD_eq
    intro i hi
    obtain rfl : i = 0 := by omega
    simp
  rw [hbit, wordDir]
  cases w.getLsbD 15 <;> rfl

theorem wordDir_eq_rd {w : U32} : wordDir w = .rd ↔ w.extractLsb' 15 1 = 0#1 := by
  rw [← Dir.bit_inj, wordDir_bit, Dir.bit]

theorem wordCh_eq_zero {w : U32} : wordCh w = 0 ↔ w.extractLsb' 16 8 = 0#8 := by
  rw [BitVec.toNat_eq]; rfl

theorem wordIrq_eq_zero {w : U32} : wordIrq w = 0 ↔ w.extractLsb' 0 5 = 0#5 := by
  rw [BitVec.toNat_eq]; rfl

theorem wordCh_lt (w : U32) : wordCh w < 256 := BitVec.isLt _

theorem wordIrq_lt (w : U32) : wordIrq w < 32 := BitVec.isLt _

theorem packWord_eq (op : Op) (ch : Nat) (dir : BitVec 1) (irq : Nat) :
    packWord op ch dir irq = fieldsWord op.code (.ofNat 8 ch) dir 0#10 (.ofNat 5 irq) := rfl

/-- A word whose reserved field is 0 is the packing of its own fields. -/
theorem packWord_self {w : U32} {op : Op} (hop : wordOp w = op.code) (hrsv : wordRsv w = 0#10) :
    packWord op (wordCh w) (wordDir w).bit (wordIrq w) = w := by
  rw [packWord_eq, wordCh, wordIrq, wordDir_bit, BitVec.ofNat_toNat, BitVec.ofNat_toNat, BitVec.setWidth_eq,
    BitVec.setWidth_eq, ← hop, ← hrsv, fieldsWord_self]

theorem packWord_ch_dir_irq (op : Op) (ch : Nat) (dir : Dir) (irq : Nat) :
    wordCh (packWord op ch dir.bit irq) = ch % 256 ∧ wordDir (packWord op ch dir.bit irq) = dir ∧
      wordIrq (packWord op ch dir.bit irq) = irq % 32 := by
  obtain ⟨-, hch, hdir, -, hirq⟩ :=
    (fieldsWord_inj ..).mp ((fieldsWord_self (packWord op ch dir.bit irq)).trans (packWord_eq ..))
  refine ⟨?_, Dir.bit_inj.mp ((wordDir_bit _).trans hdir), ?_⟩
  · rw [wordCh, hch, BitVec.toNat_ofNat]
  · rw [wordIrq, hirq, BitVec.toNat_ofNat]

/-! ## The opcode map -/

/-- The operation reads the word's channel and direction (R82, R83). -/
def Op.usesDir : Op → Bool
  | .start | .stop | .updateHw | .available | .service => true
  | .merge | .topHalf | .bottomHalf | .irqEnable | .irqDisable => false

/-- The operation reads the word's interrupt index (R82, R83). -/
def Op.usesIrq : Op → Bool
  | .irqEnable | .irqDisable => true
  | .start | .stop | .merge | .updateHw | .available | .service | .topHalf | .bottomHalf => false

/-- The word is a command of `op`, field by field: its opcode, and 0 in the reserved field and in each field that `op` does
not use (R86). -/
structure Op.Fits (op : Op) (w : U32) : Prop where
  code : wordOp w = op.code
  rsv : wordRsv w = 0#10
  chDir : op.usesDir = false → wordCh w = 0 ∧ wordDir w = .rd
  irq : op.usesIrq = false → wordIrq w = 0

/-- A row's mask on one field: all of it, unless the operation uses the field. -/
def tested (uses : Bool) (n : Nat) : BitVec n := if uses then 0#n else .allOnes n

theorem and_tested_eq_zero {uses : Bool} {n : Nat} {x : BitVec n} :
    x &&& tested uses n = 0#n ↔ (uses = false → x = 0#n) := by
  cases uses <;> simp [tested]

/-- Each row's pattern is its opcode alone, and its mask leaves out the fields that its operation uses. -/
theorem opRows_fields : ∀ r ∈ opRows,
    r.pat = fieldsWord r.op.code 0#8 0#1 0#10 0#5 ∧
    r.mask = fieldsWord (.allOnes 8) (tested r.op.usesDir 8) (tested r.op.usesDir 1) (.allOnes 10)
      (tested r.op.usesIrq 5) := by
  decide

/-- A row selects exactly the words that fit its operation (R83). -/
theorem selects_iff {r : OpRow} (hr : r ∈ opRows) (w : U32) : r.selects w = true ↔ r.op.Fits w := by
  obtain ⟨hpat, hmask⟩ := opRows_fields r hr
  have hfields : r.selects w = true ↔ wordOp w = r.op.code ∧
      (r.op.usesDir = false → wordCh w = 0) ∧ (r.op.usesDir = false → wordDir w = .rd) ∧
      wordRsv w = 0#10 ∧ (r.op.usesIrq = false → wordIrq w = 0) := by
    rw [OpRow.selects, beq_iff_eq, hpat, hmask, wordCh_eq_zero, wordDir_eq_rd, wordIrq_eq_zero]
    conv_lhs => rw [← fieldsWord_self w]
    rw [fieldsWord_and, fieldsWord_inj, BitVec.and_allOnes, BitVec.and_allOnes, and_tested_eq_zero, and_tested_eq_zero,
      and_tested_eq_zero]
  rw [hfields]
  exact ⟨fun ⟨hop, hch, hdir, hrsv, hirq⟩ => ⟨hop, hrsv, fun h => ⟨hch h, hdir h⟩, hirq⟩,
    fun ⟨hop, hrsv, hchDir, hirq⟩ => ⟨hop, fun h => (hchDir h).1, fun h => (hchDir h).2, hrsv, hirq⟩⟩

theorem Op.code_inj {a b : Op} (h : a.code = b.code) : a = b := by
  revert h
  cases a <;> cases b <;> decide

theorem Op.Fits.unique {a b : Op} {w : U32} (ha : a.Fits w) (hb : b.Fits w) : a = b :=
  Op.code_inj (ha.code.symm.trans hb.code)

theorem exists_row (op : Op) : ∃ r ∈ opRows, r.op = op := by
  cases op <;> decide

theorem row_eq_of_op_eq : ∀ r ∈ opRows, ∀ r' ∈ opRows, r.op = r'.op → r = r' := by decide

/-! ## The decoder and the encoder -/

theorem fits_of_find {w : U32} {r : OpRow} (h : opRows.find? (fun r => r.selects w) = some r) : r.op.Fits w :=
  (selects_iff (List.mem_of_find?_eq_some h) w).mp (List.find?_some (p := fun r : OpRow => r.selects w) h)

theorem decode_of_fits {op : Op} {w : U32} (h : op.Fits w) : decode w = .ok (op.instr w) := by
  unfold decode
  split
  · next r hfind => rw [(fits_of_find hfind).unique h]
  · next hnone =>
    obtain ⟨r, hr, rfl⟩ := exists_row op
    exact absurd ((selects_iff hr w).mpr h) (List.find?_eq_none.mp hnone r hr)

theorem decode_of_unfit {w : U32} (h : ∀ op : Op, ¬ op.Fits w) : decode w = .error (illegalReason w) := by
  unfold decode
  split
  · next r hfind => exact absurd (fits_of_find hfind) (h r.op)
  · rfl

theorem decode_eq_ok {w : U32} {i : Instr} : decode w = .ok i ↔ ∃ op : Op, op.Fits w ∧ i = op.instr w := by
  constructor
  · intro h
    by_cases hfit : ∃ op : Op, op.Fits w
    · obtain ⟨op, hop⟩ := hfit
      rw [decode_of_fits hop] at h
      exact ⟨op, hop, (Except.ok.inj h).symm⟩
    · rw [decode_of_unfit (not_exists.mp hfit)] at h
      cases h
  · rintro ⟨op, hop, rfl⟩
    exact decode_of_fits hop

theorem decode_eq_error {w : U32} : (∃ e, decode w = .error e) ↔ ∀ op : Op, ¬ op.Fits w := by
  constructor
  · rintro ⟨e, he⟩ op hop
    rw [decode_of_fits hop] at he
    cases he
  · exact fun h => ⟨_, decode_of_unfit h⟩

/-- The fields of an instruction's word: the channel, the direction and the interrupt index. -/
structure WordFields where
  ch : Nat
  dir : Dir
  irq : Nat

/-- What the word of an instruction holds in each field; 0 in those that its operation does not use (R82). -/
def Instr.fields : Instr → WordFields
  | .start ch dir | .stop ch dir | .updateHw ch dir | .available ch dir | .service ch dir => ⟨ch, dir, 0⟩
  | .merge | .topHalf | .bottomHalf => ⟨0, .rd, 0⟩
  | .irqEnable n | .irqDisable n => ⟨0, .rd, n⟩

theorem encode_eq_packWord (i : Instr) : encode i = packWord i.op i.fields.ch i.fields.dir.bit i.fields.irq := by
  cases i <;> rfl

theorem Instr.wf_iff {i : Instr} : i.wf = true ↔ i.fields.ch < 256 ∧ i.fields.irq < 32 := by
  cases i <;> simp [Instr.wf, Instr.fields, chFits, irqFits]

theorem Instr.fields_unused (i : Instr) : (i.op.usesDir = false → i.fields.ch = 0 ∧ i.fields.dir = .rd) ∧
    (i.op.usesIrq = false → i.fields.irq = 0) := by
  cases i <;> simp [Instr.op, Instr.fields, Op.usesDir, Op.usesIrq]

/-- An instruction is its operation and its fields. -/
theorem instr_eq_of_fields {i : Instr} {w : U32} (h : i.fields = ⟨wordCh w, wordDir w, wordIrq w⟩) :
    i.op.instr w = i := by
  cases i <;> simp_all [Instr.op, Instr.fields, Op.instr]

@[simp] theorem op_instr (op : Op) (w : U32) : (op.instr w).op = op := by
  cases op <;> rfl

theorem fields_instr {op : Op} {w : U32} (h : op.Fits w) :
    (op.instr w).fields = ⟨wordCh w, wordDir w, wordIrq w⟩ := by
  obtain ⟨-, -, hchDir, hirq⟩ := h
  cases op <;> simp_all [Op.instr, Instr.fields, Op.usesDir, Op.usesIrq]

theorem fields_encode {i : Instr} (h : i.wf = true) :
    i.fields = ⟨wordCh (encode i), wordDir (encode i), wordIrq (encode i)⟩ := by
  obtain ⟨hch, hirq⟩ := Instr.wf_iff.mp h
  obtain ⟨hc, hd, hn⟩ := packWord_ch_dir_irq i.op i.fields.ch i.fields.dir i.fields.irq
  rw [encode_eq_packWord, hc, hd, hn, Nat.mod_eq_of_lt hch, Nat.mod_eq_of_lt hirq]

theorem fits_encode {i : Instr} (h : i.wf = true) : i.op.Fits (encode i) := by
  obtain ⟨hchDir, hirq⟩ := i.fields_unused
  rw [fields_encode h] at hchDir hirq
  refine ⟨?_, ?_, hchDir, hirq⟩
  · rw [encode_eq_packWord, Laws.WordOp.packWord_op]
  · rw [encode_eq_packWord, Laws.WordOp.packWord_rsv]

theorem wf_instr {op : Op} {w : U32} (h : op.Fits w) : (op.instr w).wf = true := by
  rw [Instr.wf_iff, fields_instr h]
  exact ⟨wordCh_lt w, wordIrq_lt w⟩

theorem encode_instr {op : Op} {w : U32} (h : op.Fits w) : encode (op.instr w) = w := by
  rw [encode_eq_packWord, fields_instr h, op_instr]
  exact packWord_self h.code h.rsv

/-- Settles O2: an instruction's word fits its operation, and its fields are the instruction's own. -/
theorem decodeOfEncodeIsTheInstruction : Obligations.DecodeOfEncodeIsTheInstruction := by
  unfold Obligations.DecodeOfEncodeIsTheInstruction
  intro i h
  rw [decode_of_fits (fits_encode h), instr_eq_of_fields (fields_encode h)]

/-- Settles O3: a legal word fits the operation it decodes to, and is the packing of its own fields. -/
theorem encodeOfDecodeIsTheWord : Obligations.EncodeOfDecodeIsTheWord := by
  unfold Obligations.EncodeOfDecodeIsTheWord
  intro w i h
  obtain ⟨op, hop, rfl⟩ := decode_eq_ok.mp h
  exact ⟨wf_instr hop, encode_instr hop⟩

/-- Settles O4: a row selects the words that fit its operation, and a word fits at most one. -/
theorem everyWordDecodesToOneRowOrIsIllegal : Obligations.EveryWordDecodesToOneRowOrIsIllegal := by
  unfold Obligations.EveryWordDecodesToOneRowOrIsIllegal
  intro w
  by_cases hfit : ∃ op : Op, op.Fits w
  · obtain ⟨op, hop⟩ := hfit
    obtain ⟨r, hr, rfl⟩ := exists_row op
    refine .inl ⟨r, hr, (selects_iff hr w).mpr hop, decode_of_fits hop, fun r' hr' hsel => ?_⟩
    exact row_eq_of_op_eq r' hr' r hr (((selects_iff hr' w).mp hsel).unique hop)
  · have hnone := not_exists.mp hfit
    refine .inr ⟨fun r hr => ?_, decode_eq_error.mpr hnone⟩
    exact Bool.eq_false_iff.mpr fun hsel => hnone r.op ((selects_iff hr w).mp hsel)

/-- Settles O1, by running the decoder on each word of the vectors. -/
theorem decodeReadsTheSpecsWords : Obligations.DecodeReadsTheSpecsWords := by
  unfold Obligations.DecodeReadsTheSpecsWords
  decide

end Sys2Proof
end

section
/-! SUPPORT. Which words are illegal (R86), and what issuing a command answers (R81, R88). -/

namespace Sys2Proof

/-- The codes of the operations are 1 to 10 (R83). -/
theorem exists_code_iff {x : U8} : (∃ op : Op, x = op.code) ↔ x.toNat ≠ 0 ∧ x.toNat < 0x0B := by
  constructor
  · rintro ⟨op, rfl⟩
    cases op <;> decide
  · rintro ⟨hpos, hlt⟩
    have hx : x ∈ opRows.map fun r => r.op.code := by
      simp [opRows, Op.code, BitVec.toNat_eq]
      omega
    obtain ⟨r, -, hr⟩ := List.mem_map.mp hx
    exact ⟨r.op, hr.symm⟩

/-- A word that bears the opcode of `op` fails to fit `op` in one of R86's ways. -/
theorem Op.not_fits_iff {op : Op} {w : U32} (h : wordOp w = op.code) :
    ¬ op.Fits w ↔ wordRsv w ≠ 0#10 ∨ (op.usesDir = false ∧ (wordCh w ≠ 0 ∨ wordDir w ≠ .rd)) ∨
      (op.usesIrq = false ∧ wordIrq w ≠ 0) := by
  constructor
  · intro hfit
    by_contra hnone
    simp only [not_or, not_and, not_ne_iff] at hnone
    obtain ⟨hrsv, hchDir, hirq⟩ := hnone
    exact hfit ⟨h, hrsv, hchDir, hirq⟩
  · rintro (hrsv | ⟨huse, hch | hdir⟩ | ⟨huse, hirq⟩) hfit
    · exact hrsv hfit.rsv
    · exact hch (hfit.chDir huse).1
    · exact hdir (hfit.chDir huse).2
    · exact hirq (hfit.irq huse)

/-- R86's groups of opcodes, by the fields that an operation uses. -/
theorem Op.code_groups (op : Op) :
    (op.code.toNat ∈ [1, 2, 4, 5, 6] ↔ op.usesDir = true) ∧
    (op.code.toNat ∈ [3, 7, 8] ↔ op.usesDir = false ∧ op.usesIrq = false) ∧
    (op.code.toNat ∈ [9, 10] ↔ op.usesIrq = true) ∧ ¬ (op.usesDir = true ∧ op.usesIrq = true) := by
  cases op <;> decide

/-- A word is illegal exactly when its opcode is unassigned, or it does not fit the operation of its opcode. -/
theorem decode_error_iff_of_code {op : Op} {w : U32} (h : wordOp w = op.code) :
    (∃ e, decode w = .error e) ↔ ¬ op.Fits w := by
  rw [decode_eq_error]
  refine ⟨fun hnone => hnone op, fun hfit op' hop' => hfit ?_⟩
  rwa [Op.code_inj (h.symm.trans hop'.code)]

theorem decode_error_iff (w : U32) : (∃ e, decode w = .error e) ↔
    ((wordOp w).toNat = 0 ∨ 0x0B ≤ (wordOp w).toNat) ∨ wordRsv w ≠ 0#10 ∨
    ((wordOp w).toNat ∈ [1, 2, 4, 5, 6] ∧ wordIrq w ≠ 0) ∨
    ((wordOp w).toNat ∈ [3, 7, 8] ∧ (wordCh w ≠ 0 ∨ wordDir w ≠ .rd ∨ wordIrq w ≠ 0)) ∨
    ((wordOp w).toNat ∈ [9, 10] ∧ (wordCh w ≠ 0 ∨ wordDir w ≠ .rd)) := by
  by_cases hop : ∃ op : Op, wordOp w = op.code
  · have hassigned := exists_code_iff.mp hop
    obtain ⟨op, hop⟩ := hop
    obtain ⟨hdir, hnone, hirq, hboth⟩ := op.code_groups
    have hcode : ¬ ((wordOp w).toNat = 0 ∨ 0x0B ≤ (wordOp w).toNat) := by omega
    rw [decode_error_iff_of_code hop, Op.not_fits_iff hop, or_iff_right hcode, hop, hdir, hnone, hirq]
    cases hd : op.usesDir <;> cases hi : op.usesIrq
    · simp [or_assoc]
    · simp
    · simp
    · exact absurd ⟨hd, hi⟩ hboth
  · have hcode : (wordOp w).toNat = 0 ∨ 0x0B ≤ (wordOp w).toNat := by
      have := mt exists_code_iff.mpr hop
      omega
    exact iff_of_true (decode_eq_error.mpr fun op hfit => hop ⟨op, hfit.code⟩) (.inl hcode)

end Sys2Proof

namespace Sys2Proof.Machine

variable {s : State}

theorem step_issue {c : Call} {rest : List Input} (h : s.inputs = .issue c :: rest) :
    step s = released (issueWord { s with inputs := rest, port := c }) := by
  rw [step, h]; rfl

theorem issueWord_ok {i : Instr} (h : decode s.port.word = .ok i) : issueWord s = exec i s := by
  rw [issueWord, h]

theorem issueWord_error {e : Illegal} (hl : s.live) (h : decode s.port.word = .error e) : issueWord s =
    .next (s.raise s.port.agent (wordOp s.port.word) none ⟨.illegalCommand, s.port.word.zeroExtend 64⟩) := by
  rw [issueWord, h]
  exact guarded_of_live hl _

/-- Settles O5: a word that decodes to nothing fits no operation, and its issue is one fault. -/
theorem illegalWordsRaiseIllegalCommand : Obligations.IllegalWordsRaiseIllegalCommand := by
  unfold Obligations.IllegalWordsRaiseIllegalCommand
  refine ⟨decode_error_iff, fun s c rest e hl hin he => ?_⟩
  rw [step_issue hin, issueWord_error (s := { s with inputs := rest, port := c }) hl he]
  rfl

/-- Settles O6: the issued word is latched at the port, decoded and run, and the port is cleared. -/
theorem stepRunsTheDecodedInstruction : Obligations.StepRunsTheDecodedInstruction := by
  unfold Obligations.StepRunsTheDecodedInstruction
  intro s c rest i hin hi
  rw [step_issue hin, issueWord_ok (s := { s with inputs := rest, port := c }) hi]

/-! ## The checks at issue, one after another -/

section
variable {op : Op} {d : Option DirId} {body : State → Except Trap State}

theorem issue_wrongAgent (hl : s.live) (hm : mayIssue op s.port.agent = false) :
    issue op d body s = .next (s.faulted .wrongAgent op d (BitVec.ofNat 64 s.port.agent.cls)) := by
  simp [issue, guarded_of_live hl, hm, State.raise, State.faulted]

theorem issue_invalidChannel {q : DirId} (hl : s.live) (hm : mayIssue op s.port.agent = true)
    (hq : s.hasDir q = false) :
    issue op (some q) body s = .next (s.faulted .invalidChannel op none (BitVec.ofNat 64 q.ch)) := by
  simp [issue, guarded_of_live hl, hm, hq, State.raise, State.faulted]

theorem issue_notIdle (hl : s.live) (hm : mayIssue op s.port.agent = true) (hd : d.all s.hasDir = true)
    (hidle : s.agentIdle s.port.agent = false) : issue op d body s = .refused .agentNotIdle := by
  simp [issue, guarded_of_live hl, hm, hd, hidle]

/-- Past the checks, the first step answers a next state: its effect, or the fault that it detects. -/
theorem issue_ready_next (hr : s.ready) (hm : mayIssue op s.port.agent = true) (hd : d.all s.hasDir = true) :
    ∃ t, issue op d body s = .next t := by
  rw [issue_ready hr hm hd]
  exact ⟨_, rfl⟩

end

theorem all_hasDir {d : Option DirId} : d.all s.hasDir = true ↔ ∀ q, d = some q → q.ch < s.cfg.nCh := by
  cases d <;> simp [hasDir_iff]

/-- Settles O9: every meaning is the checks at issue, each of which answers only once those before it have passed. -/
theorem issueChecksComeInOrder : Obligations.IssueChecksComeInOrder := by
  unfold Obligations.IssueChecksComeInOrder
  refine fun s hl => ⟨fun e he => issueWord_error hl he, fun i hi => ?_⟩
  rw [issueWord_ok hi, exec_eq_issue]
  refine ⟨issue_wrongAgent hl, fun q hm hq hch => ?_, fun hm hd => issue_notIdle hl hm (all_hasDir.mpr hd),
    fun hm hd hidle => issue_ready_next ⟨hl, hidle⟩ hm (all_hasDir.mpr hd)⟩
  have hno : s.hasDir q = false := Bool.eq_false_iff.mpr fun h => absurd (hasDir_iff.mp h) (Nat.not_lt.mpr hch)
  rw [hq, issue_invalidChannel hl hm hno]

end Sys2Proof.Machine
end

section
/-! SUPPORT. The descriptor's control word bit by bit (R76 to R79), and the loop-status word as a number (R71, R72). -/

namespace Sys2Proof.Machine

variable {g : Cfg} {c : Nat}

theorem flagAt_bit (b : Bool) {pos : Nat} (j : Nat) (hp : pos < 32) :
    (flagAt b pos).getLsbD j = (b && decide (j = pos)) := by
  cases b
  · simp [flagAt]
  · rw [Bool.true_and, ← bitMask_bit j hp]; rfl

/-- A bit of the control word is one of the block size, or one of the two flags. -/
theorem descCtrl_bit (h : g.wf = true) (hc : c < g.nCh) (i j : Nat) :
    (descCtrl g c i).getLsbD j = ((g.blockSize c).testBit j || (noirq g c i && decide (j = g.descNoirqBit)) ||
      (notlast g c && decide (j = g.descNotlastBit))) := by
  obtain ⟨-, hdesc, -, -⟩ := Cfg.wf_iff.mp h
  obtain ⟨-, -, -, hnoirq, hnotlast⟩ := Cfg.descWf_iff.mp hdesc
  have hsize : (BitVec.ofNat 32 (g.blockSize c)).getLsbD j = (g.blockSize c).testBit j := by
    rw [← BitVec.testBit_toNat, BitVec.toNat_ofNat, Nat.mod_eq_of_lt (Cfg.blockSize_lt h hc)]
  rw [descCtrl, BitVec.getLsbD_or, BitVec.getLsbD_or, hsize, flagAt_bit _ _ (by omega), flagAt_bit _ _ (by omega)]

theorem blockSize_testBit (h : g.wf = true) (hc : c < g.nCh) {j : Nat} (hj : g.descSizeBits ≤ j) :
    (g.blockSize c).testBit j = false :=
  Nat.testBit_lt_two_pow ((Cfg.blockSize_lt_size h hc).trans_le (Nat.pow_le_pow_right (by decide) hj))

/-- Settles O15: above the size field the control word has the two flags' bits alone, each in its place. -/
theorem descriptorControlWordHoldsSizeAndFlags : Obligations.DescriptorControlWordHoldsSizeAndFlags := by
  unfold Obligations.DescriptorControlWordHoldsSizeAndFlags
  intro g c i h hc
  obtain ⟨-, hdesc, -, -⟩ := Cfg.wf_iff.mp h
  obtain ⟨hsizeNoirq, hsizeNotlast, hne, -, -⟩ := Cfg.descWf_iff.mp hdesc
  refine ⟨?_, ?_, ?_, fun j hj hnoirq hnotlast => ?_⟩
  · apply Nat.eq_of_testBit_eq
    intro j
    rw [Nat.testBit_mod_two_pow, BitVec.testBit_toNat, descCtrl_bit h hc]
    by_cases hj : j < g.descSizeBits
    · simp [hj, show j ≠ g.descNoirqBit by omega, show j ≠ g.descNotlastBit by omega]
    · simp [hj, blockSize_testBit h hc (Nat.le_of_not_lt hj)]
  · simp [descCtrl_bit h hc, blockSize_testBit h hc hsizeNoirq, hne, noirq]
  · simp [descCtrl_bit h hc, blockSize_testBit h hc hsizeNotlast, hne.symm, notlast]
  · simp [descCtrl_bit h hc, blockSize_testBit h hc hj, hnoirq, hnotlast]

/-- Settles O24: `CAP` is `2^k`, so the slot is the low `k` bits of the raw value and the epoch the bits above them. -/
theorem loopStatusDecodesBelowTheSpan : Obligations.LoopStatusDecodesBelowTheSpan := by
  unfold Obligations.LoopStatusDecodesBelowTheSpan
  intro g c status h hc
  obtain ⟨hcap, -⟩ := Cfg.cap_eq h hc
  obtain ⟨hepoch, hslot⟩ := status_halves status
  rw [← hepoch, ← hslot]
  refine ⟨fun hout => if_neg (Nat.not_lt.mpr hout), fun hin => ?_⟩
  have hraw : statusRaw (g.cap c) status = some (statusEpoch status * g.cap c + statusSlot status) := if_pos hin
  refine ⟨_, hraw, rfl, statusRaw_lt hcap hraw, ?_, ?_⟩
  · rw [← hcap, Nat.mul_add_mod_of_lt hin]
  · rw [← hcap, Nat.mul_comm, Nat.mul_add_div (Cfg.cap_pos h hc), Nat.div_eq_of_lt hin, Nat.add_zero]

end Sys2Proof.Machine
end

section
/-! SUPPORT. A command past the checks at issue (R88), and an operation of one issue and one further step. -/

namespace Sys2Proof.Machine

variable {s t u : State} {i : Instr} {rest : List Input}

/-- The checks at issue that an instruction of the agent at the port passes (R88). -/
structure PassesChecks (i : Instr) (s : State) : Prop where
  ready : s.ready
  permitted : mayIssue i.op s.port.agent = true
  inRange : ∀ d, i.dirId? = some d → d.ch < s.cfg.nCh

namespace PassesChecks

theorem exec_eq (h : PassesChecks i s) : exec i s = runStep s.port.agent i.op.code i.dirId? (firstStep i) s := by
  rw [exec_eq_issue, issue_ready h.ready h.permitted (all_hasDir.mpr h.inRange)]

theorem exec_ok (h : PassesChecks i s) (hstep : firstStep i s = .ok t) : exec i s = .next t := by
  rw [h.exec_eq, runStep_ok hstep]

theorem exec_error (h : PassesChecks i s) {code : FaultCode} {info : U64}
    (hstep : firstStep i s = .error ⟨code, info⟩) : exec i s = .next (s.faulted code i.op i.dirId? info) := by
  rw [h.exec_eq, runStep_error hstep]; rfl

end PassesChecks

/-- A well-formed configuration has no channel that the command word cannot carry (R7, R82). -/
theorem decode_encode_of_lt_nCh {d : DirId} (hwf : s.cfg.wf = true) (hd : d.ch < s.cfg.nCh)
    (hi : i.fields = ⟨d.ch, d.dir, 0⟩) : decode (encode i) = .ok i := by
  have hle := Cfg.nCh_le hwf
  exact decodeOfEncodeIsTheInstruction i (Instr.wf_iff.mpr (by simp only [hi]; omega))

/-- An operation of two steps, issued and run to its end (R81, R212): what holds of its second step's state. -/
theorem run_issue_then_agentStep {c : Call} {P : State → Prop} (hin : s.inputs = opInputs c 1 ++ rest)
    (hi : decode c.word = .ok i) (hfirst : exec i { s with inputs := .run c.agent :: rest, port := c } = .next u)
    (hu : u.inputs = .run c.agent :: rest)
    (hsecond : ∃ t, agentStep c.agent { u with inputs := rest, port := Call.vacant } = .next t ∧ P t) :
    ∃ t, core.run 2 s = .next t ∧ P t := by
  obtain ⟨t, hsecond, ht⟩ := hsecond
  have h1 : step s = .next u.release := by
    rw [step_issue hin, issueWord_ok (i := i) hi]
    exact congrArg released hfirst
  have h2 : step u.release = .next t := by
    rw [step, State.inputs_release, hu]
    exact hsecond
  exact ⟨t, by rw [run_next h1, run_next h2, run_zero], ht⟩

end Sys2Proof.Machine
end

section
/-! SUPPORT. START's and STOP's steps (R102, R103, R107, R108): when each begins, what each ending leaves, and the order of
its register writes. -/

namespace Sys2Proof.Machine

variable {s t u : State} {d q : DirId}

/-! ## The first steps -/

theorem passesChecks_start (hr : s.ready) (ha : s.port.agent = .lifecycle) (hd : d.ch < s.cfg.nCh) :
    PassesChecks (.start d.ch d.dir) s :=
  ⟨hr, by rw [ha]; rfl, fun _ hq => by cases hq; exact hd⟩

theorem passesChecks_stop (hr : s.ready) (ha : s.port.agent = .lifecycle) (hd : d.ch < s.cfg.nCh) :
    PassesChecks (.stop d.ch d.dir) s :=
  ⟨hr, by rw [ha]; rfl, fun _ hq => by cases hq; exact hd⟩

theorem startBegin_active (h : (s.dir d).st ≠ .stopped) :
    startBegin d s = .error ⟨.startWhileActive, (s.dir d).st.code⟩ := if_pos h

theorem startBegin_busy (h : (s.dir d).st = .stopped) (hb : s.busy d = true) :
    startBegin d s = .error ⟨.lifecycleRace, 0#64⟩ := by
  simp [startBegin, h, hb]

theorem startBegin_free (h : (s.dir d).st = .stopped) (hb : s.busy d = false) :
    startBegin d s = .ok ((s.updDir d (·.setSt .starting)).setLife (.startEnd d)) := by
  simp [startBegin, h, hb]

theorem stopBegin_busy (hb : s.busy d = true) : stopBegin d s = .error ⟨.lifecycleRace, 0#64⟩ := if_pos hb

theorem stopBegin_free (hb : s.busy d = false) : stopBegin d s =
    .ok (((s.updDir d (fun x => { x.setSt .stopping with deferred := none })).emits
      (cancelEvents (s.dir d).deferred)).setLife (.stopEnd d)) := by
  simp [stopBegin, hb]

/-- A Stopped direction of a block that meets the invariant is not busy (R102). -/
theorem not_busy_of_stopped (h : InvFacts s) (hd : d.ch < s.cfg.nCh) (hst : (s.dir d).st = .stopped) :
    s.busy d = false :=
  not_busy_iff.mpr (not_running_free h hd (by simp [hst]))

/-! ## The second steps -/

/-- What START_END appends to the history (R103). -/
def startEvents (g : Cfg) (d : DirId) : List Event :=
  writeEvents (startOpening g d) ++ (List.range (g.cap d.ch)).flatMap (fun i => writeEvents (descWrites g d i)) ++
    writeEvents [(g.offLoopMode d, g.valLoopOn), (g.offDirEnable d, g.valEnable)]

/-- What STOP_END appends to the history (R108). -/
def stopEvents (g : Cfg) (d : DirId) : List Event :=
  writeEvents [(g.offLoopMode d, g.valLoopOff), (g.offTableFlush d, g.valFlush)] ++ .settle d.ch d.dir ::
    writeEvents [(g.offDirEnable d, g.valDisable), (g.offTableFlush d, g.valFlush)]

/-- What a lifecycle operation's last step leaves: the direction in state `l` with its counters zeroed, the events, the
agent Idle with its completion delivered, and the rest as it was. -/
structure LifeEnd (d : DirId) (l : Life) (es : List Event) (s t : State) : Prop where
  dir : ∀ q, t.dir q = (s.updDir d (·.zeroed.setSt l)).dir q
  history : t.history = s.history ++ es
  frame : t = { s with chans := t.chans, lifePhase := .idle, history := t.history,
                       results := s.results ++ [(.lifecycle, .done)] }

namespace LifeEnd

variable {l : Life} {es : List Event}

theorem inputs (h : LifeEnd d l es s t) : t.inputs = s.inputs := by rw [h.frame]

theorem fault (h : LifeEnd d l es s t) : t.fault = s.fault := by rw [h.frame]

theorem lifePhase (h : LifeEnd d l es s t) : t.lifePhase = .idle := by rw [h.frame]

theorem dir_self (h : LifeEnd d l es s t) (hd : d.ch < s.chans.length) : t.dir d = (s.dir d).zeroed.setSt l := by
  rw [h.dir, State.dir_updDir_self s _ hd]

theorem dir_ne (h : LifeEnd d l es s t) (hq : q ≠ d) : t.dir q = s.dir q := by
  rw [h.dir, State.dir_updDir_ne s _ hq]

/-- Where the first step changed the record by `g`, the whole operation changes it by `g` and the ending. -/
theorem dir_after_updDir {g : DirState → DirState} (h : LifeEnd d l es u t) (hd : d.ch < s.chans.length)
    (hu : u.chans = (s.updDir d g).chans) :
    t.dir d = (g (s.dir d)).zeroed.setSt l ∧ ∀ q, q ≠ d → t.dir q = s.dir q := by
  have hudir (q : DirId) : u.dir q = (s.updDir d g).dir q := by rw [State.dir, hu, State.dir]
  refine ⟨?_, fun q hq => ?_⟩
  · rw [h.dir_self (by rwa [hu, State.chans_length_updDir]), hudir, State.dir_updDir_self s g hd]
  · rw [h.dir_ne hq, hudir, State.dir_updDir_ne s g hq]

end LifeEnd

theorem startEnd_lifeEnd (h : startEnd d s = .ok t) : LifeEnd d .running (startEvents s.cfg d) s t := by
  cases h
  exact ⟨fun q => State.dir_updDir_updDir s d q _ _,
    by simp [startEvents, startEntries, writeEvents, List.map_flatMap], rfl⟩

theorem stopEnd_lifeEnd (h : stopEnd d s = .ok t) : LifeEnd d .stopped (stopEvents s.cfg d) s t := by
  cases h
  exact ⟨fun _ => rfl, by simp [stopEvents], rfl⟩

theorem agentStep_startEnd (hl : s.live) (hp : s.lifePhase = .startEnd d) :
    ∃ t, agentStep .lifecycle s = .next t ∧ LifeEnd d .running (startEvents s.cfg d) s t := by
  obtain ⟨t, ht⟩ : ∃ t, startEnd d s = .ok t := ⟨_, rfl⟩
  refine ⟨t, ?_, startEnd_lifeEnd ht⟩
  rw [agentStep, guarded_of_live hl, hp]
  exact runStep_ok ht

theorem agentStep_stopEnd (hl : s.live) (hp : s.lifePhase = .stopEnd d) :
    ∃ t, agentStep .lifecycle s = .next t ∧ LifeEnd d .stopped (stopEvents s.cfg d) s t := by
  obtain ⟨t, ht⟩ : ∃ t, stopEnd d s = .ok t := ⟨_, rfl⟩
  refine ⟨t, ?_, stopEnd_lifeEnd ht⟩
  rw [agentStep, guarded_of_live hl, hp]
  exact runStep_ok ht

/-! ## The entry of a slot -/

/-- In a list laid out in blocks of `k`, the `j`-th element of block `i` stands at `k * i + j`. -/
theorem getElem?_flatMap_range {α : Type} {f : Nat → List α} {k : Nat} (hf : ∀ i, (f i).length = k) {n i j : Nat}
    (hi : i < n) (hj : j < k) : ((List.range n).flatMap f)[k * i + j]? = (f i)[j]? := by
  have hlen (m : Nat) : ((List.range m).flatMap f).length = k * m := by
    simp [List.length_flatMap, hf, Nat.mul_comm]
  induction n with
  | zero => omega
  | succ n ih =>
    rw [List.range_succ, List.flatMap_append, List.flatMap_singleton]
    obtain hlt | rfl := Nat.lt_succ_iff_lt_or_eq.mp hi
    · have : k * i + j < k * n := calc
        k * i + j < k * (i + 1) := by rw [Nat.mul_succ]; omega
        _ ≤ k * n := Nat.mul_le_mul_left k hlt
      rw [List.getElem?_append_left (by rwa [hlen]), ih hlt]
    · rw [List.getElem?_append_right (by rw [hlen]; omega), hlen, Nat.add_sub_cancel_left]

theorem length_startEvents (g : Cfg) (d : DirId) : (startEvents g d).length = 3 + 3 * g.cap d.ch + 2 := by
  simp [startEvents, startOpening, writeEvents, descWrites, List.length_flatMap]
  omega

/-- The entry of slot `i` follows the three opening writes and the entries of the slots before it. -/
theorem startEvents_entry {g : Cfg} {i j : Nat} (hi : i < g.cap d.ch) (hj : j < 3) :
    (startEvents g d)[3 + 3 * i + j]? = (writeEvents (descWrites g d i))[j]? := by
  have hentry : ((List.range (g.cap d.ch)).flatMap fun i => writeEvents (descWrites g d i))[3 * i + j]? =
      (writeEvents (descWrites g d i))[j]? := getElem?_flatMap_range (k := 3) (fun _ => rfl) hi hj
  have hopening : (writeEvents (startOpening g d)).length = 3 := rfl
  rw [startEvents, List.append_assoc, Nat.add_assoc, List.getElem?_append_right (by omega), hopening,
    Nat.add_sub_cancel_left, List.getElem?_append_left, hentry]
  simp [List.length_flatMap, writeEvents, descWrites]
  omega

theorem busHi_busLo (bus : U64) : (busHi bus).toNat * 2 ^ 32 + (busLo bus).toNat = bus.toNat := by
  have := bus.isLt
  simp only [busHi, busLo, BitVec.extractLsb'_toNat, Nat.shiftRight_eq_div_pow]
  omega

/-! ## The obligations -/

/-- Settles O12: START_BEGIN's checks come in R102's order, and the invariant frees a Stopped direction. -/
theorem startBeginFollowsItsRule : Obligations.StartBeginFollowsItsRule := by
  unfold Obligations.StartBeginFollowsItsRule
  intro s d hr hsh ha hd
  have hp := passesChecks_start hr ha hd
  have hactive {l : Life} (hst : (s.dir d).st = l) (hne : l ≠ .stopped) : exec (.start d.ch d.dir) s =
      .next (s.faulted .startWhileActive .start (some d) l.code) :=
    hst ▸ hp.exec_error (startBegin_active (hst ▸ hne))
  refine ⟨fun hst => hactive hst (by decide), fun hst => hactive hst (by decide), fun hst => hactive hst (by decide),
    fun hst hb => hp.exec_error (startBegin_busy hst hb),
    fun hst hb => ⟨_, hp.exec_ok (startBegin_free hst hb), ?_, fun q hq => ?_, rfl⟩,
    fun hinv hst => not_busy_of_stopped (inv_iff.mp hinv) hd hst⟩
  · exact State.dir_updDir_self s _ (shaped_ch hsh hd)
  · exact State.dir_updDir_ne s _ hq

/-- Settles O13: START_END is a lifecycle ending that makes R103's writes. -/
theorem startEndWritesTheRingAndZeroesTheCounters : Obligations.StartEndWritesTheRingAndZeroesTheCounters := by
  unfold Obligations.StartEndWritesTheRingAndZeroesTheCounters
  intro s d hl hsh hd hp
  obtain ⟨t, ht, hend⟩ := agentStep_startEnd hl hp
  exact ⟨t, startEvents s.cfg d, ht, hend.history, length_startEvents s.cfg d, rfl, hend.dir_self (shaped_ch hsh hd),
    fun q hq => hend.dir_ne hq, hend.frame⟩

/-- Settles O14: each slot's entry has three writes, so it stands behind the three opening ones and three for each slot
before it. -/
theorem descriptorEntriesCarryTheirOwnSlot : Obligations.DescriptorEntriesCarryTheirOwnSlot := by
  unfold Obligations.DescriptorEntriesCarryTheirOwnSlot
  intro s t d i hl hp hi ht
  obtain ⟨u, hu, hend⟩ := agentStep_startEnd hl hp
  cases ht.symm.trans hu
  rw [hend.history, List.drop_left]
  exact ⟨startEvents_entry (j := 0) hi (by decide), busLo (s.cfg.slotBus d i), busHi (s.cfg.slotBus d i),
    startEvents_entry hi (by decide), startEvents_entry hi (by decide), busHi_busLo _⟩

/-- Settles O16: a direction that is not busy is stopping whatever its state, and the cancelled request is the only event. -/
theorem stopBeginCancelsTheDeferredRequest : Obligations.StopBeginCancelsTheDeferredRequest := by
  unfold Obligations.StopBeginCancelsTheDeferredRequest
  intro s d hr hsh ha hd
  have hp := passesChecks_stop hr ha hd
  refine ⟨fun hb => hp.exec_error (stopBegin_busy hb),
    fun hb => ⟨_, hp.exec_ok (stopBegin_free hb), ?_, fun q hq => ?_, fun hdef => ?_, fun r hdef => ?_, rfl⟩⟩
  · exact State.dir_updDir_self s _ (shaped_ch hsh hd)
  · exact State.dir_updDir_ne s _ hq
  · simp [hdef, cancelEvents]
  · simp [hdef, cancelEvents]

/-- Settles O18: each operation is its beginning and its ending, and an empty deferred slot stays empty in between. -/
theorem startAndStopLeaveInertCounters : Obligations.StartAndStopLeaveInertCounters := by
  unfold Obligations.StartAndStopLeaveInertCounters
  intro s c rest d hinv hf hd hidle ha hin
  have h := inv_iff.mp hinv
  have hlen := shaped_ch h.shaped hd
  obtain ⟨a, w, o⟩ := c
  obtain rfl : a = .lifecycle := ha
  have hready : State.ready { s with inputs := .run .lifecycle :: rest, port := ⟨.lifecycle, w, o⟩ } :=
    ⟨⟨h.wf, hf⟩, agentIdle_lifecycle.mpr hidle⟩
  constructor
  · intro (hw : w = _) hst
    have hdeferred : (s.dir d).deferred = none := by
      by_contra hne
      simpa [hst] using (h.dirs d hd).deferred hne
    have hfree := not_busy_of_stopped h hd hst
    have hbegin := (passesChecks_start hready rfl hd).exec_ok (startBegin_free hst hfree)
    obtain ⟨t, hrun, hend⟩ := run_issue_then_agentStep hin (hw ▸ decode_encode_of_lt_nCh h.wf hd rfl) hbegin rfl
      (agentStep_startEnd (d := d) ⟨h.wf, hf⟩ rfl)
    obtain ⟨hself, hother⟩ := hend.dir_after_updDir hlen rfl
    refine ⟨t, hrun, hend.inputs, hend.fault.trans hf, hend.lifePhase, ?_⟩
    rw [hself]
    exact ⟨rfl, rfl, rfl, rfl, hdeferred, hother⟩
  · intro (hw : w = _) hb
    have hbegin := (passesChecks_stop hready rfl hd).exec_ok (stopBegin_free hb)
    obtain ⟨t, hrun, hend⟩ := run_issue_then_agentStep hin (hw ▸ decode_encode_of_lt_nCh h.wf hd rfl) hbegin rfl
      (agentStep_stopEnd (d := d) ⟨h.wf, hf⟩ rfl)
    obtain ⟨hself, hother⟩ := hend.dir_after_updDir hlen rfl
    refine ⟨t, hrun, hend.inputs, hend.fault.trans hf, hend.lifePhase, ?_⟩
    rw [hself]
    exact ⟨rfl, rfl, rfl, rfl, rfl, rfl, hother⟩

/-- Settles O17: STOP_END is a lifecycle ending that makes R108's writes around the settling wait. -/
theorem stopEndDisablesAndZeroesTheCounters : Obligations.StopEndDisablesAndZeroesTheCounters := by
  unfold Obligations.StopEndDisablesAndZeroesTheCounters
  intro s d hl hsh hd hp
  obtain ⟨t, ht, hend⟩ := agentStep_stopEnd hl hp
  refine ⟨t, ht, hend.dir_self (shaped_ch hsh hd), fun q hq => hend.dir_ne hq, ?_⟩
  have hframe := hend.frame
  rwa [hend.history] at hframe

end Sys2Proof.Machine
end

section
/-! SUPPORT. A client's call that waits at `Enter` (R109, R141). -/

namespace Sys2Proof.Machine

variable {s t : State} {n : Nat} {d : DirId} {f : SvcFrame}

theorem passesChecks_service (hr : s.ready) (ha : s.port.agent = .client n) (hd : d.ch < s.cfg.nCh) :
    PassesChecks (.service d.ch d.dir) s :=
  ⟨hr, by rw [ha]; rfl, fun _ hq => by cases hq; exact hd⟩

/-- The frame of a client plays no part in whether a direction is busy (R44). -/
@[simp] theorem State.busy_setClient (s : State) (n : Nat) (o : Option SvcFrame) (q : DirId) :
    (s.setClient n o).busy q = s.busy q := by
  simp [State.busy]

theorem State.setClient_updDir (s : State) (n : Nat) (o : Option SvcFrame) (d : DirId) (g : DirState → DirState) :
    (s.setClient n o).updDir d g = (s.updDir d g).setClient n o := by
  cases o <;> rfl

theorem State.setClient_emit (s : State) (n : Nat) (o : Option SvcFrame) (e : Event) :
    (s.setClient n o).emit e = (s.emit e).setClient n o := by
  cases o <;> rfl

/-- The last frame that a client is given is its frame. -/
theorem State.setClient_setClient (s : State) (n : Nat) (f : SvcFrame) (o : Option SvcFrame) :
    (s.setClient n (some f)).setClient n o = s.setClient n o := by
  cases o <;> simp [State.setClient]

theorem agentStep_client (hl : s.live) (hf : s.client n = some f) :
    agentStep (.client n) s = runStep (.client n) Op.service.code (some f.d) (clientStep n f) s := by
  simp only [agentStep, hf, guarded_of_live hl]

/-- A posted SERVICE leaves its frame at `Enter`. -/
theorem postWord_service (hr : s.ready) (ha : s.port.agent = .client n) (hd : d.ch < s.cfg.nCh)
    (hw : s.port.word = encode (.service d.ch d.dir)) :
    postWord s = .next (s.setClient n (some (serviceFrame d s.port.operands))) := by
  have hp := passesChecks_service hr ha hd
  have hdec : decode s.port.word = .ok (.service d.ch d.dir) := hw ▸ decode_encode_of_lt_nCh hr.1.1 hd rfl
  rw [postWord, hdec]
  exact (issue_ready hr hp.permitted (all_hasDir.mpr hp.inRange)).trans (runStep_ok (by rw [postService, ha]))

/-- `Enter` answers the same whether or not the client's frame is waiting in the list already. -/
theorem clientStep_enter_setClient (g : SvcFrame) (hf : f.ph = .enter) :
    clientStep n f (s.setClient n (some g)) = clientStep n f s := by
  simp only [clientStep, svcStep, hf, svcEnter, State.dir_setClient, State.cfg_setClient]
  by_cases hrun : (s.dir f.d).st = .running
  · cases hclaim : (s.dir f.d).claim with
    | none => simp [hrun, State.setClient_updDir, State.setClient_setClient]
    | some holder => simp [hrun]
  · simp [hrun, State.setClient_emit, State.setClient_setClient]

/-- Settles O60: a posted call is only a frame in the client list, and `Enter` overwrites it. -/
theorem aWaitingCallEntersLater : Obligations.AWaitingCallEntersLater := by
  unfold Obligations.AWaitingCallEntersLater
  constructor
  · intro s n d hr ha hd hw
    exact ⟨_, postWord_service hr ha hd hw, fun q => ⟨State.dir_setClient .., State.busy_setClient ..⟩,
      State.history_setClient .., State.client_setClient_self ..⟩
  · intro s t n d hr ha hd hexec
    have hstep : firstStep (.service d.ch d.dir) s = clientStep n (serviceFrame d s.port.operands) s := by
      simp only [firstStep, serviceStep, ha]
    have hpassed := passesChecks_service hr ha hd
    have hlive : (s.setClient n (some (serviceFrame d s.port.operands))).live := hr.1
    rw [agentStep_client hlive (State.client_setClient_self ..)]
    cases hbody : clientStep n (serviceFrame d s.port.operands) s with
    | ok u =>
      cases hexec.symm.trans (hpassed.exec_ok (hstep.trans hbody))
      rw [if_pos ((Confined.clientStep hbody).fault.trans hr.1.2)]
      exact runStep_ok ((clientStep_enter_setClient _ rfl).trans hbody)
    | error e =>
      cases hexec.symm.trans (hpassed.exec_error (hstep.trans hbody))
      rw [if_neg (by simp [State.faulted]), runStep_error ((clientStep_enter_setClient _ rfl).trans hbody)]
      simp only [State.faulted, ha]
      rfl

end Sys2Proof.Machine
end

section
/-! SUPPORT. The merge as the count that its sample stands for within one span of the old count (R127 to R130), and
MERGE's outcomes (R122). -/

namespace Sys2Proof.Machine

/-! ## The merge in arithmetic -/

section
variable {last raw k T0 T1 : Nat} {m : U64}

theorem mergeNat_mod (hraw : raw < 2 ^ (k + 16)) : mergeNat last raw k % 2 ^ (k + 16) = raw := by
  unfold mergeNat
  split <;> simp [Nat.mod_eq_of_lt hraw]

theorem mergeNat_lt (hraw : raw < 2 ^ (k + 16)) : mergeNat last raw k < last + 2 ^ (k + 16) := by
  have hdiv := Nat.div_add_mod' last (2 ^ (k + 16))
  unfold mergeNat
  split <;> omega

/-- Of a true advance a merge sees what is left of it below one span (R129). -/
theorem mergeNat_sample (k : Nat) (h : T0 ≤ T1) :
    mergeNat T0 (T1 % 2 ^ (k + 16)) k = T0 + (T1 - T0) % 2 ^ (k + 16) := by
  have hraw : T1 % 2 ^ (k + 16) < 2 ^ (k + 16) := Nat.mod_lt _ (Nat.two_pow_pos _)
  have hge := le_mergeNat T0 (T1 % 2 ^ (k + 16)) k
  have hlt := mergeNat_lt (last := T0) hraw
  have hmod : mergeNat T0 (T1 % 2 ^ (k + 16)) k ≡ T1 [MOD 2 ^ (k + 16)] := mergeNat_mod hraw
  generalize mergeNat T0 (T1 % 2 ^ (k + 16)) k = m at hge hlt hmod ⊢
  have hadvance : m - T0 ≡ T1 - T0 [MOD 2 ^ (k + 16)] := by
    apply Nat.ModEq.add_left_cancel' T0
    rwa [Nat.add_sub_cancel' hge, Nat.add_sub_cancel' h]
  calc m = T0 + (m - T0) := (Nat.add_sub_cancel' hge).symm
    _ = T0 + (m - T0) % 2 ^ (k + 16) := by rw [Nat.mod_eq_of_lt (by omega)]
    _ = T0 + (T1 - T0) % 2 ^ (k + 16) := congrArg (T0 + ·) hadvance

/-- Merging the sample that a count stands at keeps the count (R129). -/
theorem mergeNat_self (T k : Nat) : mergeNat T (T % 2 ^ (k + 16)) k = T := by
  rw [mergeNat_sample k (Nat.le_refl T), Nat.sub_self, Nat.zero_mod, Nat.add_zero]

/-- A merge keeps the count exactly for the sample that the count stands at (R127). -/
theorem mergeNat_eq_self_iff (hraw : raw < 2 ^ (k + 16)) : mergeNat last raw k = last ↔ raw = last % 2 ^ (k + 16) := by
  constructor
  · intro h
    rw [← h, mergeNat_mod hraw]
  · rintro rfl
    exact mergeNat_self last k

/-- The merge of a sample taken from a true count within 64 bits (R128, R129). -/
theorem merge_sample_ok_iff (hk : k ≤ 16) (hle : T0 ≤ T1) (h0 : T0 < 2 ^ 64) :
    merge (BitVec.ofNat 64 T0) (T1 % 2 ^ (k + 16)) k = .ok m ↔ m.toNat = T0 + (T1 - T0) % 2 ^ (k + 16) := by
  rw [merge_ok_iff _ _ hk (Nat.mod_lt _ (Nat.two_pow_pos _)), BitVec.toNat_ofNat, Nat.mod_eq_of_lt h0,
    mergeNat_sample k hle]

/-- A merge answers the count `T` where its sample stands for `T` (R128, R129). -/
theorem merge_sample_eq_ofNat {T : Nat} (hk : k ≤ 16) (hle : T0 ≤ T1) (hT : T < 2 ^ 64)
    (h : T0 + (T1 - T0) % 2 ^ (k + 16) = T) :
    merge (BitVec.ofNat 64 T0) (T1 % 2 ^ (k + 16)) k = .ok (BitVec.ofNat 64 T) := by
  rw [merge_sample_ok_iff hk hle (by omega), BitVec.toNat_ofNat, Nat.mod_eq_of_lt hT, h]

/-- Settles O19: a merge keeps the count exactly for the sample that the count stands at. -/
theorem mergeNeverLowersTheCount : Obligations.MergeNeverLowersTheCount := by
  unfold Obligations.MergeNeverLowersTheCount
  intro last m raw k hk hraw hm
  have hval := (merge_ok_iff last m hk hraw).mp hm
  rw [← BitVec.toNat_inj, hval]
  exact ⟨le_mergeNat _ _ _, mergeNat_eq_self_iff hraw⟩

/-- Settles O20: an advance below one span is left whole. -/
theorem mergeIsExactBelowOneSpan : Obligations.MergeIsExactBelowOneSpan := by
  unfold Obligations.MergeIsExactBelowOneSpan
  intro T0 T1 k hk hle hlt h1
  refine merge_sample_eq_ofNat hk hle h1 ?_
  rw [Nat.mod_eq_of_lt (by omega), Nat.add_sub_cancel' hle]

/-- Settles O21: what a merge loses of the advance is the advance less its remainder below one span. -/
theorem mergeLosesWholeSpansOnly : Obligations.MergeLosesWholeSpansOnly := by
  unfold Obligations.MergeLosesWholeSpansOnly
  intro T0 T1 k hk hle h0
  have hrem : (T1 - T0) % 2 ^ (k + 16) ≤ T1 - T0 := Nat.mod_le _ _
  refine ⟨fun m hm => ?_, fun h1 => ⟨_, merge_sample_eq_ofNat hk hle (by omega) rfl⟩, ?_⟩
  · have hval := (merge_sample_ok_iff hk hle h0).mp hm
    have hspan : (T1 - T0) % 2 ^ (k + 16) < 2 ^ (k + 16) := Nat.mod_lt _ (Nat.two_pow_pos _)
    refine ⟨by omega, ?_, by omega⟩
    rw [hval, Nat.sub_add_eq]
    exact Nat.dvd_sub_mod _
  · rintro rfl
    exact merge_sample_eq_ofNat hk hle h0 (by simp)

/-- Settles O22: after the merge the count stands at the sample. -/
theorem mergeIsIdempotent : Obligations.MergeIsIdempotent := by
  unfold Obligations.MergeIsIdempotent
  intro l m r k hk hr hm
  have hval := (merge_ok_iff l m hk hr).mp hm
  have hstands : r = m.toNat % 2 ^ (k + 16) := by rw [hval, mergeNat_mod hr]
  rw [merge_ok_iff m m hk hr]
  exact ((mergeNat_eq_self_iff hr).mpr hstands).symm

end

/-! ## MERGE -/

variable {s : State} {k : Nat}

theorem passesChecks_merge (hr : s.ready) : PassesChecks .merge s :=
  ⟨hr, rfl, fun _ hq => nomatch hq⟩

theorem mergeOperands_capacity {o : OperandRecord} (h : ∀ k ≤ 16, o.capacity.toNat ≠ 2 ^ k) :
    mergeOperands o = .error ⟨.mergeArgument, o.capacity.zeroExtend 64⟩ := by
  rw [mergeOperands, capLog2_eq_none.mpr h]

theorem mergeOperands_legal {o : OperandRecord} (hk : k ≤ 16) (h : o.capacity.toNat = 2 ^ k) :
    mergeOperands o = if o.raw.toNat < 2 ^ (k + 16) then .ok k else .error ⟨.mergeArgument, o.raw.zeroExtend 64⟩ := by
  rw [mergeOperands, capLog2_eq_some.mpr ⟨hk, h⟩]
  rfl

theorem mergeStep_refused {e : Trap} (h : mergeOperands s.port.operands = .error e) : mergeStep s = .error e := by
  rw [mergeStep, h]

/-- With legal operands MERGE is the merge and the delivery of its result. -/
theorem mergeStep_legal (hk : k ≤ 16) (hcap : s.port.operands.capacity.toNat = 2 ^ k)
    (hraw : s.port.operands.raw.toNat < 2 ^ (k + 16)) :
    mergeStep s = (merge s.port.operands.last s.port.operands.raw.toNat k).map
      fun m => s.deliver s.port.agent (.merged m) := by
  simp only [mergeStep, mergeOperands_legal hk hcap, if_pos hraw]
  cases merge s.port.operands.last s.port.operands.raw.toNat k <;> rfl

/-- Settles O23: MERGE's checks come in R122's order, and past them it answers the merge. -/
theorem mergeCommandDeliversTheMerge : Obligations.MergeCommandDeliversTheMerge := by
  unfold Obligations.MergeCommandDeliversTheMerge
  intro s hr
  have hp := passesChecks_merge hr
  refine ⟨fun hcap => hp.exec_error (mergeStep_refused (mergeOperands_capacity hcap)), fun k hk hcap =>
    ⟨fun hraw => hp.exec_error (mergeStep_refused ?_), fun hraw =>
      ⟨mergeNat s.port.operands.last.toNat s.port.operands.raw.toNat k, rfl, fun hover => hp.exec_error ?_,
        fun hfits => hp.exec_ok ?_⟩⟩⟩
  · rw [mergeOperands_legal hk hcap, if_neg (Nat.not_lt.mpr hraw)]
  · rw [firstStep, mergeStep_legal hk hcap hraw, merge_eq _ hk hraw, if_neg (Nat.not_lt.mpr hover)]
    rfl
  · rw [firstStep, mergeStep_legal hk hcap hraw, merge_eq _ hk hraw, if_pos hfits]
    rfl

end Sys2Proof.Machine
end

section
/-! SUPPORT. AVAILABLE (R126), the two steps of UPDATE_HW (R123 to R125), and the sequence of updates under the
hardware's contract (R131, R132). -/

namespace Sys2Proof.Machine

variable {s t : State} {d : DirId}

/-! ## AVAILABLE -/

theorem passesChecks_available (hr : s.ready) (hd : d.ch < s.cfg.nCh) : PassesChecks (.available d.ch d.dir) s :=
  ⟨hr, rfl, fun _ hq => by cases hq; exact hd⟩

theorem availableStep_of_le (h : (s.dir d).swCount.toNat ≤ (s.dir d).hwCount.toNat) : availableStep d s =
    .ok (s.deliver s.port.agent (.available (BitVec.ofNat 64 ((s.dir d).hwCount.toNat - (s.dir d).swCount.toNat)))) := by
  rw [availableStep, availableOf_ok.mpr ⟨h, rfl⟩]

theorem availableStep_of_lt (h : (s.dir d).hwCount.toNat < (s.dir d).swCount.toNat) : availableStep d s =
    .error ⟨.availableNegative, BitVec.ofNat 64 ((s.dir d).swCount.toNat - (s.dir d).hwCount.toNat)⟩ := by
  have hshort : (s.dir d).swCount - (s.dir d).hwCount =
      BitVec.ofNat 64 ((s.dir d).swCount.toNat - (s.dir d).hwCount.toNat) := by bv_omega
  rw [availableStep, availableOf_error.mpr ⟨h, rfl⟩, hshort]

/-- Settles O28: AVAILABLE compares the counters and answers their difference; a Stopped direction's are both 0. -/
theorem availableReturnsTheDifference : Obligations.AvailableReturnsTheDifference := by
  unfold Obligations.AvailableReturnsTheDifference
  intro s d hr hd
  have hp := passesChecks_available hr hd
  refine ⟨fun hle => hp.exec_ok (availableStep_of_le hle), fun hlt => hp.exec_error (availableStep_of_lt hlt),
    fun hinv hst => ?_⟩
  have hdir := (inv_iff.mp hinv).dirs d hd
  obtain ⟨hhw, hsw⟩ := hdir.inert (.inl hst)
  rw [hp.exec_ok (availableStep_of_le hdir.le), hhw, hsw]
  rfl

/-! ## The read step -/

theorem passesChecks_updateHw (hr : s.ready) (ha : s.port.agent = .interrupt) (hd : d.ch < s.cfg.nCh) :
    PassesChecks (.updateHw d.ch d.dir) s :=
  ⟨hr, by rw [ha]; rfl, fun _ hq => by cases hq; exact hd⟩

theorem State.oracle_drawn (s : State) : s.drawn.oracle = s.oracle.tail := by
  unfold State.drawn
  split <;> simp [*]

theorem State.freeCount_drawn (h : s.oracle ≠ []) : s.drawn.freeCount = s.freeCount := by
  unfold State.drawn
  split
  · rfl
  · contradiction

theorem State.head?_oracle (h : s.oracle ≠ []) : s.oracle.head? = some s.nextDraw := by
  unfold State.nextDraw
  split
  · simp [*]
  · contradiction

theorem State.nextDraw_of_cons {v : U32} {vs : List U32} (h : s.oracle = v :: vs) : s.nextDraw = v := by
  rw [State.nextDraw, h]

/-- A register read changes the history and the environment's answers, and nothing else (R53). -/
theorem State.mmioRead_eq (s : State) (off : U32) : s.mmioRead off =
    { s with history := s.history ++ [.regRead off s.nextDraw], oracle := s.oracle.tail,
             freeCount := s.drawn.freeCount } := by
  rw [← State.oracle_drawn]
  unfold State.mmioRead State.emit State.drawn
  split <;> rfl

theorem State.setInt_self {p : IntPhase} (h : s.intPhase = p) : s.setInt p = s := by
  subst h
  rfl

theorem updReadStep_running (h : (s.dir d).st = .running) : updReadStep d s =
    .ok ((s.mmioRead (s.cfg.offLoopStatus d)).setInt (.upd d (.merge s.nextDraw))) := if_pos h

theorem updReadStep_notRunning (h : (s.dir d).st ≠ .running) :
    updReadStep d s = .ok ((s.setInt .idle).deliver .interrupt .done) := if_neg h

/-- Settles O25: a Running direction's read is one draw, held in the phase; another direction's is only a completion. -/
theorem updateHwReadsTheLoopStatus : Obligations.UpdateHwReadsTheLoopStatus := by
  unfold Obligations.UpdateHwReadsTheLoopStatus
  intro s d hr ha hd
  have hp := passesChecks_updateHw hr ha hd
  have hidle : s.intPhase = .idle := agentIdle_interrupt.mp (ha ▸ hr.2)
  constructor
  · intro hst
    refine ⟨_, hp.exec_ok (updReadStep_running hst), ?_⟩
    rw [State.mmioRead_eq]
    exact ⟨rfl, rfl, fun hne => ⟨State.freeCount_drawn hne, State.head?_oracle hne⟩⟩
  · intro hst
    rw [hp.exec_ok (updReadStep_notRunning hst), State.setInt_self hidle]
    rfl

/-! ## The merge step -/

theorem agentStep_upd {p : UpdPhase} (hl : s.live) (hp : s.intPhase = .upd d p) :
    agentStep .interrupt s = runStep .interrupt Op.updateHw.code (some d) (updStep d p) s := by
  simp only [agentStep, hp, guarded_of_live hl]

theorem agentStep_bh {f : BhFrame} {p : BhPhase} (hl : s.live) (hp : s.intPhase = .bh f p) :
    agentStep .interrupt s = runStep .interrupt Op.bottomHalf.code none (bhStep f p) s := by
  simp only [agentStep, hp, guarded_of_live hl]

section
variable {status : U32} {raw : Nat}

theorem updMergeStep_slotRange (h : statusRaw (s.cfg.cap d.ch) status = none) :
    updMergeStep d status s = .error ⟨.loopStatusSlotRange, status.zeroExtend 64⟩ := by
  simp only [updMergeStep, mergeStatus, h]

theorem updMergeStep_overflow {e : Trap} (h : statusRaw (s.cfg.cap d.ch) status = some raw)
    (he : merge2 (s.dir d).hwCount (s.dir d).hwCountLast raw (s.cfg.k d.ch) = .error e) :
    updMergeStep d status s = .error e := by
  simp only [updMergeStep, mergeStatus, h, he]

theorem updMergeStep_merged {m : U64} (h : statusRaw (s.cfg.cap d.ch) status = some raw)
    (hm : merge2 (s.dir d).hwCount (s.dir d).hwCountLast raw (s.cfg.k d.ch) = .ok m) :
    updMergeStep d status s = .ok (((s.updDir d (·.setHw m)).setInt .idle).deliver .interrupt .done) := by
  simp only [updMergeStep, mergeStatus, h, hm]

end

/-- What UPDATE_HW's merge step leaves: both counters of the direction at the merged value, the interrupt agent Idle with
its completion delivered, and the rest as it was. -/
structure UpdEnd (d : DirId) (m : U64) (s t : State) : Prop where
  dir_self : t.dir d = (s.dir d).setHw m
  dir_ne : ∀ q, q ≠ d → t.dir q = s.dir q
  frame : t = { s with chans := t.chans, intPhase := .idle, results := s.results ++ [(.interrupt, .done)] }

namespace UpdEnd

variable {m : U64}

theorem cfg (h : UpdEnd d m s t) : t.cfg = s.cfg := by rw [h.frame]

theorem intPhase (h : UpdEnd d m s t) : t.intPhase = .idle := by rw [h.frame]

theorem fault (h : UpdEnd d m s t) : t.fault = s.fault := by rw [h.frame]

theorem inputs (h : UpdEnd d m s t) : t.inputs = s.inputs := by rw [h.frame]

theorem oracle (h : UpdEnd d m s t) : t.oracle = s.oracle := by rw [h.frame]

end UpdEnd

theorem agentStep_updMerge {status : U32} {raw : Nat} {m : U64} (hl : s.live) (hsh : s.shaped) (hd : d.ch < s.cfg.nCh)
    (hp : s.intPhase = .upd d (.merge status)) (hraw : statusRaw (s.cfg.cap d.ch) status = some raw)
    (hm : merge2 (s.dir d).hwCount (s.dir d).hwCountLast raw (s.cfg.k d.ch) = .ok m) :
    ∃ t, agentStep .interrupt s = .next t ∧ UpdEnd d m s t :=
  ⟨_, (agentStep_upd hl hp).trans (runStep_ok (updMergeStep_merged hraw hm)),
    State.dir_updDir_self s _ (shaped_ch hsh hd), fun _ hq => State.dir_updDir_ne s _ hq, rfl⟩

/-- Settles O26: the status word decodes as R72 says, and its raw value is merged into both counters or faults. -/
theorem updateHwMergesTheLoopStatus : Obligations.UpdateHwMergesTheLoopStatus := by
  unfold Obligations.UpdateHwMergesTheLoopStatus
  intro s d status hl hsh hd hp
  obtain ⟨hout, hin⟩ := loopStatusDecodesBelowTheSpan s.cfg d.ch status hl.1 hd
  have hstep := agentStep_upd hl hp
  refine ⟨fun hslot => hstep.trans (runStep_error (updMergeStep_slotRange (hout hslot))), fun hslot => ?_⟩
  obtain ⟨raw, hraw, rfl, -⟩ := hin hslot
  refine ⟨fun e he => ?_, fun m hm => ?_⟩
  · obtain rfl := merge2_error he
    exact ⟨rfl, hstep.trans (runStep_error (updMergeStep_overflow hraw he))⟩
  · obtain ⟨t, ht, hend⟩ := agentStep_updMerge hl hsh hd hp hraw hm
    exact ⟨t, ht, hend.dir_self, hend.dir_ne, hend.frame⟩

/-- Settles O27: both read steps test the direction first, and a direction that a merge waits for is Running. -/
theorem noUpdateOutsideRunning : Obligations.NoUpdateOutsideRunning := by
  unfold Obligations.NoUpdateOutsideRunning
  refine ⟨fun s d hl hst => ⟨fun hp => ?_, fun f hcur hp => ?_⟩, fun s d hinv hmerging => ?_⟩
  · rw [agentStep_upd hl hp]
    exact runStep_ok (updReadStep_notRunning hst)
  · rw [agentStep_bh hl hp]
    exact runStep_ok (if_neg (hcur ▸ hst))
  · exact updating_running (inv_iff.mp hinv).int (merging_updating hmerging)

/-! ## A sequence of updates -/

/-- The loop-status word of a true count decodes to that count modulo the span (R72, R131). -/
theorem statusRaw_statusOf {cap k : Nat} (hcap : cap = 2 ^ k) (hk : k ≤ 16) (T : Nat) :
    statusRaw cap (statusOf cap T) = some (T % 2 ^ (k + 16)) := by
  have hpos : 0 < cap := hcap ▸ Nat.two_pow_pos k
  have hle : cap ≤ 2 ^ 16 := hcap ▸ Nat.pow_le_pow_right (by decide) hk
  have hslot : T % cap < cap := Nat.mod_lt T hpos
  have hepoch : T / cap % 2 ^ 16 < 2 ^ 16 := Nat.mod_lt _ (by decide)
  have hword : (statusOf cap T).toNat = T / cap % 2 ^ 16 * 2 ^ 16 + T % cap := by
    rw [statusOf, BitVec.toNat_ofNat, Nat.mod_eq_of_lt (by omega)]
  obtain ⟨hE, hS⟩ := status_halves (statusOf cap T)
  have hE' : statusEpoch (statusOf cap T) = T / cap % 2 ^ 16 := by rw [hE, hword]; omega
  have hS' : statusSlot (statusOf cap T) = T % cap := by rw [hS, hword]; omega
  rw [statusRaw, hE', hS', if_pos hslot, Nat.pow_add, ← hcap, Nat.mod_mul, Nat.mul_comm, Nat.add_comm]

theorem updateInputs_succ (d : DirId) (n : Nat) : updateInputs d (n + 1) =
    opInputs ⟨.interrupt, encode (.updateHw d.ch d.dir), OperandRecord.zero⟩ 1 ++ updateInputs d n := by
  simp [updateInputs, opInputs, List.replicate_succ]

/-- True counts do not fall (R131). -/
theorem le_lastCount {span T0 : Nat} {Ts : List Nat} (h : TrueCounts span T0 Ts) : T0 ≤ lastCount T0 Ts := by
  induction Ts generalizing T0 with
  | nil => exact Nat.le_refl T0
  | cons T Ts ih =>
    obtain ⟨hle, -, hrest⟩ := h
    exact hle.trans (ih hrest)

/-- A Running direction of a sound block whose interrupt agent is Idle: UPDATE_HW may be issued and will read. -/
structure Updatable (d : DirId) (s : State) : Prop where
  inv : BlockInv s
  fault : s.fault = none
  dir : d.ch < s.cfg.nCh
  running : (s.dir d).st = .running
  idle : s.intPhase = .idle

/-- What updates of a direction leave whose last sample stood at the true count `T`: it may be updated again, its
hardware count is `T`, and the rest of the direction records is as it was. -/
structure TracksTo (d : DirId) (T : Nat) (s t : State) : Prop where
  updatable : Updatable d t
  cfg : t.cfg = s.cfg
  hwCount : (t.dir d).hwCount.toNat = T
  swCount : (t.dir d).swCount = (s.dir d).swCount
  others : ∀ q, q ≠ d → t.dir q = s.dir q

theorem TracksTo.refl (h : Updatable d s) : TracksTo d (s.dir d).hwCount.toNat s s :=
  ⟨h, rfl, rfl, rfl, fun _ _ => rfl⟩

theorem TracksTo.trans {u : State} {T T' : Nat} (h : TracksTo d T s t) (h' : TracksTo d T' t u) : TracksTo d T' s u :=
  ⟨h'.updatable, h'.cfg.trans h.cfg, h'.hwCount, h'.swCount.trans h.swCount,
    fun q hq => (h'.others q hq).trans (h.others q hq)⟩

section
variable {T : Nat} {rest : List Input} {more : List U32}

/-- The merge of a sampled true count less than one span past the direction's count is that true count (R128). -/
theorem merge2_sample (h : Updatable d s) (hle : (s.dir d).hwCount.toNat ≤ T)
    (hlt : T < (s.dir d).hwCount.toNat + 2 ^ (s.cfg.k d.ch + 16)) (hT : T < 2 ^ 64) :
    merge2 (s.dir d).hwCount (s.dir d).hwCountLast (T % 2 ^ (s.cfg.k d.ch + 16)) (s.cfg.k d.ch) =
      .ok (BitVec.ofNat 64 T) := by
  have hinv := inv_iff.mp h.inv
  have hexact := mergeIsExactBelowOneSpan _ T _ (Cfg.cap_eq hinv.wf h.dir).2 hle hlt hT
  rw [BitVec.ofNat_toNat, BitVec.setWidth_eq, merge] at hexact
  rwa [← (hinv.dirs d h.dir).last]

/-- One UPDATE_HW, issued and completed, stores the sampled true count (R123, R124, R128). -/
theorem run_updateHw (h : Updatable d s) (hle : (s.dir d).hwCount.toNat ≤ T)
    (hlt : T < (s.dir d).hwCount.toNat + 2 ^ (s.cfg.k d.ch + 16)) (hT : T < 2 ^ 64)
    (hin : s.inputs = opInputs ⟨.interrupt, encode (.updateHw d.ch d.dir), OperandRecord.zero⟩ 1 ++ rest)
    (ho : s.oracle = statusOf (s.cfg.cap d.ch) T :: more) :
    ∃ t, core.run 2 s = .next t ∧ t.inputs = rest ∧ t.oracle = more ∧ TracksTo d T s t := by
  have hinv := inv_iff.mp h.inv
  have hlive : s.live := ⟨hinv.wf, h.fault⟩
  have hready : State.ready { s with
      inputs := .run .interrupt :: rest
      port := ⟨.interrupt, encode (.updateHw d.ch d.dir), OperandRecord.zero⟩ } :=
    ⟨hlive, agentIdle_interrupt.mpr h.idle⟩
  have hread := (passesChecks_updateHw hready rfl h.dir).exec_ok (updReadStep_running h.running)
  rw [State.mmioRead_eq] at hread
  have hheld := congrArg (fun v => IntPhase.upd d (.merge v)) (State.nextDraw_of_cons ho)
  have hmerge := merge2_sample h hle hlt hT
  obtain ⟨hcap, hk⟩ := Cfg.cap_eq hinv.wf h.dir
  obtain ⟨t, hrun, hend⟩ := run_issue_then_agentStep hin (decode_encode_of_lt_nCh hinv.wf h.dir rfl) hread rfl
    (agentStep_updMerge (d := d) hlive hinv.shaped h.dir hheld (statusRaw_statusOf hcap hk T) hmerge)
  have hself : t.dir d = (s.dir d).setHw (BitVec.ofNat 64 T) := hend.dir_self
  refine ⟨t, hrun, hend.inputs, hend.oracle.trans (congrArg List.tail ho),
    ⟨⟨run_keeps everyStepKeepsTheInvariant h.inv hrun, hend.fault.trans h.fault, ?_, ?_, hend.intPhase⟩,
      hend.cfg, ?_, ?_, hend.dir_ne⟩⟩
  · rw [hend.cfg]
    exact h.dir
  · rw [hself]
    exact h.running
  · rw [hself]
    exact Nat.mod_eq_of_lt hT
  · rw [hself]
    rfl

/-- Updates of the true counts in turn leave the last of them (R132). -/
theorem run_updates {Ts : List Nat} (h : Updatable d s)
    (hTs : TrueCounts (2 ^ (s.cfg.k d.ch + 16)) (s.dir d).hwCount.toNat Ts)
    (hlast : lastCount (s.dir d).hwCount.toNat Ts < 2 ^ 64) (hin : s.inputs = updateInputs d Ts.length ++ rest)
    (ho : s.oracle = Ts.map (statusOf (s.cfg.cap d.ch)) ++ more) :
    ∃ t, core.run (2 * Ts.length) s = .next t ∧ t.inputs = rest ∧ t.oracle = more ∧
      TracksTo d (lastCount (s.dir d).hwCount.toNat Ts) s t := by
  induction Ts generalizing s with
  | nil => exact ⟨s, rfl, hin, ho, .refl h⟩
  | cons T Ts ih =>
    obtain ⟨hle, hlt, hrest⟩ := hTs
    rw [List.length_cons, updateInputs_succ, List.append_assoc] at hin
    obtain ⟨u, hrun, huin, huo, hu⟩ := run_updateHw h hle hlt ((le_lastCount hrest).trans_lt hlast) hin ho
    rw [← hu.cfg, ← hu.hwCount] at hrest
    rw [lastCount, ← hu.hwCount] at hlast ⊢
    rw [← hu.cfg] at huo
    obtain ⟨t, hruns, htin, hto, ht⟩ := ih hu.updatable hrest hlast huin huo
    refine ⟨t, ?_, htin, hto, hu.trans ht⟩
    rw [List.length_cons, Nat.mul_succ, Nat.add_comm, run_add hrun, hruns]

end

/-- Settles O29: each update stores its sample's true count, and the next advances from there. -/
theorem updatesReconstructTheTrueCount : Obligations.UpdatesReconstructTheTrueCount := by
  unfold Obligations.UpdatesReconstructTheTrueCount
  intro s d Ts rest more hinv hf hd hst hidle hTs hlast hin ho
  obtain ⟨t, hrun, htin, hto, ht⟩ := run_updates ⟨hinv, hf, hd, hst, hidle⟩ hTs hlast hin ho
  have hu := ht.updatable
  exact ⟨t, hrun, hu.fault, htin, hto, hu.idle, ht.hwCount, ((inv_iff.mp hu.inv).dirs d hu.dir).last.symm, ht.swCount,
    ht.others⟩

end Sys2Proof.Machine
end

section
/-! SUPPORT. The servicer's steps in both directions (R141 to R150), and a client's step by its servicer step. -/

namespace Sys2Proof.Machine

variable {s t u : State} {a me : AgentId} {n : Nat} {d q : DirId} {f f' : SvcFrame}

/-- Each of the things that a servicer step can do is what `svcStep` answers where its conditions hold. -/
theorem SvcDid.svcStep_eq {x : SvcNext} (h : SvcDid me s f u x) : svcStep me f s = .ok (u, x) := by
  cases h with
  | inactive hp hst => simp only [svcStep, hp, svcEnter, if_neg hst]
  | enter hp hst hc => simp only [svcStep, hp, svcEnter, if_pos hst, hc]
  | dry hp heq =>
    have hnone : availableOf (s.dir f.d) = .ok 0 := availableOf_ok.mpr ⟨heq.le, by omega⟩
    simp only [svcStep, hp, svcSnapshot, hnone]
  | snapshot hp hlt =>
    obtain ⟨k, hk⟩ := Nat.exists_eq_add_one_of_ne_zero (Nat.sub_ne_zero_of_lt hlt)
    have hsome : availableOf (s.dir f.d) = .ok (k + 1) := availableOf_ok.mpr ⟨hlt.le, hk.symm⟩
    simp only [svcStep, hp, svcSnapshot, hsome, hk]
  | copy slot hp => simp only [svcStep, hp, svcCopy]
  | commit hp => simp only [svcStep, hp, svcCommit]
  | outcome hp => simp only [svcStep, hp, svcOutcome]

theorem clientStep_more (h : SvcDid (.client n) s f u (.more f')) :
    clientStep n f s = .ok (u.setClient n (some f')) := by
  simp only [clientStep, h.svcStep_eq]

theorem clientStep_finish {r : Result} (h : SvcDid (.client n) s f u (.finish r)) :
    clientStep n f s = .ok ((u.setClient n none).deliver (.client n) r) := by
  simp only [clientStep, h.svcStep_eq]

theorem clientStep_error_of_svcStep {e : Trap} (h : svcStep (.client n) f s = .error e) :
    clientStep n f s = .error e := by
  simp only [clientStep, h]

theorem agentStep_client_more (hl : s.live) (hf : s.client n = some f) (h : SvcDid (.client n) s f u (.more f')) :
    agentStep (.client n) s = .next (u.setClient n (some f')) :=
  (agentStep_client hl hf).trans (runStep_ok (clientStep_more h))

/-! ## SERVICE's first step -/

theorem firstStep_service (ha : s.port.agent = .client n) :
    firstStep (.service d.ch d.dir) s = clientStep n (serviceFrame d s.port.operands) s := by
  simp only [firstStep, serviceStep, ha]

theorem svcStep_enter_claimed (hp : f.ph = .enter) (hst : (s.dir f.d).st = .running) (hc : (s.dir f.d).claim = some a) :
    svcStep me f s = .error ⟨.concurrentServicer, a.info⟩ := by
  simp only [svcStep, hp, svcEnter, if_pos hst, hc]

/-- Settles O30: the three ways in which `Enter` goes. -/
theorem serviceEntersOnlyARunningUnclaimedDirection : Obligations.ServiceEntersOnlyARunningUnclaimedDirection := by
  unfold Obligations.ServiceEntersOnlyARunningUnclaimedDirection
  intro s d n hr hsh ha hd
  have hpass := passesChecks_service hr ha hd
  have hfirst := firstStep_service (d := d) ha
  refine ⟨fun hst => ?_, fun a hst hc => ⟨a.info, Nat.mod_eq_of_lt, ?_⟩, fun hst hc => ?_⟩
  · exact hpass.exec_ok (hfirst.trans (clientStep_finish (.inactive rfl hst)))
  · exact hpass.exec_error (hfirst.trans (clientStep_error_of_svcStep (svcStep_enter_claimed rfl hst hc)))
  · refine ⟨_, hpass.exec_ok (hfirst.trans (clientStep_more (.enter rfl hst hc))), ?_, fun q hq => ?_,
      State.client_setClient_self .., fun m hm => State.client_setClient_ne _ _ hm, rfl⟩
    · rw [State.dir_setClient]
      exact State.dir_updDir_self s _ (shaped_ch hsh hd)
    · rw [State.dir_setClient]
      exact State.dir_updDir_ne s _ hq

/-! ## The steps of an iteration -/

/-- Counting an overflow adds one to the direction's `overflow` exactly when the snapshot exceeds `CAP - K` (R143). -/
theorem countOverflow_add (g : Cfg) (c a : Nat) (x : DirState) : countOverflow g c a x =
    { x with overflow := x.overflow + if g.cap c - g.perIrq c < a then 1#64 else 0#64 } := by
  unfold countOverflow
  split
  · rfl
  · rw [BitVec.add_zero]

/-- A slot number fits its 16 bits (R7, R61). -/
theorem slotOf_toNat {g : Cfg} {c : Nat} (hwf : g.wf = true) (hc : c < g.nCh) (count : U64) :
    (slotOf g c count).toNat = count.toNat % g.cap c := by
  have hlt := Nat.mod_lt count.toNat (Cfg.cap_pos hwf hc)
  have hle := Cfg.cap_le hwf hc
  rw [slotOf, BitVec.toNat_ofNat, Nat.mod_eq_of_lt (by omega)]

theorem svcStep_snapshot_negative (hp : f.ph = .snapshot) (h : (s.dir f.d).hwCount.toNat < (s.dir f.d).swCount.toNat) :
    svcStep me f s = .error ⟨.availableNegative, (s.dir f.d).swCount - (s.dir f.d).hwCount⟩ := by
  simp only [svcStep, hp, svcSnapshot, availableOf_error.mpr ⟨h, rfl⟩]

/-- Settles O31: the three ways in which `Snapshot` goes. -/
theorem snapshotCountsOverflowAndChoosesTheSlot : Obligations.SnapshotCountsOverflowAndChoosesTheSlot := by
  unfold Obligations.SnapshotCountsOverflowAndChoosesTheSlot
  intro s n f hl hsh hd hf hp
  refine ⟨fun hlt => ?_, fun heq => ?_, fun hlt => ?_⟩
  · refine ⟨(s.dir f.d).swCount - (s.dir f.d).hwCount, by bv_omega, ?_⟩
    rw [agentStep_client hl hf, runStep_error (clientStep_error_of_svcStep (svcStep_snapshot_negative hp hlt))]
    rfl
  · exact agentStep_client_more hl hf (.dry hp (congrArg BitVec.toNat heq.symm))
  · refine ⟨_, agentStep_client_more hl hf (.snapshot hp hlt), ?_, fun q hq => ?_,
      ⟨_, slotOf_toNat hl.1 hd _, State.client_setClient_self ..⟩,
      fun m hm => State.client_setClient_ne _ _ hm, rfl⟩
    · rw [State.dir_setClient, State.dir_updDir_self s _ (shaped_ch hsh hd), countOverflow_add]
    · rw [State.dir_setClient, State.dir_updDir_ne s _ hq]

/-- Settles O32: `Copy` is one event and the move to `Commit`. -/
theorem copyMovesOneBlock : Obligations.CopyMovesOneBlock := by
  unfold Obligations.CopyMovesOneBlock
  exact fun s n f slot hl hf hp => agentStep_client_more hl hf (.copy slot hp)

/-- Settles O33: `Commit` writes the one counter; under the invariant it commits a block that is available. -/
theorem commitAdvancesTheSoftwareCount : Obligations.CommitAdvancesTheSoftwareCount := by
  unfold Obligations.CommitAdvancesTheSoftwareCount
  intro s n f hl hsh hd hf hp
  have hstep := agentStep_client_more hl hf (.commit hp)
  have hself := State.dir_updDir_self s (fun x => { x with swCount := x.swCount + 1#64 }) (shaped_ch hsh hd)
  refine ⟨⟨_, hstep, ?_, fun q hq => ?_, State.client_setClient_self ..,
    fun m hm => State.client_setClient_ne _ _ hm, rfl⟩, fun hinv t ht => ?_⟩
  · rw [State.dir_setClient, hself]
  · rw [State.dir_setClient, State.dir_updDir_ne s _ hq]
  · cases hstep.symm.trans ht
    rw [State.dir_setClient, hself]
    have hlt : (s.dir f.d).swCount.toNat < (s.dir f.d).hwCount.toNat := by
      simpa only [needsSlot, hp] using ((inv_iff.mp hinv).frames n f hf).slot
    have hinc : ((s.dir f.d).swCount + 1#64).toNat = (s.dir f.d).swCount.toNat + 1 := by bv_omega
    exact ⟨hinc, hinc.le.trans hlt⟩

/-! ## The outcome -/

/-- What the `Outcome` step of client `n`'s call `f` leaves: the direction unclaimed with its deferred slot settled, the
client Idle, the events and the result delivered, and the rest as it was (R148 to R150). -/
structure CallEnd (n : Nat) (f : SvcFrame) (s t : State) : Prop where
  dir_self : t.dir f.d = { s.dir f.d with deferred := outcomeDeferred f, claim := none }
  dir_ne : ∀ q, q ≠ f.d → t.dir q = s.dir q
  frame : t = { s with chans := t.chans, clients := clientDel s.clients n,
                       history := s.history ++ (displaceEvents f.req (s.dir f.d).deferred ++ [outcomeEvent f]),
                       results := s.results ++ [(.client n, outcomeResult f)] }

theorem agentStep_client_outcome (hl : s.live) (hsh : s.shaped) (hd : f.d.ch < s.cfg.nCh) (hf : s.client n = some f)
    (hp : f.ph = .outcome) : ∃ t, agentStep (.client n) s = .next t ∧ CallEnd n f s t := by
  refine ⟨_, (agentStep_client hl hf).trans (runStep_ok (clientStep_finish (.outcome hp))), ?_, fun q hq => ?_, rfl⟩
  · rw [State.dir_deliver, State.dir_setClient, State.dir_emits, State.dir_updDir_self s _ (shaped_ch hsh hd)]
    rfl
  · rw [State.dir_deliver, State.dir_setClient, State.dir_emits, State.dir_updDir_ne s _ hq]

theorem displaceEvents_other {req : RequestId} {o : Option DeferredReq} {r : DeferredReq} (h : o = some r)
    (hne : r.req ≠ req) : displaceEvents req o = [.complete r.req 0#64 .superseded] := by
  simp only [h, displaceEvents, if_neg hne]

theorem displaceEvents_same {req : RequestId} {o : Option DeferredReq} (h : ∀ r, o = some r → r.req = req) :
    displaceEvents req o = [] := by
  cases o with
  | none => rfl
  | some r => exact if_pos (h r rfl)

namespace CallEnd

theorem history (h : CallEnd n f s t) :
    t.history = s.history ++ (displaceEvents f.req (s.dir f.d).deferred ++ [outcomeEvent f]) := by rw [h.frame]

theorem client_self (h : CallEnd n f s t) : t.client n = none := by
  rw [h.frame]; simp [State.client]

theorem client_ne (h : CallEnd n f s t) {m : Nat} (hm : m ≠ n) : t.client m = s.client m := by
  rw [h.frame]; simp [State.client, hm.symm]

theorem history_displaced (h : CallEnd n f s t) {r : DeferredReq} (hr : (s.dir f.d).deferred = some r)
    (hne : r.req ≠ f.req) : t.history = s.history ++ [.complete r.req 0#64 .superseded, outcomeEvent f] := by
  rw [h.history, displaceEvents_other hr hne]; rfl

theorem history_undisplaced (h : CallEnd n f s t) (hr : ∀ r, (s.dir f.d).deferred = some r → r.req = f.req) :
    t.history = s.history ++ [outcomeEvent f] := by
  rw [h.history, displaceEvents_same hr]; rfl

theorem frame_results (h : CallEnd n f s t) :
    t = { s with chans := t.chans, clients := t.clients, history := t.history,
                 results := s.results ++ [(.client n, outcomeResult f)] } := by
  have hc : t.clients = clientDel s.clients n := by rw [h.frame]
  rw [hc, h.history]; exact h.frame

end CallEnd

section
variable (f)

theorem outcome_of_progress (hb : f.bytes ≠ 0#64) : outcomeDeferred f = none ∧
    outcomeEvent f = .complete f.req f.bytes .success ∧ outcomeResult f = .completed f.bytes .success :=
  ⟨if_neg hb, if_neg hb, if_neg hb⟩

theorem outcome_without_progress (hb : f.bytes = 0#64) : outcomeDeferred f = some ⟨f.req, f.buf, f.left⟩ ∧
    outcomeEvent f = .deferred f.req f.left ∧ outcomeResult f = .deferred :=
  ⟨if_pos hb, if_pos hb, if_pos hb⟩

end

/-- Settles O34: the call's end, with what the outcome is after progress. -/
theorem outcomeAfterProgressCompletesTheRequest : Obligations.OutcomeAfterProgressCompletesTheRequest := by
  unfold Obligations.OutcomeAfterProgressCompletesTheRequest
  intro s n f hl hsh hd hf hp hb
  obtain ⟨t, ht, hend⟩ := agentStep_client_outcome hl hsh hd hf hp
  obtain ⟨hdef, hev, hres⟩ := outcome_of_progress f hb
  rw [← hdef, ← hev, ← hres]
  exact ⟨t, ht, hend.dir_self, hend.dir_ne, hend.client_self, fun m => hend.client_ne, fun r => hend.history_displaced,
    hend.history_undisplaced, hend.frame_results⟩

/-- Settles O35: the call's end, with what the outcome is without progress. -/
theorem outcomeWithoutProgressDefersTheRequest : Obligations.OutcomeWithoutProgressDefersTheRequest := by
  unfold Obligations.OutcomeWithoutProgressDefersTheRequest
  intro s n f hl hsh hd hf hp hb
  obtain ⟨t, ht, hend⟩ := agentStep_client_outcome hl hsh hd hf hp
  obtain ⟨hdef, hev, hres⟩ := outcome_without_progress f hb
  rw [← hdef, ← hev, ← hres]
  exact ⟨t, ht, hend.dir_self, hend.dir_ne, hend.client_self, fun m => hend.client_ne, fun r => hend.history_displaced,
    hend.history_undisplaced, hend.frame_results⟩

end Sys2Proof.Machine
end

section
/-! SUPPORT. A re-invocation's step beside a client's (R152, R170). -/

namespace Sys2Proof.Machine

variable {s t u : State} {a b : AgentId} {n : Nat} {f : BhFrame} {v v' : SvcFrame}

/-- Past `Enter` a servicer step depends neither on the agent whose call it is nor on the client list. -/
theorem svcStep_past_enter (hp : v.ph ≠ .enter) (l : List (Nat × SvcFrame)) :
    svcStep a v { s with clients := l } = (svcStep b v s).map fun p => ({ p.1 with clients := l }, p.2) := by
  cases hv : v.ph with
  | enter => exact absurd hv hp
  | snapshot =>
    have hdir : State.dir { s with clients := l } v.d = s.dir v.d := rfl
    simp only [svcStep, hv, svcSnapshot, hdir]
    rcases availableOf (s.dir v.d) with e | _ | k <;> rfl
  | copy slot => simp only [svcStep, hv]; rfl
  | commit => simp only [svcStep, hv]; rfl
  | outcome => simp only [svcStep, hv]; rfl

theorem agentStep_bh_svc_error {e : Trap} (hl : s.live) (hp : s.intPhase = .bh f (.svc v))
    (h : svcStep .interrupt v s = .error e) :
    agentStep .interrupt s = .next (s.raise .interrupt Op.bottomHalf.code none e) :=
  (agentStep_bh hl hp).trans (runStep_error (by simp only [bhStep, bhSvc, h]))

theorem agentStep_bh_svc_more (hl : s.live) (hp : s.intPhase = .bh f (.svc v))
    (h : svcStep .interrupt v s = .ok (u, .more v')) :
    agentStep .interrupt s = .next (u.setInt (.bh f (.svc v'))) :=
  (agentStep_bh hl hp).trans (runStep_ok (by simp only [bhStep, bhSvc, h]))

theorem agentStep_bh_svc_finish {r : Result} (hl : s.live) (hp : s.intPhase = .bh f (.svc v))
    (h : svcStep .interrupt v s = .ok (u, .finish r)) :
    agentStep .interrupt s = .next (u.setInt (.bh f .accum)) :=
  (agentStep_bh hl hp).trans (runStep_ok (by simp only [bhStep, bhSvc, h]))

/-- Settles O36: past `Enter` both agents take the same servicer step, and differ in where they keep its frame. -/
theorem reinvocationUsesTheClientsSteps : Obligations.ReinvocationUsesTheClientsSteps := by
  unfold Obligations.ReinvocationUsesTheClientsSteps
  intro s f v n hl hp hpast t u ht hu
  have hshared := svcStep_past_enter (s := s) (a := .client n) (b := .interrupt) hpast [(n, v)]
  rw [agentStep_client (s := { s with clients := [(n, v)] }) (f := v) hl (if_pos rfl)] at hu
  cases h : svcStep .interrupt v s with
  | error e =>
    rw [h] at hshared
    cases (agentStep_bh_svc_error hl hp h).symm.trans ht
    cases (runStep_error (clientStep_error_of_svcStep hshared)).symm.trans hu
    exact ⟨rfl, rfl, by simp, by simp⟩
  | ok p =>
    obtain ⟨w, x⟩ := p
    rw [h] at hshared
    obtain ⟨-, -, -, -, -, -, -, -, hclients, hfault, hresults, -⟩ := svcDid_frame (svcStep_ok h)
    cases x with
    | more v' =>
      cases (agentStep_bh_svc_more hl hp h).symm.trans ht
      cases (runStep_ok (clientStep_more (svcStep_ok hshared))).symm.trans hu
      exact ⟨rfl, rfl, Iff.rfl, fun _ => ⟨hresults, hclients, by simp, by simp⟩⟩
    | finish r =>
      cases (agentStep_bh_svc_finish hl hp h).symm.trans ht
      cases (runStep_ok (clientStep_finish (svcStep_ok hshared))).symm.trans hu
      exact ⟨rfl, rfl, Iff.rfl, fun _ => ⟨hresults, hclients, by simp, by simp⟩⟩

end Sys2Proof.Machine
end

section
/-! SUPPORT. The counters' monotonicity (R155). -/

namespace Sys2Proof.Machine

variable {s : State} {a : AgentId} {d : DirId} {x : DirState}

/-- Under the invariant a move of a direction's record lowers no counter, unless it zeroes them all (R127, R155). -/
theorem DirMove.counters_le_or_zeroed (h : InvFacts s) (hd : d.ch < s.cfg.nCh) (hm : DirMove s d a x) :
    ((s.dir d).hwCount.toNat ≤ x.hwCount.toNat ∧ (s.dir d).swCount.toNat ≤ x.swCount.toNat) ∨
      (a = .lifecycle ∧ (s.lifePhase = .startEnd d ∨ s.lifePhase = .stopEnd d) ∧
        x.hwCount = 0#64 ∧ x.hwCountLast = 0#64 ∧ x.swCount = 0#64) := by
  cases hm with
  | same => exact .inl ⟨Nat.le_refl _, Nat.le_refl _⟩
  | life g p hg =>
    cases hg with
    | starting => exact .inl ⟨Nat.le_refl _, Nat.le_refl _⟩
    | stopping => exact .inl ⟨Nat.le_refl _, Nat.le_refl _⟩
    | running hp => exact .inr ⟨rfl, .inl hp, rfl, rfl, rfl⟩
    | stopped hp => exact .inr ⟨rfl, .inr hp, rfl, rfl, rfl⟩
  | merged st raw m hp hr hm => exact .inl ⟨h.le_merged hd hr hm, Nat.le_refl _⟩
  | claimed => exact .inl ⟨Nat.le_refl _, Nat.le_refl _⟩
  | counted => exact .inl ⟨Nat.le_refl _, Nat.le_refl _⟩
  | closed => exact .inl ⟨Nat.le_refl _, Nat.le_refl _⟩
  | committed f hf hfd hp =>
    subst hfd
    have hlt : (s.dir f.d).swCount.toNat < (s.dir f.d).hwCount.toNat := by
      simpa only [needsSlot, hp] using ((h.serveFacts a).frame f hf).slot
    exact .inl ⟨Nat.le_refl _, by bv_omega⟩

/-- Directions that neither state holds read the same (log entry 11). -/
theorem State.dir_of_missing {t : State} (hs : ¬ d.ch < s.chans.length) (ht : ¬ d.ch < t.chans.length) :
    t.dir d = s.dir d := by
  unfold State.dir
  rw [List.getElem?_eq_none (Nat.le_of_not_lt hs), List.getElem?_eq_none (Nat.le_of_not_lt ht)]

/-- Settles O52: every move of an existing direction's record either lowers no counter or zeroes them, and a missing
direction's record does not change. -/
theorem countersFallOnlyByZeroing : Obligations.CountersFallOnlyByZeroing := by
  unfold Obligations.CountersFallOnlyByZeroing
  intro s t d hinv hstep
  obtain ⟨i, p, k, a, u, p', ha, -, rfl, hu⟩ := step_effect hstep
  have h := inv_iff.mp hinv
  rw [ha]
  simp only [Option.some.injEq]
  by_cases hd : d.ch < s.cfg.nCh
  · exact (hu.moved.dirMove d).counters_le_or_zeroed (s := { s with inputs := i, port := p, freeCount := k })
      (inv_iff.mp hinv) hd
  · have hs : ¬ d.ch < s.chans.length := by rwa [h.shaped]
    have hsame : u.dir d = s.dir d := State.dir_of_missing hs (by rwa [show u.chans.length = _ from hu.confined.chans])
    exact .inl ⟨(congrArg (·.hwCount.toNat) hsame).ge, (congrArg (·.swCount.toNat) hsame).ge⟩

end Sys2Proof.Machine
end

section
/-! SUPPORT. What a step does to a direction's deferred slot, with the events that tell of it (R107, R148 to R151). -/

namespace Sys2Proof.Machine

variable {s t u : State} {a : AgentId} {d e : DirId} {f : SvcFrame} {r : DeferredReq}

/-- A step keeps a direction's deferred slot, cancels what is in it, or settles it by a servicer call's outcome. -/
inductive SlotMove (s t : State) (d : DirId) : Prop
  | kept (hd : (t.dir d).deferred = (s.dir d).deferred)
  | cancelled (hh : t.history = s.history ++ cancelEvents (s.dir d).deferred)
  | closed (f : SvcFrame) (hd : (t.dir d).deferred = outcomeDeferred f)
      (hh : t.history = s.history ++ (displaceEvents f.req (s.dir d).deferred ++ [outcomeEvent f]))

namespace SlotMove

theorem of_dir (hd : t.dir d = s.dir d) : SlotMove s t d := .kept (congrArg _ hd)

/-- An update that keeps the slot of the record it changes keeps every slot. -/
theorem of_updDir {g : DirState → DirState} (hg : ∀ x, (g x).deferred = x.deferred)
    (hd : t.dir d = (s.updDir e g).dir d) : SlotMove s t d :=
  .kept ((congrArg _ hd).trans (State.dir_updDir_keep s e d g DirState.deferred hg))

theorem congr (h : SlotMove s u d) (hd : t.dir d = u.dir d) (hh : t.history = u.history) : SlotMove s t d := by
  cases h with
  | kept hd' => exact .kept (hd ▸ hd')
  | cancelled hh' => exact .cancelled (hh.trans hh')
  | closed f hd' hh' => exact .closed f (hd ▸ hd') (hh.trans hh')

theorem stopBegin (h : Machine.stopBegin e s = .ok t) : SlotMove s t d := by
  obtain ⟨-, rfl⟩ := stopBegin_ok h
  obtain hd | ⟨rfl, -⟩ := State.dir_updDir_cases s e d (fun x => { x.setSt .stopping with deferred := none })
  · exact .of_dir hd
  · exact .cancelled rfl

theorem mergeStatus {st : U32} (h : Machine.mergeStatus e st s = .ok t) : SlotMove s t d := by
  obtain ⟨raw, m, -, -, rfl⟩ := mergeStatus_ok h
  exact .of_updDir (g := (·.setHw m)) (fun _ => rfl) rfl

theorem updReadStep (h : Machine.updReadStep e s = .ok t) : SlotMove s t d := by
  obtain ⟨-, rfl⟩ | ⟨-, rfl⟩ := updReadStep_ok h
  · exact .of_dir (by simp)
  · exact .of_dir rfl

theorem updStep {p : UpdPhase} (h : Machine.updStep e p s = .ok t) : SlotMove s t d := by
  cases p with
  | read => exact updReadStep h
  | merge st =>
    obtain ⟨u, hu, rfl⟩ := updMergeStep_ok h
    exact (mergeStatus hu).congr rfl rfl

end SlotMove

/-- Of the servicer's steps only the outcome writes a deferred slot. -/
theorem SvcDid.slotMove {x : SvcNext} (h : SvcDid a s f u x) (d : DirId) : SlotMove s u d := by
  cases h with
  | inactive => exact .of_dir rfl
  | enter => exact .of_updDir (g := (·.setClaim (some a))) (fun _ => rfl) rfl
  | dry => exact .of_dir rfl
  | snapshot => exact .of_updDir (fun x => by rw [countOverflow_add]) rfl
  | copy => exact .of_dir rfl
  | commit => exact .of_updDir (g := fun x => { x with swCount := x.swCount + 1#64 }) (fun _ => rfl) rfl
  | outcome =>
    obtain hd | ⟨rfl, hd⟩ := State.dir_updDir_cases s f.d d
      (fun x => { x.setClaim none with deferred := outcomeDeferred f })
    · exact .of_dir hd
    · exact .closed f (congrArg _ hd) rfl

namespace SlotMove

theorem clientStep {n : Nat} (h : Machine.clientStep n f s = .ok t) : SlotMove s t d := by
  obtain ⟨u, f', hu, rfl⟩ | ⟨u, r, hu, rfl⟩ := clientStep_ok h <;>
    exact ((svcStep_ok hu).slotMove d).congr (by simp) (by simp)

theorem bhStep {b : BhFrame} {p : BhPhase} (h : Machine.bhStep b p s = .ok t) : SlotMove s t d := by
  cases p with
  | test => obtain ⟨-, rfl⟩ | ⟨-, rfl⟩ := bhTest_ok h <;> exact .of_dir rfl
  | updRead =>
    obtain ⟨-, rfl⟩ | ⟨-, rfl⟩ := bhUpdRead_ok h
    · exact .of_dir (by simp)
    · exact .of_dir rfl
  | updMerge st =>
    obtain ⟨u, hu, rfl⟩ := bhUpdMerge_ok h
    exact (mergeStatus hu).congr rfl rfl
  | deferCheck =>
    obtain ⟨-, rfl⟩ | ⟨r, -, -, rfl⟩ := bhDeferCheck_ok h
    · exact .of_dir rfl
    · exact .of_updDir (g := (·.setClaim (some .interrupt))) (fun _ => rfl) rfl
  | svc v =>
    obtain ⟨u, v', hu, rfl⟩ | ⟨u, r, hu, rfl⟩ := bhSvc_ok h <;> exact ((svcStep_ok hu).slotMove d).congr rfl rfl
  | accum => cases h; exact .of_dir rfl
  | finish => cases h; exact .of_dir rfl

end SlotMove

theorem Effect.slotMove (h : Effect s a t) (d : DirId) : SlotMove s t d := by
  cases h with
  | startBegin e hi he h =>
    obtain ⟨-, -, rfl⟩ := startBegin_ok h
    exact .of_updDir (g := (·.setSt .starting)) (fun _ => rfl) rfl
  | startEnd e hp h => exact .of_updDir (g := (·.zeroed.setSt .running)) (fun _ => rfl) ((startEnd_lifeEnd h).dir d)
  | stopBegin e hi he h => exact .stopBegin h
  | stopEnd e hp h => exact .of_updDir (g := (·.zeroed.setSt .stopped)) (fun _ => rfl) ((stopEnd_lifeEnd h).dir d)
  | irqEnable n hi h => cases h; exact .of_dir rfl
  | irqDisable n hi h => cases h; exact .of_dir rfl
  | merge h => obtain ⟨m, rfl⟩ := mergeStep_ok h; exact .of_dir rfl
  | available e he h => obtain ⟨m, rfl⟩ := availableStep_ok h; exact .of_dir rfl
  | updIssue e hi he h => exact .updReadStep h
  | updPost e hi he h => cases h; exact .of_dir rfl
  | updRun e p hp h => exact .updStep h
  | topHalf hi h => exact .of_dir ((topHalfStep_frame h).1 d)
  | bhBegin hi h => cases h; exact .of_dir rfl
  | bhRun b p hp h => exact .bhStep h
  | svcIssue n e hi he h => exact .clientStep h
  | svcPost n e hi he h => subst h; exact .of_dir (State.dir_setClient ..)
  | svcRun n f hp h => exact .clientStep h

/-! ## The completion of a request that leaves -/

/-- The event is a completion of the request. -/
def Event.completes (req : RequestId) : Event → Bool
  | .complete q _ _ => q == req
  | .regRead .. => false
  | .regWrite .. => false
  | .copy .. => false
  | .settle .. => false
  | .deferred .. => false
  | .handled _ => false

@[simp] theorem Event.completes_complete (req q : RequestId) (bytes : U64) (status : Status) :
    (Event.complete q bytes status).completes req = (q == req) := rfl

/-- The request leaves the slot: no entry of its identity is in it (R151). -/
def Leaves (r : DeferredReq) (o : Option DeferredReq) : Prop := ∀ r', o = some r' → r'.req ≠ r.req

/-- An outcome completes no request but its own. -/
theorem outcomeEvent_completes_other {req : RequestId} (h : f.req ≠ req) : (outcomeEvent f).completes req = false := by
  unfold outcomeEvent
  split
  · rfl
  · exact beq_eq_false_iff_ne.mpr h

/-- An outcome that leaves no entry of its own request behind has transferred bytes. -/
theorem progress_of_leaves (hreq : r.req = f.req) (h : Leaves r (outcomeDeferred f)) : f.bytes ≠ 0#64 := by
  intro hb
  exact h _ (outcome_without_progress f hb).1 hreq.symm

/-- The events of an outcome that drops the request from the slot complete it once: as `Success` when it is the outcome's
own, else as `Superseded` (R148, R150). -/
theorem outcome_completes_once (h : Leaves r (outcomeDeferred f)) :
    ∃ bytes status, status ∈ [Status.success, .superseded, .cancelled] ∧
      (displaceEvents f.req (some r) ++ [outcomeEvent f]).filter (Event.completes r.req) =
        [.complete r.req bytes status] := by
  by_cases hreq : r.req = f.req
  · obtain ⟨-, hev, -⟩ := outcome_of_progress f (progress_of_leaves hreq h)
    refine ⟨f.bytes, .success, by decide, ?_⟩
    rw [displaceEvents_same (fun _ hr => Option.some.inj hr ▸ hreq), hev, ← hreq]
    simp
  · refine ⟨0#64, .superseded, by decide, ?_⟩
    rw [displaceEvents_other rfl hreq]
    simp [outcomeEvent_completes_other (Ne.symm hreq)]

/-- A step after which the request is no longer in the slot completes it once (R151). -/
theorem SlotMove.completes_once (hm : SlotMove s t d) (hr : (s.dir d).deferred = some r)
    (hleft : Leaves r (t.dir d).deferred) : ∃ bytes status, status ∈ [Status.success, .superseded, .cancelled] ∧
      (t.history.drop s.history.length).filter (Event.completes r.req) = [.complete r.req bytes status] := by
  cases hm with
  | kept hd => exact absurd rfl (hleft r (hd.trans hr))
  | cancelled hh =>
    refine ⟨0#64, .cancelled, by decide, ?_⟩
    rw [hh, List.drop_left, hr]
    simp [cancelEvents]
  | closed f hd hh =>
    rw [hh, List.drop_left, hr]
    exact outcome_completes_once (hd ▸ hleft)

/-- Settles O56: every step moves the slot in one of three ways, and those that drop a request complete it; a fault moves
nothing. -/
theorem aLeavingDeferredRequestCompletesOnce : Obligations.ALeavingDeferredRequestCompletesOnce := by
  unfold Obligations.ALeavingDeferredRequestCompletesOnce
  intro s t d r hstep hr hleft
  obtain ⟨i, p, k, a, u, p', -, -, rfl, hu⟩ := step_effect hstep
  obtain hE | ⟨op, q, e, rfl, -, -⟩ := hu
  · obtain ⟨bytes, status, hmem, hev⟩ := (hE.slotMove d).completes_once hr hleft
    exact ⟨bytes, status, hmem, (List.filter_congr fun e _ => by cases e <;> rfl).trans hev⟩
  · exact absurd rfl (hleft r hr)

end Sys2Proof.Machine
end

section
/-! SUPPORT. A client's whole SERVICE call, run with no other agent's step in between (R153, R154). -/

namespace Sys2Proof.Machine

/-! ## What a call counts and leaves -/

/-- The snapshot after `q` iterations is `A - q`, and it is counted when it exceeds the bound (R154). -/
theorem overflowCount_succ (bound A q : Nat) :
    overflowCount bound A (q + 1) = overflowCount bound A q + if bound < A - q then 1 else 0 := by
  induction q generalizing A with
  | zero => simp [overflowCount]
  | succ q ih =>
    rw [overflowCount, ih (A - 1), overflowCount, Nat.add_assoc, Nat.sub_sub, Nat.add_comm 1 q]

/-- Slots that `d` has available, `hw_count - sw_count` (R126). -/
def State.slotsAvailable (s : State) (d : DirId) : Nat := (s.dir d).hwCount.toNat - (s.dir d).swCount.toNat

/-- The whole blocks that a call with the operands `o` on `d` asks for, `floor(L / B)` (R153). -/
def blocksAsked (s : State) (d : DirId) (o : OperandRecord) : Nat := o.len.toNat / s.cfg.blockSize d.ch

/-- The frame of a call with the operands `o` on `d` that has committed `j` blocks. -/
def callFrame (g : Cfg) (d : DirId) (o : OperandRecord) (j : Nat) (ph : SvcPhase) : SvcFrame :=
  ⟨d, o.req, o.buf, o.len - BitVec.ofNat 64 (g.blockSize d.ch * j), BitVec.ofNat 64 (g.blockSize d.ch * j), ph⟩

/-- The slot that the call's copy after `k` others takes (R61). -/
def copySlot (s : State) (d : DirId) (k : Nat) : U16 :=
  BitVec.ofNat 16 (((s.dir d).swCount.toNat + k) % s.cfg.cap d.ch)

/-- The phase of the loop's test once `j` blocks are committed (R141, R146). -/
def testPhase (s : State) (d : DirId) (o : OperandRecord) (j : Nat) : SvcPhase :=
  loopPhase (s.cfg.blockSize d.ch) (o.len - BitVec.ofNat 64 (s.cfg.blockSize d.ch * j))

/-- The events of the first `k` copies of such a call, begun in state `s` (R145). -/
def copyEvents (s : State) (d : DirId) (o : OperandRecord) (k : Nat) : List Event :=
  (List.range k).map fun j => .copy d.dir d.ch (copySlot s d j) o.req o.buf
    (BitVec.ofNat 64 (s.cfg.blockSize d.ch * j)) (BitVec.ofNat 64 (s.cfg.blockSize d.ch))

/-- The record of `d` while client `n`'s call on it is in progress: `i` snapshots counted and `j` blocks committed since
state `s`, under the call's claim. -/
def callRecord (s : State) (n : Nat) (d : DirId) (i j : Nat) : DirState :=
  { s.dir d with
    swCount := (s.dir d).swCount + BitVec.ofNat 64 j
    overflow := (s.dir d).overflow +
      BitVec.ofNat 64 (overflowCount (s.cfg.cap d.ch - s.cfg.perIrq d.ch) (s.slotsAvailable d) i)
    claim := some (.client n) }

variable {s t u : State} {c : Call} {d : DirId} {n i j k : Nat} {o : OperandRecord} {ph : SvcPhase} {ins : List Input}

theorem copyEvents_succ (s : State) (d : DirId) (o : OperandRecord) (k : Nat) :
    copyEvents s d o (k + 1) = copyEvents s d o k ++ [.copy d.dir d.ch (copySlot s d k) o.req o.buf
      (BitVec.ofNat 64 (s.cfg.blockSize d.ch * k)) (BitVec.ofNat 64 (s.cfg.blockSize d.ch))] := by
  simp only [copyEvents, List.range_succ, List.map_append, List.map_singleton]

theorem le_of_le_blocksAsked (hj : j ≤ blocksAsked s d o) : s.cfg.blockSize d.ch * j ≤ o.len.toNat :=
  (Nat.mul_le_mul_left _ hj).trans (Nat.mul_div_le _ _)

/-- The frame after one more commit. -/
theorem callFrame_commit (g : Cfg) (d : DirId) (o : OperandRecord) (j : Nat) (ph ph' : SvcPhase) :
    callFrame g d o (j + 1) ph' = { callFrame g d o j ph with
      left := (callFrame g d o j ph).left - BitVec.ofNat 64 (g.blockSize d.ch)
      bytes := (callFrame g d o j ph).bytes + BitVec.ofNat 64 (g.blockSize d.ch)
      ph := ph' } := by
  simp only [callFrame, Nat.mul_succ, BitVec.ofNat_add, sub_sub]

theorem testPhase_commit (s : State) (d : DirId) (o : OperandRecord) (j : Nat) : testPhase s d o (j + 1) =
    loopPhase (s.cfg.blockSize d.ch)
      (o.len - BitVec.ofNat 64 (s.cfg.blockSize d.ch * j) - BitVec.ofNat 64 (s.cfg.blockSize d.ch)) := by
  rw [testPhase, Nat.mul_succ, BitVec.ofNat_add, sub_sub]

/-- The iteration's snapshot counts one overflow more exactly when it exceeds the bound (R143, R154). -/
theorem callRecord_snapshot (s : State) (n : Nat) (d : DirId) (j : Nat) :
    countOverflow s.cfg d.ch (s.slotsAvailable d - j) (callRecord s n d j j) = callRecord s n d (j + 1) j := by
  rw [countOverflow_add]
  simp only [callRecord, overflowCount_succ, BitVec.ofNat_add, BitVec.add_assoc]
  split <;> rfl

/-- The record after one more commit. -/
theorem callRecord_commit (s : State) (n : Nat) (d : DirId) (i j : Nat) :
    { callRecord s n d i j with swCount := (callRecord s n d i j).swCount + 1#64 } = callRecord s n d i (j + 1) := by
  simp only [callRecord, BitVec.ofNat_add, BitVec.add_assoc]

/-! ## The states of a call in progress -/

/-- A client that may begin a SERVICE on a Running, unclaimed direction of a sound block. -/
structure Serviceable (s : State) (n : Nat) (d : DirId) : Prop where
  inv : BlockInv s
  fault : s.fault = none
  dir : d.ch < s.cfg.nCh
  running : (s.dir d).st = .running
  unclaimed : (s.dir d).claim = none
  idle : s.client n = none

/-- Client `n`'s call on `d` with the operands `o`, begun in `s`, has counted `i` snapshots, copied `k` blocks and
committed `j`, and stands at `ph` in state `t`, whose inputs are `ins`; nothing else of `s` has changed. -/
structure InCall (s : State) (n : Nat) (d : DirId) (o : OperandRecord) (i k j : Nat) (ph : SvcPhase)
    (ins : List Input) (t : State) : Prop where
  shaped : t.chans.length = s.chans.length
  dir_self : t.dir d = callRecord s n d i j
  dir_ne : ∀ q, q ≠ d → t.dir q = s.dir q
  frame : t = { s with chans := t.chans, clients := clientPut s.clients n (callFrame s.cfg d o j ph),
                       history := s.history ++ copyEvents s d o k, inputs := ins, port := Call.vacant }

/-- While no more than the call's length is committed, the loop's test is whether a block of it remains. -/
theorem Serviceable.testPhase_eq (hs : Serviceable s n d) (hj : j ≤ blocksAsked s d o) :
    testPhase s d o j = if j < blocksAsked s d o then .snapshot else .outcome := by
  have hB := Cfg.blockSize_pos (inv_iff.mp hs.inv).wf hs.dir
  have hlt := o.len.isLt
  have hle := le_of_le_blocksAsked hj
  have hleft : (o.len - BitVec.ofNat 64 (s.cfg.blockSize d.ch * j)).toNat =
      o.len.toNat - s.cfg.blockSize d.ch * j := by
    rw [BitVec.toNat_sub, BitVec.toNat_ofNat]
    omega
  have hiff : s.cfg.blockSize d.ch ≤ o.len.toNat - s.cfg.blockSize d.ch * j ↔ j < blocksAsked s d o := by
    rw [← Nat.succ_le_iff, blocksAsked, Nat.le_div_iff_mul_le hB, Nat.succ_mul, Nat.mul_comm j]
    omega
  simp only [testPhase, loopPhase, hleft, hiff]

/-- What such a call leaves in state `t` when it ends with `k` blocks copied and `j` committed (R148 to R150). -/
structure ServiceEnd (s : State) (n : Nat) (d : DirId) (o : OperandRecord) (k j : Nat) (ins : List Input) (t : State) :
    Prop where
  dir_self : t.dir d = { callRecord s n d j j with
    deferred := outcomeDeferred (callFrame s.cfg d o j .outcome), claim := none }
  dir_ne : ∀ q, q ≠ d → t.dir q = s.dir q
  frame : t = { s with
    chans := t.chans, inputs := ins, port := Call.vacant
    history := s.history ++ copyEvents s d o k ++ displaceEvents o.req (s.dir d).deferred ++
      [outcomeEvent (callFrame s.cfg d o j .outcome)]
    results := s.results ++ [(.client n, outcomeResult (callFrame s.cfg d o j .outcome))] }

namespace InCall

theorem inputs (h : InCall s n d o i k j ph ins t) : t.inputs = ins := by rw [h.frame]

theorem cfg (h : InCall s n d o i k j ph ins t) : t.cfg = s.cfg := by rw [h.frame]

theorem client (h : InCall s n d o i k j ph ins t) : t.client n = some (callFrame s.cfg d o j ph) := by
  rw [h.frame]; simp [State.client]

theorem live (h : InCall s n d o i k j ph ins t) (hs : Serviceable s n d) : t.live := by
  rw [h.frame]; exact ⟨(inv_iff.mp hs.inv).wf, hs.fault⟩

theorem dir_lt (h : InCall s n d o i k j ph ins t) (hs : Serviceable s n d) : d.ch < t.chans.length :=
  h.shaped ▸ shaped_ch (inv_iff.mp hs.inv).shaped hs.dir

theorem clientPut_eq (h : InCall s n d o i k j ph ins t) (f : SvcFrame) :
    clientPut t.clients n f = clientPut s.clients n f := by
  rw [h.frame, clientPut_clientPut]

theorem swCount_toNat (h : InCall s n d o i k j ph ins t) (hs : Serviceable s n d) (hj : j ≤ s.slotsAvailable d) :
    (t.dir d).swCount.toNat = (s.dir d).swCount.toNat + j := by
  have hle := (inv_iff.mp hs.inv).swCount_le d
  unfold State.slotsAvailable at hj
  rw [h.dir_self]
  show ((s.dir d).swCount + BitVec.ofNat 64 j).toNat = _
  bv_omega

theorem hwCount_eq (h : InCall s n d o i k j ph ins t) : (t.dir d).hwCount = (s.dir d).hwCount := by
  rw [h.dir_self]; rfl

/-- A state that differs from one of the call in the client list only is one once the client gets the call's frame. -/
theorem of_setClient (hlen : u.chans.length = s.chans.length) (hself : u.dir d = callRecord s n d i j)
    (hne : ∀ q, q ≠ d → u.dir q = s.dir q) (hput : ∀ f, clientPut u.clients n f = clientPut s.clients n f)
    (hframe : { u with clients := s.clients } = { s with chans := u.chans, history := s.history ++ copyEvents s d o k,
                                                         inputs := ins, port := Call.vacant }) :
    InCall s n d o i k j ph ins (u.setClient n (some (callFrame s.cfg d o j ph))) where
  shaped := by rw [State.chans_setClient, hlen]
  dir_self := by rw [State.dir_setClient, hself]
  dir_ne q hq := by rw [State.dir_setClient, hne q hq]
  frame := by
    rw [State.chans_setClient, ← hput]
    exact congrArg (fun v : State => { v with clients := clientPut u.clients n (callFrame s.cfg d o j ph) }) hframe

/-- The client takes its call's next step, which goes on. -/
theorem step_more {f' : SvcFrame} (h : InCall s n d o i k j ph (.run (.client n) :: ins) t) (hs : Serviceable s n d)
    (hdid : SvcDid (.client n) { t with inputs := ins } (callFrame s.cfg d o j ph) u (.more f')) :
    step t = .next (u.setClient n (some f')) := by
  rw [step, h.inputs]
  exact agentStep_client_more (h.live hs) h.client hdid

/-- A step of the call that updates its direction's record. -/
theorem of_updDir {i' j' : Nat} {ph' : SvcPhase} {ins' : List Input} {g : DirState → DirState}
    (h : InCall s n d o i k j ph ins t) (hs : Serviceable s n d)
    (hg : g (callRecord s n d i j) = callRecord s n d i' j') :
    InCall s n d o i' k j' ph' ins'
      ((State.updDir { t with inputs := ins' } d g).setClient n (some (callFrame s.cfg d o j' ph'))) := by
  have hself := State.dir_updDir_self { t with inputs := ins' } g (h.dir_lt hs)
  refine of_setClient ((State.chans_length_updDir ..).trans h.shaped) (hself.trans ?_)
    (fun q hq => (State.dir_updDir_ne _ g hq).trans (h.dir_ne q hq)) h.clientPut_eq
    (congrArg (fun v : State => { State.updDir { v with inputs := ins' } d g with clients := s.clients }) h.frame)
  exact (congrArg g h.dir_self).trans hg

/-- `Snapshot` counts one more snapshot (R142 to R144). -/
theorem snapshot (h : InCall s n d o j k j .snapshot (.run (.client n) :: ins) t) (hs : Serviceable s n d)
    (hj : j < s.slotsAvailable d) :
    ∃ t', step t = .next t' ∧ InCall s n d o (j + 1) k j (.copy (copySlot s d j)) ins t' := by
  have hsw := h.swCount_toNat hs hj.le
  have havail : (t.dir d).hwCount.toNat - (t.dir d).swCount.toNat = s.slotsAvailable d - j := by
    rw [hsw, h.hwCount_eq, State.slotsAvailable, Nat.sub_sub]
  have hdid : SvcDid (.client n) { t with inputs := ins } (callFrame s.cfg d o j .snapshot)
      (State.updDir { t with inputs := ins } d (countOverflow s.cfg d.ch (s.slotsAvailable d - j)))
      (.more (callFrame s.cfg d o j (.copy (copySlot s d j)))) := by
    rw [copySlot, ← hsw, ← havail, ← h.cfg]
    exact .snapshot rfl (by omega : (t.dir d).swCount.toNat < (t.dir d).hwCount.toNat)
  exact ⟨_, h.step_more hs hdid, h.of_updDir hs (callRecord_snapshot s n d j)⟩

/-- `Snapshot` finds no slot left (R142). -/
theorem dry (h : InCall s n d o i k j .snapshot (.run (.client n) :: ins) t) (hs : Serviceable s n d)
    (hj : j = s.slotsAvailable d) : ∃ t', step t = .next t' ∧ InCall s n d o i k j .outcome ins t' := by
  have hle := (inv_iff.mp hs.inv).swCount_le d
  have hdry : (t.dir d).swCount.toNat = (t.dir d).hwCount.toNat := by
    rw [h.swCount_toNat hs hj.le, h.hwCount_eq, hj, State.slotsAvailable]
    omega
  exact ⟨_, h.step_more hs (.dry rfl hdry), of_setClient h.shaped h.dir_self h.dir_ne h.clientPut_eq
    (congrArg (fun v : State => { v with clients := s.clients, inputs := ins }) h.frame)⟩

/-- `Copy` records one more block (R145). -/
theorem copy (h : InCall s n d o i k k (.copy (copySlot s d k)) (.run (.client n) :: ins) t) (hs : Serviceable s n d) :
    ∃ t', step t = .next t' ∧ InCall s n d o i (k + 1) k .commit ins t' := by
  have hdid : SvcDid (.client n) { t with inputs := ins } (callFrame s.cfg d o k (.copy (copySlot s d k)))
      (State.emit { t with inputs := ins } (.copy d.dir d.ch (copySlot s d k) o.req o.buf
        (BitVec.ofNat 64 (s.cfg.blockSize d.ch * k)) (BitVec.ofNat 64 (s.cfg.blockSize d.ch))))
      (.more (callFrame s.cfg d o k .commit)) := by
    rw [← h.cfg]
    exact .copy _ rfl
  refine ⟨_, h.step_more hs hdid, of_setClient h.shaped h.dir_self h.dir_ne h.clientPut_eq ?_⟩
  rw [copyEvents_succ, ← List.append_assoc]
  exact congrArg (fun v : State => { State.emit { v with inputs := ins } _ with clients := s.clients }) h.frame

/-- `Commit` commits one more block and goes to the loop's test (R146). -/
theorem commit (h : InCall s n d o i k j .commit (.run (.client n) :: ins) t) (hs : Serviceable s n d) :
    ∃ t', step t = .next t' ∧ InCall s n d o i k (j + 1) (testPhase s d o (j + 1)) ins t' := by
  have hdid : SvcDid (.client n) { t with inputs := ins } (callFrame s.cfg d o j .commit)
      (State.updDir { t with inputs := ins } d fun x => { x with swCount := x.swCount + 1#64 })
      (.more (callFrame s.cfg d o (j + 1) (testPhase s d o (j + 1)))) := by
    rw [callFrame_commit _ _ _ _ .commit, testPhase_commit, ← h.cfg]
    exact .commit rfl
  exact ⟨_, h.step_more hs hdid, h.of_updDir hs (callRecord_commit s n d i j)⟩

/-- One iteration transfers one block: `Snapshot`, `Copy`, `Commit` (R142 to R146). -/
theorem iteration (h : InCall s n d o j j j .snapshot (List.replicate 3 (.run (.client n)) ++ ins) t)
    (hs : Serviceable s n d) (hj : j < s.slotsAvailable d) :
    ∃ t', core.run 3 t = .next t' ∧ InCall s n d o (j + 1) (j + 1) (j + 1) (testPhase s d o (j + 1)) ins t' := by
  obtain ⟨t₁, h1, hc1⟩ := h.snapshot hs hj
  obtain ⟨t₂, h2, hc2⟩ := hc1.copy hs
  obtain ⟨t₃, h3, hc3⟩ := hc2.commit hs
  exact ⟨t₃, by rw [run_next h1, run_next h2, run_next h3, run_zero], hc3⟩

/-- As many iterations as there are both blocks and available slots (R153). -/
theorem iterations (h : InCall s n d o 0 0 0 (testPhase s d o 0) (List.replicate (3 * j) (.run (.client n)) ++ ins) t)
    (hs : Serviceable s n d) (hj : j ≤ min (blocksAsked s d o) (s.slotsAvailable d)) :
    ∃ t', core.run (3 * j) t = .next t' ∧ InCall s n d o j j j (testPhase s d o j) ins t' := by
  induction j generalizing ins with
  | zero => exact ⟨t, rfl, by simpa using h⟩
  | succ j ih =>
    rw [Nat.mul_succ, List.replicate_add, List.append_assoc] at h
    obtain ⟨u, hrun, hu⟩ := ih h (by omega)
    rw [hs.testPhase_eq (by omega), if_pos (by omega)] at hu
    obtain ⟨t', h3, ht'⟩ := hu.iteration hs (by omega)
    exact ⟨t', by rw [Nat.mul_succ, run_add hrun, h3], ht'⟩

/-- Past the last iteration the call comes to `Outcome`: at once when no block remains, else by a snapshot that finds no
slot left. -/
theorem last_test (h : InCall s n d o j j j (testPhase s d o j)
      (List.replicate (if j < blocksAsked s d o then 1 else 0) (.run (.client n)) ++ ins) t)
    (hs : Serviceable s n d) (hj : j = min (blocksAsked s d o) (s.slotsAvailable d)) :
    ∃ t', core.run (if j < blocksAsked s d o then 1 else 0) t = .next t' ∧
      InCall s n d o j j j .outcome ins t' := by
  rw [hs.testPhase_eq (by omega)] at h
  split at h
  · obtain ⟨t', hstep, ht'⟩ := h.dry hs (by omega)
    rw [if_pos ‹_›]
    exact ⟨t', by rw [run_next hstep, run_zero], ht'⟩
  · rw [if_neg ‹_›]
    exact ⟨t, rfl, h⟩

/-- `Outcome` ends the call (R148 to R150). -/
theorem outcome (h : InCall s n d o j k j .outcome (.run (.client n) :: ins) t) (hs : Serviceable s n d) :
    ∃ t', step t = .next t' ∧ ServiceEnd s n d o k j ins t' := by
  have hd : d.ch < t.cfg.nCh := h.cfg ▸ hs.dir
  have hsh : t.chans.length = t.cfg.nCh := by rw [h.shaped, h.cfg, (inv_iff.mp hs.inv).shaped]
  obtain ⟨t', hstep, hend⟩ :=
    agentStep_client_outcome (s := { t with inputs := ins }) (h.live hs) hsh hd h.client rfl
  have hself : State.dir { t with inputs := ins } d = callRecord s n d j j := h.dir_self
  have hclients : clientDel t.clients n = s.clients := by
    rw [h.frame, clientDel_clientPut, clientDel_of_clientGet_none _ _ hs.idle]
  refine ⟨t', by rw [step, h.inputs]; exact hstep, ?_, fun q hq => (hend.dir_ne q hq).trans (h.dir_ne q hq), ?_⟩
  · rw [← hself]
    exact hend.dir_self
  · have hframe := hend.frame
    simp only [callFrame, hself, hclients] at hframe
    rw [List.append_assoc]
    refine hframe.trans ?_
    exact congrArg (fun v : State => { v with
      chans := t'.chans, clients := s.clients, inputs := ins
      history := v.history ++
        (displaceEvents o.req (s.dir d).deferred ++ [outcomeEvent (callFrame s.cfg d o j .outcome)])
      results := v.results ++ [(AgentId.client n, outcomeResult (callFrame s.cfg d o j .outcome))] }) h.frame

end InCall

/-! ## The whole call -/

/-- The call's `Enter` step (R141). -/
theorem Serviceable.enter (hs : Serviceable s n d) (ha : c.agent = .client n)
    (hw : c.word = encode (.service d.ch d.dir)) (hin : s.inputs = .issue c :: ins) :
    ∃ t, step s = .next t ∧ InCall s n d c.operands 0 0 0 (testPhase s d c.operands 0) ins t := by
  have h := inv_iff.mp hs.inv
  have hpass : PassesChecks (.service d.ch d.dir) { s with inputs := ins, port := c } :=
    passesChecks_service ⟨⟨h.wf, hs.fault⟩, by rw [ha]; exact agentIdle_client.mpr hs.idle⟩ ha hs.dir
  have hdid : SvcDid (.client n) { s with inputs := ins, port := c } (serviceFrame d c.operands) _ _ :=
    .enter rfl hs.running hs.unclaimed
  have hexec := hpass.exec_ok ((firstStep_service ha).trans (clientStep_more hdid))
  have hframe : callFrame s.cfg d c.operands 0 (testPhase s d c.operands 0) = { serviceFrame d c.operands with
      ph := loopPhase (s.cfg.blockSize d.ch) c.operands.len } := by
    simp [callFrame, testPhase, serviceFrame]
  have hrecord : callRecord s n d 0 0 = (s.dir d).setClaim (some (.client n)) := by
    simp [callRecord, overflowCount, DirState.setClaim]
  have hstep : step s = .next (State.setClient
      (State.updDir { s with inputs := ins, port := Call.vacant } d (·.setClaim (some (.client n)))) n
      (some (callFrame s.cfg d c.operands 0 (testPhase s d c.operands 0)))) := by
    rw [step_issue hin, issueWord_ok (i := .service d.ch d.dir) (hw ▸ decode_encode_of_lt_nCh h.wf hs.dir rfl), hexec,
      hframe]
    rfl
  refine ⟨_, hstep, .of_setClient (State.chans_length_updDir ..) ?_ (fun q hq => State.dir_updDir_ne _ _ hq)
    (fun _ => rfl) ?_⟩
  · rw [hrecord]
    exact State.dir_updDir_self _ _ (shaped_ch h.shaped hs.dir)
  · simp [copyEvents, State.updDir]

/-- The three parts of a call's outcome, by whether it has committed a block (R148, R149). -/
theorem Serviceable.outcome_callFrame (hs : Serviceable s n d) (hj : j ≤ blocksAsked s d o) :
    outcomeDeferred (callFrame s.cfg d o j .outcome) = (if j = 0 then some ⟨o.req, o.buf, o.len⟩ else none) ∧
    outcomeEvent (callFrame s.cfg d o j .outcome) = (if j = 0 then .deferred o.req o.len
      else .complete o.req (BitVec.ofNat 64 (s.cfg.blockSize d.ch * j)) .success) ∧
    outcomeResult (callFrame s.cfg d o j .outcome) = (if j = 0 then .deferred
      else .completed (BitVec.ofNat 64 (s.cfg.blockSize d.ch * j)) .success) := by
  by_cases h0 : j = 0
  · subst h0
    simpa [callFrame] using outcome_without_progress (callFrame s.cfg d o 0 .outcome) (by simp [callFrame])
  · have hB := Cfg.blockSize_pos (inv_iff.mp hs.inv).wf hs.dir
    have hle := le_of_le_blocksAsked hj
    have hpos : 0 < s.cfg.blockSize d.ch * j := Nat.mul_pos hB (Nat.pos_of_ne_zero h0)
    have hlt := o.len.isLt
    have hbytes : BitVec.ofNat 64 (s.cfg.blockSize d.ch * j) ≠ 0#64 := by
      rw [Ne, BitVec.toNat_eq, BitVec.toNat_ofNat, Nat.mod_eq_of_lt (by omega)]
      exact hpos.ne'
    simp only [if_neg h0]
    exact outcome_of_progress (callFrame s.cfg d o j .outcome) hbytes

/-- Settles O37: the call enters, iterates while there are a block and a slot, and ends. -/
theorem serviceTransfersWholeBlocks : Obligations.ServiceTransfersWholeBlocks := by
  unfold Obligations.ServiceTransfersWholeBlocks
  intro s c d n A q m rest hinv hf hd hst hclaim hidle ha hw hA hq hm hin
  have hs : Serviceable s n d := ⟨hinv, hf, hd, hst, hclaim, hidle⟩
  subst hA hm
  change q = min (blocksAsked s d c.operands) (s.slotsAvailable d) at hq
  rw [opInputs, ha, List.replicate_add, List.replicate_add, List.replicate_one, List.cons_append, List.append_assoc,
    List.append_assoc, List.singleton_append] at hin
  obtain ⟨t₀, h0, hc0⟩ := hs.enter ha hw hin
  obtain ⟨t₁, h1, hc1⟩ := hc0.iterations hs hq.le
  obtain ⟨t₂, h2, hc2⟩ := hc1.last_test hs hq
  obtain ⟨t, h3, hend⟩ := hc2.outcome hs
  obtain ⟨hdef, hev, hres⟩ := hs.outcome_callFrame (o := c.operands) (j := q) (by omega)
  have hself := hend.dir_self
  have hframe := hend.frame
  rw [hdef] at hself
  rw [hev, hres] at hframe
  have hsw : (callRecord s n d q q).swCount.toNat = (s.dir d).swCount.toNat + q :=
    hc2.dir_self ▸ hc2.swCount_toNat hs (by omega)
  have hrun : core.run (3 * q + (if q < blocksAsked s d c.operands then 1 else 0) + 1 + 1) s = .next t := by
    rw [run_next h0, Nat.add_assoc, run_add h1, run_add h2, run_next h3, run_zero]
  refine ⟨t, hrun, ?_⟩
  rw [hself]
  exact ⟨(congrArg State.fault hframe).trans hf, congrArg State.inputs hframe,
    (congrArg State.clients hframe).trans rfl, rfl, rfl, hst, hsw, rfl, rfl, hend.dir_ne,
    congrArg State.results hframe, congrArg State.history hframe⟩

end Sys2Proof.Machine
end

section
/-! SUPPORT. The interrupt dispatcher's one-step operations (R160 to R163, R174, R175) and who owns the masks. -/

namespace Sys2Proof.Machine

variable {s : State} {n : Nat}

/-- Settles O59: every step is confined to its agent's own, so a change names the stepping agent. -/
theorem eachAgentWritesItsOwn : Obligations.EachAgentWritesItsOwn := by
  unfold Obligations.EachAgentWritesItsOwn
  intro s t h
  obtain ⟨i, p, k, a, u, p', ha, -, rfl, hu⟩ := step_effect h
  have hc := hu.confined
  rw [ha]
  refine ⟨fun hne => ?_, fun hne => ?_, fun n hne => ?_⟩ <;> by_contra hother
  · obtain ⟨hint, hpend, hsched⟩ := hc.int fun heq => hother (congrArg some heq)
    exact hne.elim (· hpend) (·.elim (· hsched) (· hint))
  · obtain ⟨hlife, hen⟩ := hc.life fun heq => hother (congrArg some heq)
    exact hne.elim (· hen) (· hlife)
  · exact hne (hc.client n fun heq => hother (congrArg some heq))

theorem passesChecks_topHalf (hr : s.ready) (ha : s.port.agent = .interrupt) : PassesChecks .topHalf s :=
  ⟨hr, by rw [ha]; rfl, fun _ hq => nomatch hq⟩

theorem passesChecks_bottomHalf (hr : s.ready) (ha : s.port.agent = .interrupt) : PassesChecks .bottomHalf s :=
  ⟨hr, by rw [ha]; rfl, fun _ hq => nomatch hq⟩

theorem passesChecks_irqEnable (hr : s.ready) (ha : s.port.agent = .lifecycle) : PassesChecks (.irqEnable n) s :=
  ⟨hr, by rw [ha]; rfl, fun _ hq => nomatch hq⟩

theorem passesChecks_irqDisable (hr : s.ready) (ha : s.port.agent = .lifecycle) : PassesChecks (.irqDisable n) s :=
  ⟨hr, by rw [ha]; rfl, fun _ hq => nomatch hq⟩

theorem topHalfCapture_zero (u : State) : topHalfCapture 0#32 u = u := rfl

theorem topHalfCapture_nonzero {v : U32} (hv : v ≠ 0#32) (u : State) : topHalfCapture v u =
    ((u.setPending (u.pendingMask ||| v)).mmioWrite u.cfg.offIntClear v).setScheduled true :=
  if_pos (bne_iff_ne.mpr hv)

theorem handledFlag_nonzero {v : U32} (hv : v ≠ 0#32) : handledFlag v = true := bne_iff_ne.mpr hv

/-- Settles O39: the vector read is one draw, and only a draw that is not zero is captured. -/
theorem topHalfCapturesAndClearsTheVector : Obligations.TopHalfCapturesAndClearsTheVector := by
  unfold Obligations.TopHalfCapturesAndClearsTheVector
  intro s hr ha
  have hexec := (passesChecks_topHalf hr ha).exec_ok (t := _) rfl
  rw [State.mmioRead_eq] at hexec
  by_cases hv : s.nextDraw = 0#32
  · rw [hv, topHalfCapture_zero] at hexec
    refine ⟨_, hexec, rfl, (absurd hv ·), fun _ => ?_⟩
    simp [State.emit, State.deliver, handledFlag]
  · rw [topHalfCapture_nonzero hv, handledFlag_nonzero hv] at hexec
    refine ⟨_, hexec, rfl, fun _ => ?_, (absurd · hv)⟩
    simp [State.emit, State.deliver, State.mmioWrite, State.setPending, State.setScheduled]

/-- Settles O40: BH_BEGIN sets the flag and the phase, and reads the flag nowhere. -/
theorem bottomHalfBeginsWithTheEnabledPendingBits : Obligations.BottomHalfBeginsWithTheEnabledPendingBits := by
  unfold Obligations.BottomHalfBeginsWithTheEnabledPendingBits
  intro s hr ha
  exact (passesChecks_bottomHalf hr ha).exec_ok rfl

/-- Subtracting a mask takes its bits out (R172, R175). -/
theorem maskSubtract_bit (m v : U32) {i : Nat} (hi : i < 32) :
    (maskSubtract m v).getLsbD i = (m.getLsbD i && !v.getLsbD i) := by
  simp [maskSubtract, hi]

/-- Settles O47: the whole updated mask is written twice, and the mask of bit `n` has no other bit. -/
theorem irqEnableWritesEnableAndClear : Obligations.IrqEnableWritesEnableAndClear := by
  unfold Obligations.IrqEnableWritesEnableAndClear
  intro s n hr ha hn
  refine ⟨_, (passesChecks_irqEnable hr ha).exec_ok rfl, fun i _ => ?_, ?_⟩
  · show (maskMerge s.enabledMask (bitMask n)).getLsbD i = _
    rw [maskMerge, BitVec.getLsbD_or, bitMask_bit i hn, beq_eq_decide]
  · simp [State.setEnabled, State.mmioWrite, State.emit, State.deliver]

/-- Settles O48: the whole updated mask is written once, and the mask of bit `n` has no other bit. -/
theorem irqDisableRewritesEnableOnly : Obligations.IrqDisableRewritesEnableOnly := by
  unfold Obligations.IrqDisableRewritesEnableOnly
  intro s n hr ha hn
  refine ⟨_, (passesChecks_irqDisable hr ha).exec_ok rfl, fun i hi => ?_, rfl⟩
  show (maskSubtract s.enabledMask (bitMask n)).getLsbD i = _
  rw [maskSubtract_bit _ _ hi, bitMask_bit i hn, bne, beq_eq_decide]

end Sys2Proof.Machine
end

section
/-! SUPPORT. The bottom half step by step: the walk over the directions, the update, the deferred check and BH_END (R167
to R172). -/

namespace Sys2Proof

/-- An interrupt bit index is one of 32, also that of a channel that the configuration does not hold (log entry 11). -/
theorem Cfg.irq_lt_of_wf {g : Cfg} (h : g.wf = true) (d : DirId) : g.irq d < 32 := by
  by_cases hd : d.ch < g.nCh
  · exact Cfg.irq_lt h hd
  · have hmissing : g.chan d.ch = default := by
      rw [Cfg.chan, List.getElem?_eq_none (Nat.le_of_not_lt hd), Option.getD_none]
    unfold Cfg.irq
    rw [hmissing]
    split <;> exact Nat.zero_lt_succ 31

end Sys2Proof

namespace Sys2Proof.Machine

variable {s : State} {f : BhFrame} {d : DirId} {g : Cfg} {c i : Nat}

/-! ## The processing order -/

theorem length_allDirs (g : Cfg) : (allDirs g).length = 2 * g.nCh := by
  simp [allDirs, List.length_flatMap, Nat.mul_comm]

/-- Channel `c`'s reader and writer stand next to each other at place `2c` of the order (R167). -/
theorem getElem?_allDirs (hc : c < g.nCh) {j : Nat} (hj : j < 2) :
    (allDirs g)[2 * c + j]? = [(⟨c, .rd⟩ : DirId), ⟨c, .wr⟩][j]? :=
  getElem?_flatMap_range (f := fun c => [(⟨c, .rd⟩ : DirId), ⟨c, .wr⟩]) (fun _ => rfl) hc hj

theorem getElem?_allDirs_rd (hc : c < g.nCh) : (allDirs g)[2 * c]? = some ⟨c, .rd⟩ :=
  getElem?_allDirs hc (j := 0) (by decide)

theorem getElem?_allDirs_wr (hc : c < g.nCh) : (allDirs g)[2 * c + 1]? = some ⟨c, .wr⟩ :=
  getElem?_allDirs hc (j := 1) (by decide)

/-- The direction after one is the next of the list (R167, R171). -/
theorem nextDir_eq_getElem? (h : (allDirs g)[i]? = some d) : nextDir g d = (allDirs g)[i + 1]? := by
  have hi : i < 2 * g.nCh := length_allDirs g ▸ (List.getElem?_eq_some_iff.mp h).1
  obtain ⟨c, rfl | rfl⟩ := Nat.even_or_odd' i
  · rw [getElem?_allDirs_rd (by omega)] at h
    cases h
    exact (getElem?_allDirs_wr (c := c) (by omega)).symm
  · rw [getElem?_allDirs_wr (by omega)] at h
    cases h
    by_cases hc : c + 1 < g.nCh
    · exact (if_pos hc).trans (getElem?_allDirs_rd hc).symm
    · exact (if_neg hc).trans (List.getElem?_eq_none (by rw [length_allDirs]; omega)).symm

theorem bhAdvance_of_some (h : nextDir g f.cur = some d) : bhAdvance g f = .bh { f with cur := d } .test := by
  rw [bhAdvance, h]

theorem bhAdvance_of_none (h : nextDir g f.cur = none) : bhAdvance g f = .bh f .finish := by
  rw [bhAdvance, h]

theorem bhTest_of_has (h : maskHas f.snap s.cfg f.cur = true) : bhTest f s = .ok (s.setInt (.bh f .updRead)) := if_pos h

theorem bhTest_of_lacks (h : maskHas f.snap s.cfg f.cur = false) : bhTest f s = .ok (s.setInt (bhAdvance s.cfg f)) :=
  if_neg (by simp [h])

/-- Settles O41: `Test` and `Accum` set the phase alone, and advancing goes along the list of the directions. -/
theorem bottomHalfVisitsTheDirectionsInOrder : Obligations.BottomHalfVisitsTheDirectionsInOrder := by
  unfold Obligations.BottomHalfVisitsTheDirectionsInOrder
  intro s f hl
  have htest : maskHas f.snap s.cfg f.cur = f.snap.getLsbD (s.cfg.irq f.cur) := maskHas_eq (Cfg.irq_lt_of_wf hl.1 _)
  refine ⟨fun hp => ⟨fun hbit => ?_, fun hbit => ?_⟩, fun hp => ?_, fun i hi => ⟨fun d hd => ?_, fun hend => ?_⟩⟩
  · exact (agentStep_bh hl hp).trans (runStep_ok (bhTest_of_has (htest.trans hbit)))
  · exact (agentStep_bh hl hp).trans (runStep_ok (bhTest_of_lacks (htest.trans hbit)))
  · exact (agentStep_bh hl hp).trans (runStep_ok rfl)
  · exact bhAdvance_of_some ((nextDir_eq_getElem? hi).trans hd)
  · exact bhAdvance_of_none ((nextDir_eq_getElem? hi).trans hend)

/-! ## The update -/

theorem bhUpdRead_running (h : (s.dir f.cur).st = .running) : bhUpdRead f s =
    .ok ((s.mmioRead (s.cfg.offLoopStatus f.cur)).setInt (.bh f (.updMerge s.nextDraw))) := if_pos h

/-- The locked merge neither reads nor writes the interrupt agent's phase. -/
theorem mergeStatus_setInt (d : DirId) (status : U32) (s : State) (p : IntPhase) :
    mergeStatus d status (s.setInt p) = (mergeStatus d status s).map (·.setInt p) := by
  unfold mergeStatus
  simp only [State.cfg_setInt, State.dir_setInt]
  split
  · rfl
  · split <;> rfl

/-- UpdMerge of a standalone UPDATE_HW is the locked merge and the operation's end, whatever phase it is at (R124). -/
theorem updMergeStep_setInt (d : DirId) (status : U32) (s : State) (p : IntPhase) :
    updMergeStep d status (s.setInt p) =
      (mergeStatus d status s).map fun u => (u.setInt .idle).deliver .interrupt .done := by
  rw [updMergeStep, mergeStatus_setInt]
  cases mergeStatus d status s <;> rfl

/-- `UpdMerge` in a bottom half is the locked merge and the move to the deferred check (R168). -/
theorem bhUpdMerge_eq_map (f : BhFrame) (status : U32) (s : State) :
    bhUpdMerge f status s = (mergeStatus f.cur status s).map (·.setInt (.bh f .deferCheck)) := by
  rw [bhUpdMerge]
  cases mergeStatus f.cur status s <;> rfl

/-- Settles O42: both merge steps are one `mergeStatus`, under the one or the other phase and operation. -/
theorem bottomHalfUpdatesLikeUpdateHw : Obligations.BottomHalfUpdatesLikeUpdateHw := by
  unfold Obligations.BottomHalfUpdatesLikeUpdateHw
  intro s f hl
  refine ⟨fun hp hst => ?_, fun status u hp hu => ?_⟩
  · refine ⟨_, (agentStep_bh hl hp).trans (runStep_ok (bhUpdRead_running hst)), ?_⟩
    rw [State.mmioRead_eq]
    exact ⟨rfl, rfl⟩
  · replace hu := (agentStep_upd (s := s.setInt (.upd f.cur (.merge status))) hl rfl).symm.trans hu
    rw [agentStep_bh hl hp]
    have hupd := updMergeStep_setInt f.cur status s (.upd f.cur (.merge status))
    have hbh := bhUpdMerge_eq_map f status s
    cases hm : mergeStatus f.cur status s with
    | error e =>
      rw [hm] at hupd hbh
      cases (runStep_error hupd).symm.trans hu
      refine ⟨fun hf => (nomatch hf), fun r hf => ?_⟩
      cases hf
      exact runStep_error hbh
    | ok v =>
      rw [hm] at hupd hbh
      cases (runStep_ok hupd).symm.trans hu
      obtain ⟨raw, m, -, -, rfl⟩ := mergeStatus_ok hm
      exact ⟨fun _ => runStep_ok hbh, fun r hf => nomatch hl.2.symm.trans hf⟩

/-! ## The deferred check and the end -/

theorem bhDeferCheck_none (h : (s.dir f.cur).deferred = none) : bhDeferCheck f s = .ok (s.setInt (.bh f .accum)) := by
  rw [bhDeferCheck, h]

theorem bhDeferCheck_claimed {r : DeferredReq} {a : AgentId} (h : (s.dir f.cur).deferred = some r)
    (hc : (s.dir f.cur).claim = some a) : bhDeferCheck f s = .error ⟨.concurrentServicer, a.info⟩ := by
  simp only [bhDeferCheck, h, hc]

theorem bhDeferCheck_unclaimed {r : DeferredReq} (h : (s.dir f.cur).deferred = some r)
    (hc : (s.dir f.cur).claim = none) : bhDeferCheck f s =
      .ok ((s.updDir f.cur (·.setClaim (some .interrupt))).setInt (.bh f (.svc (reinvokeFrame s.cfg f.cur r)))) := by
  simp only [bhDeferCheck, h, hc]

theorem AgentId.info_toNat {a : AgentId} (h : a.id < 2 ^ 64) : a.info.toNat = a.id := by
  rw [AgentId.info, BitVec.toNat_ofNat, Nat.mod_eq_of_lt h]

/-- Settles O43: the three ways in which the deferred check goes. -/
theorem deferCheckReinvokesTheServicer : Obligations.DeferCheckReinvokesTheServicer := by
  unfold Obligations.DeferCheckReinvokesTheServicer
  intro s f hl hsh hd hp
  have hstep := agentStep_bh hl hp
  refine ⟨fun hdef => ?_, fun r a hdef hc => ?_, fun r hdef hc => ?_⟩
  · exact hstep.trans (runStep_ok (bhDeferCheck_none hdef))
  · exact ⟨_, hstep.trans (runStep_error (bhDeferCheck_claimed hdef hc)), rfl, rfl, rfl, rfl, AgentId.info_toNat⟩
  · refine ⟨_, hstep.trans (runStep_ok (bhDeferCheck_unclaimed hdef hc)), ?_, fun q hq => ?_, _, rfl, rfl⟩
    · exact State.dir_updDir_self s _ (shaped_ch hsh hd)
    · exact State.dir_updDir_ne s _ hq

theorem agentStep_bhEnd (hl : s.live) (hp : s.intPhase = .bh f .finish) : agentStep .interrupt s =
    .next (((s.setPending (maskSubtract s.pendingMask f.clear)).setInt .idle).deliver .interrupt .done) :=
  (agentStep_bh hl hp).trans (runStep_ok rfl)

/-- Settles O44: BH_END subtracts the clear-mask, which is so bit by bit. -/
theorem bottomHalfEndSubtractsTheClearMask : Obligations.BottomHalfEndSubtractsTheClearMask := by
  unfold Obligations.BottomHalfEndSubtractsTheClearMask
  intro s f hl hp
  exact ⟨_, agentStep_bhEnd hl hp, rfl, fun i hi => maskSubtract_bit _ _ hi⟩

end Sys2Proof.Machine
end

section
/-! SUPPORT. A whole bottom half, run with no other agent's step in between (R166 to R173). -/

namespace Sys2Proof.Machine

variable {s t u : State} {f : BhFrame} {p : BhPhase} {d : DirId} {g : Cfg} {snap : U32} {ds : List DirId} {i m : Nat}
  {rest : List Input}

/-! ## The clear-mask of the directions visited -/

/-- The bits that the directions `ds` take from the snapshot (R167, R171). -/
def collected (g : Cfg) (snap : U32) (ds : List DirId) : U32 :=
  (ds.filter (maskHas snap g)).foldl (fun m d => m ||| dirMask g d) 0#32

theorem collected_allDirs (g : Cfg) (snap : U32) : collected g snap (allDirs g) = assignedBits g snap := rfl

theorem collected_concat_of_has (h : maskHas snap g d = true) :
    collected g snap (ds ++ [d]) = collected g snap ds ||| dirMask g d := by
  simp [collected, List.filter_append, h]

theorem collected_concat_of_lacks (h : maskHas snap g d = false) :
    collected g snap (ds ++ [d]) = collected g snap ds := by
  simp [collected, List.filter_append, h]

/-- A bit is taken when the snapshot has it and some direction visited is assigned to it. -/
theorem collected_bit (hwf : g.wf = true) (snap : U32) (ds : List DirId) (i : Nat) :
    (collected g snap ds).getLsbD i = (snap.getLsbD i && ds.any fun d => g.irq d == i) := by
  induction ds using List.reverseRecOn with
  | nil => simp [collected]
  | append_singleton ds d ih =>
    have hlt := Cfg.irq_lt_of_wf hwf d
    have hhas : maskHas snap g d = snap.getLsbD (g.irq d) := maskHas_eq hlt
    rw [List.any_append, Bool.and_or_distrib_left, ← ih, List.any_cons, List.any_nil, Bool.or_false]
    cases hm : maskHas snap g d with
    | true =>
      rw [collected_concat_of_has hm, BitVec.getLsbD_or, dirMask, bitMask_bit i hlt]
      by_cases hi : i = g.irq d
      · simp [hi, ← hhas, hm]
      · simp [hi, Ne.symm hi]
    | false =>
      rw [collected_concat_of_lacks hm]
      by_cases hi : i = g.irq d
      · simp [hi, ← hhas, hm]
      · simp [Ne.symm hi]

/-! ## The walk -/

/-- The phase of a bottom half whose snapshot is `snap`: at the `i`-th direction with the clear-mask of those before it,
past `Test` only if the snapshot has the direction's bit; or at BH_END with the clear-mask of all. -/
inductive Walked (g : Cfg) (snap : U32) : IntPhase → Prop
  | visiting {f : BhFrame} {p : BhPhase} (i : Nat) (hsnap : f.snap = snap) (hcur : (allDirs g)[i]? = some f.cur)
      (hclear : f.clear = collected g snap ((allDirs g).take i)) (hend : p ≠ .finish)
      (hhas : p ≠ .test → maskHas snap g f.cur = true) : Walked g snap (.bh f p)
  | finished {f : BhFrame} (hclear : f.clear = assignedBits g snap) : Walked g snap (.bh f .finish)

theorem Walked.begin (hwf : g.wf = true) (snap : U32) : Walked g snap (.bh ⟨snap, 0#32, ⟨0, .rd⟩⟩ .test) :=
  .visiting 0 rfl (getElem?_allDirs_rd (Cfg.nCh_pos hwf)) rfl (by simp) (absurd rfl)

theorem Walked.exists_bh {q : IntPhase} (h : Walked g snap q) : ∃ f p, q = .bh f p := by
  cases h <;> exact ⟨_, _, rfl⟩

theorem Walked.clear_of_finish (h : Walked g snap (.bh f .finish)) : f.clear = assignedBits g snap := by
  cases h with
  | visiting _ _ _ _ hend => exact absurd rfl hend
  | finished hclear => exact hclear

theorem take_succ_of_getElem? (h : (allDirs g)[i]? = some d) :
    (allDirs g).take (i + 1) = (allDirs g).take i ++ [d] := by
  rw [List.take_add_one, h, Option.toList_some]

/-- Advancing from the `i`-th direction, with the clear-mask of all up to it (R171). -/
theorem Walked.advance (hsnap : f.snap = snap) (hcur : (allDirs g)[i]? = some f.cur)
    (hclear : f.clear = collected g snap ((allDirs g).take (i + 1))) : Walked g snap (bhAdvance g f) := by
  have hnext := nextDir_eq_getElem? hcur
  cases hn : (allDirs g)[i + 1]? with
  | some d =>
    rw [bhAdvance_of_some (hnext.trans hn)]
    exact .visiting (i + 1) hsnap hn hclear (by simp) (absurd rfl)
  | none =>
    rw [bhAdvance_of_none (hnext.trans hn)]
    rw [List.take_of_length_le (List.getElem?_eq_none_iff.mp hn), collected_allDirs] at hclear
    exact .finished hclear

/-- Every step before BH_END is a step of the walk. -/
theorem Walked.of_bhStep (hw : Walked s.cfg snap (.bh f p)) (hp : p ≠ .finish) (h : bhStep f p s = .ok t) :
    Walked s.cfg snap t.intPhase := by
  cases hw with
  | finished => exact absurd rfl hp
  | visiting i hsnap hcur hclear _ hhas =>
    have stays {p' : BhPhase} (hp' : p' ≠ .finish) (hm : maskHas snap s.cfg f.cur = true) :
        Walked s.cfg snap (.bh f p') := .visiting i hsnap hcur hclear hp' fun _ => hm
    cases p with
    | test =>
      obtain ⟨hm, rfl⟩ | ⟨hm, rfl⟩ := bhTest_ok h <;> rw [hsnap] at hm
      · exact stays (by simp) hm
      · refine .advance hsnap hcur ?_
        rw [take_succ_of_getElem? hcur, collected_concat_of_lacks hm, hclear]
    | updRead =>
      obtain ⟨-, rfl⟩ | ⟨-, rfl⟩ := bhUpdRead_ok h <;> exact stays (by simp) (hhas (by simp))
    | updMerge st =>
      obtain ⟨w, -, rfl⟩ := bhUpdMerge_ok h
      exact stays (by simp) (hhas (by simp))
    | deferCheck =>
      obtain ⟨-, rfl⟩ | ⟨r, -, -, rfl⟩ := bhDeferCheck_ok h <;> exact stays (by simp) (hhas (by simp))
    | svc x =>
      obtain ⟨w, y, -, rfl⟩ | ⟨w, r, -, rfl⟩ := bhSvc_ok h <;> exact stays (by simp) (hhas (by simp))
    | accum =>
      cases h
      refine .advance hsnap hcur ?_
      rw [take_succ_of_getElem? hcur, collected_concat_of_has (hhas (by simp)), ← hclear]
      rfl
    | finish => exact absurd rfl hp

/-! ## What a step before BH_END leaves -/

/-- Before BH_END a bottom half writes the direction records, its own phase and the history, and draws answers. -/
def QuietStep (s t : State) : Prop :=
  t = { s with chans := t.chans, intPhase := t.intPhase, history := t.history, oracle := t.oracle,
               freeCount := t.freeCount }

theorem QuietStep.of_mergeStatus {status : U32} (h : mergeStatus d status s = .ok u) (q : IntPhase) :
    QuietStep s (u.setInt q) := by
  obtain ⟨raw, m, -, -, rfl⟩ := mergeStatus_ok h
  rfl

theorem QuietStep.of_svcStep {a : AgentId} {x : SvcFrame} {y : SvcNext} (h : svcStep a x s = .ok (u, y)) (q : IntPhase) :
    QuietStep s (u.setInt q) := by
  cases svcStep_ok h <;> rfl

theorem QuietStep.of_bhStep (hp : p ≠ .finish) (h : bhStep f p s = .ok t) : QuietStep s t := by
  cases p with
  | test => obtain ⟨-, rfl⟩ | ⟨-, rfl⟩ := bhTest_ok h <;> rfl
  | updRead =>
    obtain ⟨-, rfl⟩ | ⟨-, rfl⟩ := bhUpdRead_ok h
    · rw [State.mmioRead_eq]
      rfl
    · rfl
  | updMerge st =>
    obtain ⟨w, hw, rfl⟩ := bhUpdMerge_ok h
    exact .of_mergeStatus hw _
  | deferCheck => obtain ⟨-, rfl⟩ | ⟨r, -, -, rfl⟩ := bhDeferCheck_ok h <;> rfl
  | svc x =>
    obtain ⟨w, y, hw, rfl⟩ | ⟨w, r, hw, rfl⟩ := bhSvc_ok h <;> exact .of_svcStep hw _
  | accum => cases h; rfl
  | finish => exact absurd rfl hp

/-! ## The run -/

/-- A bottom half begun in `s` is in progress in `t`, whose inputs are `ins`. -/
structure InBottomHalf (s : State) (ins : List Input) (t : State) : Prop where
  walked : Walked s.cfg (s.pendingMask &&& s.enabledMask) t.intPhase
  frame : t = { s with
    chans := t.chans, bhScheduled := false, intPhase := t.intPhase, history := t.history, inputs := ins
    port := Call.vacant, oracle := t.oracle, freeCount := t.freeCount }

/-- What a bottom half begun in `s` leaves of the interrupt state (R166, R172). -/
structure BottomHalfEnd (s t : State) : Prop where
  pending : t.pendingMask = s.pendingMask &&& ~~~(assignedBits s.cfg (s.pendingMask &&& s.enabledMask))
  enabled : t.enabledMask = s.enabledMask
  scheduled : t.bhScheduled = false

/-- An Idle interrupt agent has no step (R212). -/
theorem agentStep_interrupt_idle (hp : s.intPhase = .idle) : agentStep .interrupt s ≠ .next t := by
  intro h
  obtain ⟨-, h⟩ := guarded_eq_next.mp h
  simp [hp] at h

theorem step_run {a : AgentId} {ins : List Input} (h : s.inputs = .run a :: ins) :
    step s = agentStep a { s with inputs := ins } := by
  rw [step, h]
  rfl

/-- A run that records no fault began without one (R201). -/
theorem fault_none_of_run {n : Nat} (h : core.run n s = .next t) (hf : t.fault = none) : s.fault = none := by
  cases n with
  | zero => cases h; exact hf
  | succ n =>
    obtain ⟨u, hu, -⟩ := run_succ_eq_next h
    exact (step_live hu).2

/-- The interrupt agent's next step in a bottom half goes on with it or ends it. -/
theorem InBottomHalf.goes_on_or_ends {ins : List Input} (h : InBottomHalf s (.run .interrupt :: ins) t)
    (hstep : step t = .next u) (hf : u.fault = none) :
    InBottomHalf s ins u ∨ u.intPhase = .idle ∧ u.inputs = ins ∧ BottomHalfEnd s u := by
  have hcfg : t.cfg = s.cfg := by rw [h.frame]
  have hin : t.inputs = .run .interrupt :: ins := by rw [h.frame]
  have hlive := step_live hstep
  have hw := h.walked
  obtain ⟨f, p, hp⟩ := hw.exists_bh
  rw [step_run hin, agentStep_bh (s := { t with inputs := ins }) hlive hp] at hstep
  obtain hbody | ⟨e, -, rfl⟩ := runStep_eq_next.mp hstep
  · rw [hp, ← hcfg] at hw
    by_cases hend : p = .finish
    · subst hend
      cases hbody
      have hpend : t.pendingMask = s.pendingMask := by rw [h.frame]
      have henabled : t.enabledMask = s.enabledMask := by rw [h.frame]
      have hscheduled : t.bhScheduled = false := by rw [h.frame]
      refine .inr ⟨rfl, rfl, ?_, henabled, hscheduled⟩
      show maskSubtract t.pendingMask f.clear = _
      rw [hw.clear_of_finish, hpend, hcfg]
      rfl
    · refine .inl ⟨hcfg ▸ hw.of_bhStep (s := { t with inputs := ins }) hend hbody, ?_⟩
      refine (QuietStep.of_bhStep hend hbody).trans ?_
      exact congrArg (fun v : State => { v with
        chans := u.chans, intPhase := u.intPhase, history := u.history, inputs := ins, oracle := u.oracle
        freeCount := u.freeCount }) h.frame
  · cases hf

/-- The interrupt agent's steps from within a bottom half up to Idle are the rest of it, and no more. -/
theorem InBottomHalf.run (h : InBottomHalf s (List.replicate m (.run .interrupt) ++ rest) t)
    (hrun : core.run m t = .next u) (hf : u.fault = none) (hidle : u.intPhase = .idle) : BottomHalfEnd s u := by
  induction m generalizing t with
  | zero =>
    cases hrun
    obtain ⟨f, p, hp⟩ := h.walked.exists_bh
    cases hidle.symm.trans hp
  | succ m ih =>
    obtain ⟨v, hv, hrun⟩ := run_succ_eq_next hrun
    obtain hgoes | ⟨hvidle, hvin, hvend⟩ := h.goes_on_or_ends hv (fault_none_of_run hrun hf)
    · exact ih hgoes hrun
    · cases m with
      | zero => cases hrun; exact hvend
      | succ m =>
        obtain ⟨w, hw, -⟩ := run_succ_eq_next hrun
        rw [step_run hvin] at hw
        exact absurd hw (agentStep_interrupt_idle hvidle)

/-- The issue of BOTTOM_HALF begins the walk (R166). -/
theorem InBottomHalf.of_issue {c : Call} {ins : List Input} (hl : s.live) (hidle : s.intPhase = .idle)
    (ha : c.agent = .interrupt) (hw : c.word = encode .bottomHalf) (hin : s.inputs = .issue c :: ins)
    (hstep : step s = .next t) : InBottomHalf s ins t := by
  have hready : State.ready { s with inputs := ins, port := c } :=
    ⟨hl, by rw [ha]; exact agentIdle_interrupt.mpr hidle⟩
  have hdecode : decode c.word = .ok .bottomHalf := hw ▸ decodeOfEncodeIsTheInstruction .bottomHalf rfl
  rw [step_issue hin, issueWord_ok (s := { s with inputs := ins, port := c }) hdecode,
    bottomHalfBeginsWithTheEnabledPendingBits _ hready ha] at hstep
  cases hstep
  exact ⟨Walked.begin hl.1 _, rfl⟩

/-- Settles O45: the bottom half walks over all directions and ends with the bits that they took from the snapshot. -/
theorem bottomHalfConsumesTheAssignedBits : Obligations.BottomHalfConsumesTheAssignedBits := by
  unfold Obligations.BottomHalfConsumesTheAssignedBits
  intro s t c m rest hinv hf hidle ha hw hin hrun htf htidle
  have hwf := (inv_iff.mp hinv).wf
  obtain ⟨u, hu, hrun⟩ := run_succ_eq_next hrun
  rw [opInputs, ha, List.cons_append] at hin
  have hend := (InBottomHalf.of_issue ⟨hwf, hf⟩ hidle ha hw hin hu).run hrun htf htidle
  refine ⟨hend.pending, hend.enabled, hend.scheduled, fun i => ?_⟩
  by_cases hi : i < 32
  · rw [hend.pending, BitVec.getLsbD_and, BitVec.getLsbD_not, ← collected_allDirs, collected_bit hwf,
      BitVec.getLsbD_and]
    cases s.pendingMask.getLsbD i <;> simp [hi]
  · rw [BitVec.getLsbD_of_ge _ _ (Nat.le_of_not_lt hi), BitVec.getLsbD_of_ge _ _ (Nat.le_of_not_lt hi), Bool.false_and]

end Sys2Proof.Machine
end

section
/-! SUPPORT. Who may issue what (R211), whose step a step is and when a run ends (R212, R220), and a fault as the only
effect of its step and the end of the run (R201). -/

namespace Sys2Proof.Machine

variable {s t : State} {a : AgentId} {i : Instr} {d : DirId} {e : Trap} {r : FaultRecord}

/-! ## The permission table -/

theorem AgentId.cls_eq_zero : a.cls = 0 ↔ a = .interrupt := by cases a <;> simp [AgentId.cls]

theorem AgentId.cls_eq_one : a.cls = 1 ↔ a = .lifecycle := by cases a <;> simp [AgentId.cls]

theorem AgentId.cls_ne_two : a.cls ≠ 2 ↔ ∀ n, a ≠ .client n := by cases a <;> simp [AgentId.cls]

/-- The rows of the permission table that forbid an operation, by agent class. -/
theorem mayIssue_eq_false {op : Op} : mayIssue op a = false ↔
    (op ∈ [Op.start, Op.stop, Op.irqEnable, Op.irqDisable] ∧ a ≠ .lifecycle) ∨
    (op ∈ [Op.updateHw, Op.topHalf, Op.bottomHalf] ∧ a ≠ .interrupt) ∨ (op = .service ∧ ∀ n, a ≠ .client n) := by
  rw [ne_eq, ne_eq, ← AgentId.cls_eq_one, ← AgentId.cls_eq_zero, ← AgentId.cls_ne_two]
  cases op <;> simp [mayIssue]

/-! ## The faults of a first step -/

theorem startBegin_ne_wrongAgent (h : startBegin d s = .error e) : e.code ≠ .wrongAgent := by
  unfold startBegin at h
  split at h
  · cases h; simp
  · split at h <;> cases h
    simp

theorem stopBegin_ne_wrongAgent (h : stopBegin d s = .error e) : e.code ≠ .wrongAgent := by
  unfold stopBegin at h
  split at h <;> cases h
  simp

theorem mergeStep_ne_wrongAgent (h : mergeStep s = .error e) : e.code ≠ .wrongAgent := by
  unfold mergeStep at h
  split at h
  · next hoperands =>
    cases h
    unfold mergeOperands at hoperands
    split at hoperands
    · cases hoperands; simp
    · split at hoperands <;> cases hoperands
      simp
  · split at h
    · next hmerge => cases h; simp [merge2_code hmerge]
    · cases h

theorem updReadStep_ne_error : updReadStep d s ≠ .error e := by
  unfold updReadStep
  split <;> simp

theorem availableStep_ne_wrongAgent (h : availableStep d s = .error e) : e.code ≠ .wrongAgent := by
  unfold availableStep at h
  split at h
  · next havail => cases h; simp [(availableOf_error.mp havail).2]
  · cases h

/-- The `Enter` of a servicer call faults only where another call holds the claim (R141). -/
theorem clientStep_enter_ne_wrongAgent {n : Nat} {f : SvcFrame} (hp : f.ph = .enter) (h : clientStep n f s = .error e) :
    e.code ≠ .wrongAgent := by
  unfold clientStep at h
  split at h
  · next henter =>
    cases h
    simp only [svcStep, hp, svcEnter] at henter
    split at henter
    · split at henter <;> cases henter
      simp
    · cases henter
  · cases h
  · cases h

/-- Past the permission check no first step raises `WrongAgent`. -/
theorem firstStep_ne_wrongAgent (hm : mayIssue i.op s.port.agent = true) (h : firstStep i s = .error e) :
    e.code ≠ .wrongAgent := by
  cases i with
  | start ch dir => exact startBegin_ne_wrongAgent h
  | stop ch dir => exact stopBegin_ne_wrongAgent h
  | merge => exact mergeStep_ne_wrongAgent h
  | updateHw ch dir => exact absurd h updReadStep_ne_error
  | available ch dir => exact availableStep_ne_wrongAgent h
  | service ch dir =>
    obtain ⟨n, ha⟩ := mayIssue_service hm
    rw [firstStep_service (d := ⟨ch, dir⟩) ha] at h
    exact clientStep_enter_ne_wrongAgent rfl h
  | topHalf => cases h
  | bottomHalf => cases h
  | irqEnable n => cases h
  | irqDisable n => cases h

/-- A first step that has an effect writes no fault record. -/
theorem firstStep_fault (h : firstStep i s = .ok t) : t.fault = s.fault := by
  cases i with
  | start ch dir => obtain ⟨-, -, rfl⟩ := startBegin_ok h; rfl
  | stop ch dir => obtain ⟨-, rfl⟩ := stopBegin_ok h; rfl
  | merge => obtain ⟨m, rfl⟩ := mergeStep_ok h; rfl
  | updateHw ch dir => exact (Confined.updReadStep h).fault
  | available ch dir => obtain ⟨m, rfl⟩ := availableStep_ok h; rfl
  | service ch dir =>
    cases ha : s.port.agent with
    | client n =>
      rw [firstStep_service (d := ⟨ch, dir⟩) ha] at h
      exact (Confined.clientStep h).fault
    | interrupt => simp [firstStep, serviceStep, ha] at h
    | lifecycle => simp [firstStep, serviceStep, ha] at h
  | topHalf => exact (Confined.topHalfStep h).fault
  | bottomHalf => cases h; rfl
  | irqEnable n => cases h; rfl
  | irqDisable n => cases h; rfl

/-- A permitted command records no `WrongAgent`, whatever else comes of it. -/
theorem exec_ne_wrongAgent (hl : s.live) (hm : mayIssue i.op s.port.agent = true) (h : exec i s = .next t)
    (hr : t.fault = some r) : r.code ≠ .wrongAgent := by
  rw [exec_eq_issue] at h
  by_cases hd : i.dirId?.all s.hasDir = true
  · cases hidle : s.agentIdle s.port.agent with
    | false =>
      rw [issue_notIdle hl hm hd hidle] at h
      cases h
    | true =>
      rw [issue_ready ⟨hl, hidle⟩ hm hd] at h
      obtain hok | ⟨e, he, rfl⟩ := runStep_eq_next.mp h
      · simp [firstStep_fault hok, hl.2] at hr
      · cases hr
        exact firstStep_ne_wrongAgent hm he
  · cases hq : i.dirId? with
    | none => simp [hq] at hd
    | some q =>
      rw [hq, issue_invalidChannel hl hm (by simpa [hq] using hd)] at h
      cases h
      cases hr
      simp

/-- Settles O8: the permission check is the first to answer, and nothing past it raises `WrongAgent`. -/
theorem wrongAgentExactlyOutsideThePermissionTable : Obligations.WrongAgentExactlyOutsideThePermissionTable := by
  unfold Obligations.WrongAgentExactlyOutsideThePermissionTable
  intro i s hl
  rw [← mayIssue_eq_false]
  constructor
  · exact fun hm => ⟨_, (exec_eq_issue i s).trans (issue_wrongAgent hl hm), rfl⟩
  · rintro ⟨cls, hexec, -⟩
    exact Bool.eq_false_iff.mpr fun hm => exec_ne_wrongAgent hl hm hexec rfl rfl

/-! ## The chosen agent's step -/

/-- An agent that is not Idle has a next step: its effect, or the fault that it detects (R40, R212). -/
theorem agentStep_next_of_not_idle (hl : s.live) (h : s.agentIdle a = false) : ∃ t, agentStep a s = .next t := by
  cases a with
  | interrupt =>
    cases hp : s.intPhase with
    | idle => simp [State.agentIdle, hp] at h
    | upd d p => exact ⟨_, agentStep_upd hl hp⟩
    | bh f p => exact ⟨_, agentStep_bh hl hp⟩
  | lifecycle =>
    cases hp : s.lifePhase with
    | idle => simp [State.agentIdle, hp] at h
    | startEnd d => exact (agentStep_startEnd hl hp).imp fun _ ht => ht.1
    | stopEnd d => exact (agentStep_stopEnd hl hp).imp fun _ ht => ht.1
  | client n =>
    cases hf : s.client n with
    | none => simp [State.agentIdle, hf] at h
    | some f => exact ⟨_, agentStep_client hl hf⟩

/-- No agent is a candidate exactly when every agent is Idle (R220). -/
theorem candidates_eq_nil : s.candidates = [] ↔ s.intPhase = .idle ∧ s.lifePhase = .idle ∧ s.clients = [] := by
  simp [State.candidates]

/-- The free value picks a candidate whenever there is one. -/
theorem pick_eq_none : s.pick = none ↔ s.candidates = [] := by
  rw [State.pick, List.getElem?_eq_none_iff, ← List.length_eq_zero_iff]
  constructor
  · intro hle
    by_contra hne
    exact absurd (Nat.mod_lt _ (Nat.pos_of_ne_zero hne)) (Nat.not_lt.mpr hle)
  · intro hzero
    rw [hzero]
    exact Nat.zero_le _

theorem step_of_pick (hl : s.live) (hin : s.inputs = []) (h : s.pick = some a) :
    step s = agentStep a { s with freeCount := s.freeCount + 1 } := by
  simp only [step, hin, drain, guarded_of_live hl, h]

theorem step_of_pick_none (hl : s.live) (hin : s.inputs = []) (h : s.pick = none) : step s = .fault .endOfRun := by
  simp only [step, hin, drain, guarded_of_live hl, h]

/-- With no input left, a live block's run ends exactly when the free value has no agent to pick. -/
theorem step_eq_endOfRun (hl : s.live) (hin : s.inputs = []) : step s = .fault .endOfRun ↔ s.pick = none := by
  refine ⟨fun h => ?_, step_of_pick_none hl hin⟩
  cases hp : s.pick with
  | none => rfl
  | some a =>
    obtain ⟨t, ht⟩ := agentStep_next_of_not_idle (s := { s with freeCount := s.freeCount + 1 }) hl
      (pick_not_idle (s := s) hp)
    rw [step_of_pick hl hin hp, ht] at h
    cases h

/-- Settles O7: an input `run` and, with no input left, the free value name the agent; a picked agent always steps. -/
theorem stepIsTheChosenAgentsStep : Obligations.StepIsTheChosenAgentsStep := by
  unfold Obligations.StepIsTheChosenAgentsStep
  refine ⟨fun s a rest hin => step_run hin, fun s hl hin => ?_, fun s hl hin hgoes => ?_⟩
  · rw [step_eq_endOfRun hl hin, pick_eq_none, candidates_eq_nil]
  · obtain ⟨a, ha⟩ := Option.ne_none_iff_exists'.mp (mt (step_eq_endOfRun hl hin).mpr hgoes)
    exact ⟨a, by simp [State.stepper, hin, ha], pick_not_idle ha, step_of_pick hl hin ha⟩

/-! ## The end of the run after a fault -/

/-- The answer `x` comes from behind the guard of `s` (R9, R201). -/
def Guarded (s : State) (x : Answer) : Prop := ∃ k, x = guarded s k

theorem exec_guarded (i : Instr) (s : State) : Guarded s (exec i s) := ⟨_, exec_eq_issue i s⟩

theorem issueWord_guarded (s : State) : Guarded s (issueWord s) := by
  unfold issueWord
  split
  · exact exec_guarded ..
  · exact ⟨_, rfl⟩

theorem postWord_guarded (s : State) : Guarded s (postWord s) := by
  unfold postWord
  split
  · exact ⟨_, rfl⟩
  · exact ⟨_, rfl⟩
  · exact exec_guarded ..
  · exact ⟨_, rfl⟩

/-- Clearing the port changes no answer of the guard itself. -/
theorem released_guarded {x : Answer} (h : Guarded s x) : Guarded s (released x) := by
  obtain ⟨k, rfl⟩ := h
  refine ⟨released k, ?_⟩
  unfold guarded
  split
  · split <;> rfl
  · rfl

theorem takeInput_guarded (x : Input) (s : State) : Guarded s (takeInput x s) := by
  cases x with
  | issue c => exact released_guarded (issueWord_guarded (s.latch c))
  | post c => exact released_guarded (postWord_guarded (s.latch c))
  | run a => exact ⟨_, rfl⟩

/-- Every step goes through the guard, which reads neither the inputs nor the port. -/
theorem step_guarded (s : State) : Guarded s (step s) := by
  unfold step
  split
  · next x rest _ => exact takeInput_guarded x { s with inputs := rest }
  · exact ⟨_, rfl⟩

theorem Guarded.halted {x : Answer} (h : Guarded s x) (hwf : s.cfg.wf = true) (hf : s.fault = some r) :
    x = .fault (.halted r) := by
  obtain ⟨k, rfl⟩ := h
  simp [guarded, hwf, hf]

/-- What is left of a step that records a fault: the environment's side and the record, which names the agent that
stepped and, where the command itself is illegal or out of range, no direction (R201). -/
theorem step_faults (h : step s = .next t) (hr : t.fault = some r) :
    t = { s with inputs := t.inputs, port := t.port, freeCount := t.freeCount, fault := some r } ∧
    s.stepper = some r.agent ∧ (r.code = .illegalCommand ∨ r.code = .invalidChannel → r.d = none) := by
  obtain ⟨ins, p, k, a, u, p', ha, hl, rfl, hu⟩ := step_effect h
  obtain hE | ⟨op, d, e, rfl, hd, -⟩ := hu
  · have hnone : u.fault = none := hE.confined.fault.trans hl.2
    simp [hnone] at hr
  · cases hr
    exact ⟨rfl, ha, hd⟩

/-- Settles O10: a step is an effect, which records no fault, or a record alone; behind the guard nothing follows it. -/
theorem faultIsTheStepsOnlyEffectAndEndsTheRun : Obligations.FaultIsTheStepsOnlyEffectAndEndsTheRun := by
  unfold Obligations.FaultIsTheStepsOnlyEffectAndEndsTheRun
  refine ⟨fun s t r _ h hr => step_faults h hr, fun s r hf => ?_⟩
  have hdead : ¬ s.live := fun hl => by simp [hl.2] at hf
  exact ⟨fun t h => hdead (step_live h), fun i t h => hdead (exec_stepped h).1,
    fun a t h => hdead (agentStep_stepped h).1, fun hwf => (step_guarded s).halted hwf hf⟩

end Sys2Proof.Machine
end

section
/-! SUPPORT. A deferred request that is shorter than a block (R147, R250). -/

namespace Sys2Proof.Machine

variable {s : State} {f : BhFrame} {d : DirId} {r : DeferredReq}

/-- An update that gives a direction back its own record changes no direction. -/
theorem State.dir_updDir_fixed {g : DirState → DirState} (h : g (s.dir d) = s.dir d) (q : DirId) :
    (s.updDir d g).dir q = s.dir q := by
  obtain he | ⟨rfl, he⟩ := State.dir_updDir_cases s d q g
  · exact he
  · exact he.trans h

/-- The state in which the interrupt agent has claimed the cursor's direction for the entry `r` and stands at `Outcome`. -/
def State.claimedAtOutcome (s : State) (f : BhFrame) (r : DeferredReq) : State :=
  (s.updDir f.cur (·.setClaim (some .interrupt))).setInt
    (.bh f (.svc ⟨f.cur, r.req, r.buf, r.left, 0#64, .outcome⟩))

/-- The state in which that outcome, with nothing transferred, has put the entry back and released the claim. -/
def State.deferredAgain (s : State) (f : BhFrame) (r : DeferredReq) : State :=
  ((s.updDir f.cur fun x => { x.setClaim none with deferred := some r }).emit (.deferred r.req r.left)).setInt
    (.bh f .accum)

/-- With less than a block to transfer, the re-invocation goes to `Outcome` at once (R147, R169). -/
theorem agentStep_deferCheck_of_short (hl : s.live) (hp : s.intPhase = .bh f .deferCheck)
    (hr : (s.dir f.cur).deferred = some r) (hc : (s.dir f.cur).claim = none)
    (hshort : r.left.toNat < s.cfg.blockSize f.cur.ch) : agentStep .interrupt s = .next (s.claimedAtOutcome f r) := by
  have hcheck := bhDeferCheck_unclaimed hr hc
  rw [reinvokeFrame, loopPhase, if_neg (Nat.not_le.mpr hshort)] at hcheck
  exact (agentStep_bh hl hp).trans (runStep_ok hcheck)

/-- The outcome finds its own entry in the slot, so it displaces nothing (R149, R150). -/
theorem agentStep_claimedAtOutcome (hl : s.live) (hr : (s.dir f.cur).deferred = some r) :
    agentStep .interrupt (s.claimedAtOutcome f r) = .next ((s.claimedAtOutcome f r).deferredAgain f r) := by
  have hentry : ((s.claimedAtOutcome f r).dir f.cur).deferred = some r :=
    (State.dir_updDir_keep s f.cur f.cur (·.setClaim (some .interrupt)) DirState.deferred fun _ => rfl).trans hr
  have hown : displaceEvents r.req ((s.claimedAtOutcome f r).dir f.cur).deferred = [] := by
    rw [hentry]
    exact if_pos rfl
  refine agentStep_bh_svc_finish (r := .deferred) hl rfl ?_
  simp only [svcStep, svcOutcome, hown]
  rfl

/-- Settles O38: the claim is taken and released and the entry put back as it was, so every record stands as it stood. -/
theorem aShortDeferredRequestIsDeferredAgain : Obligations.AShortDeferredRequestIsDeferredAgain := by
  unfold Obligations.AShortDeferredRequestIsDeferredAgain
  intro s f r rest hl _ _ hp hr hc hshort hin
  have hcheck : step s = .next (State.claimedAtOutcome { s with inputs := .run .interrupt :: rest } f r) :=
    (step_run hin).trans (agentStep_deferCheck_of_short hl hp hr hc hshort)
  have hout : step (State.claimedAtOutcome { s with inputs := .run .interrupt :: rest } f r) =
      .next ((State.claimedAtOutcome { s with inputs := rest } f r).deferredAgain f r) :=
    (step_run rfl).trans (agentStep_claimedAtOutcome (s := { s with inputs := rest }) hl hr)
  refine ⟨_, (run_next hcheck).trans ((run_next hout).trans (run_zero _)), fun q => ?_, rfl⟩
  refine (State.dir_updDir_updDir s f.cur q _ _).trans (State.dir_updDir_fixed ?_ q)
  show { s.dir f.cur with claim := none, deferred := some r } = s.dir f.cur
  rw [← hr, ← hc]

end Sys2Proof.Machine
end

section
/-! SUPPORT. A bottom half left to its own steps ends (R164, R255). -/

namespace Sys2Proof.Machine

variable {s t : State} {f : BhFrame} {p p' : BhPhase} {v v' : SvcFrame} {d e : DirId} {g : Cfg}

/-! ## A body reads no input -/

/-- A servicer's step answers the same whatever the environment has laid down. -/
theorem svcStep_inputs (a : AgentId) (v : SvcFrame) (s : State) (ins : List Input) :
    svcStep a v { s with inputs := ins } = (svcStep a v s).map fun x => ({ x.1 with inputs := ins }, x.2) := by
  have hdir : State.dir { s with inputs := ins } v.d = s.dir v.d := rfl
  cases hp : v.ph with
  | enter =>
    simp only [svcStep, hp, svcEnter, hdir]
    split
    · cases (s.dir v.d).claim <;> rfl
    · rfl
  | snapshot =>
    simp only [svcStep, hp, svcSnapshot, hdir]
    rcases availableOf (s.dir v.d) with e | _ | k <;> rfl
  | copy slot => simp only [svcStep, hp]; rfl
  | commit => simp only [svcStep, hp]; rfl
  | outcome => simp only [svcStep, hp]; rfl

theorem mergeStatus_inputs (d : DirId) (status : U32) (s : State) (ins : List Input) :
    mergeStatus d status { s with inputs := ins } = (mergeStatus d status s).map ({ · with inputs := ins }) := by
  have hdir : State.dir { s with inputs := ins } d = s.dir d := rfl
  simp only [mergeStatus, hdir]
  split
  · rfl
  · split <;> rfl

theorem mmioRead_inputs (s : State) (off : U32) (ins : List Input) :
    State.mmioRead { s with inputs := ins } off = { s.mmioRead off with inputs := ins } := by
  cases h : s.oracle <;> simp only [State.mmioRead, State.drawn, State.nextDraw, h] <;> rfl

/-- A bottom half's step answers the same whatever the environment has laid down. -/
theorem bhStep_inputs (f : BhFrame) (p : BhPhase) (s : State) (ins : List Input) :
    bhStep f p { s with inputs := ins } = (bhStep f p s).map ({ · with inputs := ins }) := by
  have hdir : State.dir { s with inputs := ins } f.cur = s.dir f.cur := rfl
  cases p with
  | test =>
    simp only [bhStep, bhTest]
    split <;> rfl
  | updRead =>
    simp only [bhStep, bhUpdRead, hdir, mmioRead_inputs]
    split <;> rfl
  | updMerge status =>
    simp only [bhStep, bhUpdMerge_eq_map, mergeStatus_inputs]
    cases mergeStatus f.cur status s <;> rfl
  | deferCheck =>
    simp only [bhStep, bhDeferCheck, hdir]
    cases (s.dir f.cur).deferred
    · rfl
    · cases (s.dir f.cur).claim <;> rfl
  | svc v =>
    simp only [bhStep, bhSvc, svcStep_inputs]
    rcases svcStep .interrupt v s with e | ⟨u, v' | r⟩ <;> rfl
  | accum => rfl
  | finish => rfl

/-! ## What is left to do -/

/-- A direction's place in the processing order (R167). -/
def dirPlace (d : DirId) : Nat :=
  match d.dir with
  | .rd => 2 * d.ch
  | .wr => 2 * d.ch + 1

theorem dirPlace_lt (h : d.ch < g.nCh) : dirPlace d < 2 * g.nCh := by
  unfold dirPlace
  split <;> omega

theorem dirPlace_nextDir (h : nextDir g d = some e) : dirPlace e = dirPlace d + 1 := by
  obtain ⟨c, _ | _⟩ := d
  · cases h; rfl
  · simp only [nextDir, Option.ite_none_right_eq_some] at h
    obtain ⟨-, h⟩ := h
    cases h; rfl

/-- The steps of a direction's visit (R167 to R171), counted down, with BH_END last; a re-invocation counts as one. -/
def BhPhase.rank : BhPhase → Nat
  | .test => 6
  | .updRead => 5
  | .updMerge _ => 4
  | .deferCheck => 3
  | .svc _ => 2
  | .accum => 1
  | .finish => 0

/-- The steps of a servicer's iteration, counted down. -/
def SvcPhase.rank : SvcPhase → Nat
  | .enter => 4
  | .snapshot => 3
  | .copy _ => 2
  | .commit => 1
  | .outcome => 0

/-- What a call may still do.  There are five phases, so a byte of the remaining length outweighs every phase. -/
def SvcFrame.work (v : SvcFrame) : Nat := 5 * v.left.toNat + v.ph.rank

/-- What the re-invocation in progress, if there is one, may still do. -/
def BhPhase.work : BhPhase → Nat
  | .svc v => v.work
  | .test => 0
  | .updRead => 0
  | .updMerge _ => 0
  | .deferCheck => 0
  | .accum => 0
  | .finish => 0

/-- What a bottom half at direction `d` and phase `p` may still do, in lexicographic order: the directions ahead, the
steps of this direction's visit, the re-invocation. -/
def bhWork (g : Cfg) (d : DirId) (p : BhPhase) : Nat ×ₗ Nat ×ₗ Nat :=
  toLex (2 * g.nCh - dirPlace d, toLex (p.rank, p.work))

theorem bhWork_lt_of_rank (g : Cfg) (d : DirId) (h : p'.rank < p.rank) : bhWork g d p' < bhWork g d p :=
  Prod.Lex.toLex_lt_toLex.mpr (.inr ⟨rfl, Prod.Lex.toLex_lt_toLex.mpr (.inl h)⟩)

theorem bhWork_svc_lt (g : Cfg) (d : DirId) (h : v'.work < v.work) : bhWork g d (.svc v') < bhWork g d (.svc v) :=
  Prod.Lex.toLex_lt_toLex.mpr (.inr ⟨rfl, Prod.Lex.toLex_lt_toLex.mpr (.inr ⟨rfl, h⟩)⟩)

/-- The phase `q` is one of a bottom half with less to do than at `p` of the direction `d`. -/
def LessWork (g : Cfg) (d : DirId) (p : BhPhase) (q : IntPhase) : Prop :=
  ∃ f' p', q = .bh f' p' ∧ bhWork g f'.cur p' < bhWork g d p

theorem LessWork.of_rank (g : Cfg) (f : BhFrame) (h : p'.rank < p.rank) : LessWork g f.cur p (.bh f p') :=
  ⟨f, p', rfl, bhWork_lt_of_rank g f.cur h⟩

/-- Advancing leaves less to do (R171). -/
theorem LessWork.of_advance (hcur : f.cur.ch < g.nCh) (hp : 0 < p.rank) : LessWork g f.cur p (bhAdvance g f) := by
  cases hn : nextDir g f.cur with
  | some d =>
    refine ⟨_, _, bhAdvance_of_some hn, Prod.Lex.toLex_lt_toLex.mpr (.inl ?_)⟩
    have hplace := dirPlace_nextDir hn
    have hlt := dirPlace_lt hcur
    show 2 * g.nCh - dirPlace d < 2 * g.nCh - dirPlace f.cur
    omega
  | none =>
    rw [bhAdvance_of_none hn]
    exact .of_rank g f hp

/-- A servicer step past `Enter` leaves less to do: `Commit` takes a whole block, which is not empty, off the length. -/
theorem SvcDid.work_lt {a : AgentId} (hwf : s.cfg.wf = true) (hv : FrameFacts s v) (hpast : v.ph ≠ .enter)
    (h : SvcDid a s v t (.more v')) : v'.work < v.work := by
  cases h with
  | enter hp => exact absurd hp hpast
  | dry hp => simp [SvcFrame.work, hp, SvcPhase.rank]
  | snapshot hp => simp [SvcFrame.work, hp, SvcPhase.rank]
  | copy slot hp => simp [SvcFrame.work, hp, SvcPhase.rank]
  | commit hp =>
    have hblock : s.cfg.blockSize v.d.ch ≤ v.left.toNat := by simpa only [needsBlock, hp] using hv.block
    have hpos := Cfg.blockSize_pos hwf hv.dir
    have hleft := left_sub_block (Cfg.blockSize_lt hwf hv.dir) hblock
    have hrank : (loopPhase (s.cfg.blockSize v.d.ch) (v.left - BitVec.ofNat 64 (s.cfg.blockSize v.d.ch))).rank ≤ 3 := by
      unfold loopPhase
      split <;> simp [SvcPhase.rank]
    simp only [SvcFrame.work, hp, hleft]
    omega

/-- Every step before BH_END leaves less to do. -/
theorem LessWork.of_bhStep (hinv : InvFacts s) (hp : s.intPhase = .bh f p) (hend : p ≠ .finish)
    (h : bhStep f p s = .ok t) : LessWork s.cfg f.cur p t.intPhase := by
  have hcur := (bhFacts_of_intInv hp hinv.int).cur
  cases p with
  | test =>
    obtain ⟨-, rfl⟩ | ⟨-, rfl⟩ := bhTest_ok h
    · exact .of_rank _ f (by decide)
    · exact .of_advance hcur (by decide)
  | updRead =>
    obtain ⟨-, rfl⟩ | ⟨-, rfl⟩ := bhUpdRead_ok h <;> exact .of_rank _ f (by simp [BhPhase.rank])
  | updMerge status =>
    obtain ⟨u, -, rfl⟩ := bhUpdMerge_ok h
    exact .of_rank _ f (by simp [BhPhase.rank])
  | deferCheck =>
    obtain ⟨-, rfl⟩ | ⟨r, -, -, rfl⟩ := bhDeferCheck_ok h <;> exact .of_rank _ f (by simp [BhPhase.rank])
  | svc v =>
    have hv := reinvokeFacts_of_intInv hp hinv.int
    obtain ⟨u, v', hdid, rfl⟩ | ⟨u, r, -, rfl⟩ := bhSvc_ok h
    · exact ⟨f, .svc v', rfl, bhWork_svc_lt _ _ ((svcStep_ok hdid).work_lt hinv.wf hv.frame hv.past)⟩
    · exact .of_rank _ f (by simp [BhPhase.rank])
  | accum =>
    cases h
    exact .of_advance (f := { f with clear := maskMerge f.clear (dirMask s.cfg f.cur) }) hcur (by decide)
  | finish => exact absurd rfl hend

/-! ## The run -/

/-- A bottom half is over: a fault is recorded, or the agent is Idle and no bottom half is scheduled. -/
def BottomHalfOver (t : State) : Prop := t.fault.isSome = true ∨ t.intPhase = .idle ∧ t.bhScheduled = false

theorem step_bh_ok (hl : s.live) (hp : s.intPhase = .bh f p) (h : bhStep f p s = .ok t) (ins : List Input) :
    step { s with inputs := .run .interrupt :: ins } = .next { t with inputs := ins } := by
  have hbody : bhStep f p { s with inputs := ins } = .ok { t with inputs := ins } := by rw [bhStep_inputs, h]; rfl
  exact (step_run rfl).trans ((agentStep_bh (s := { s with inputs := ins }) hl hp).trans (runStep_ok hbody))

theorem step_bh_error {e : Trap} (hl : s.live) (hp : s.intPhase = .bh f p) (h : bhStep f p s = .error e)
    (ins : List Input) : step { s with inputs := .run .interrupt :: ins } =
      .next (State.raise { s with inputs := ins } .interrupt Op.bottomHalf.code none e) := by
  have hbody : bhStep f p { s with inputs := ins } = .error e := by rw [bhStep_inputs, h]; rfl
  exact (step_run rfl).trans ((agentStep_bh (s := { s with inputs := ins }) hl hp).trans (runStep_error hbody))

/-- A step keeps the invariant, which says nothing of the inputs before and after it. -/
theorem blockInv_of_step {x : Input} {ins : List Input} (hinv : BlockInv s)
    (h : step { s with inputs := x :: ins } = .next { t with inputs := ins }) : BlockInv t :=
  (blockInv_environment t ins t.oracle).mp (everyStepKeepsTheInvariant { s with inputs := x :: ins } _ hinv h)

/-- A bottom half in progress ends by its agent's own steps, by induction on what it may still do. -/
theorem exists_run_bottomHalfOver (hinv : BlockInv s) (hf : s.fault = none) (hp : s.intPhase = .bh f p)
    (hscheduled : s.bhScheduled = false) : ∃ m t,
      core.run m { s with inputs := List.replicate m (.run .interrupt) } = .next t ∧ BottomHalfOver t := by
  induction hk : bhWork s.cfg f.cur p using WellFoundedLT.induction generalizing s f p with
  | ind k ih =>
    have hfacts := inv_iff.mp hinv
    have hl : s.live := ⟨hfacts.wf, hf⟩
    cases hbody : bhStep f p s with
    | error e => exact ⟨1, _, (run_next (step_bh_error hl hp hbody [])).trans (run_zero _), .inl rfl⟩
    | ok u =>
      have hstep := step_bh_ok hl hp hbody
      by_cases hend : p = .finish
      · subst hend
        cases hbody
        exact ⟨1, _, (run_next (hstep [])).trans (run_zero _), .inr ⟨rfl, hscheduled⟩⟩
      · have hquiet := QuietStep.of_bhStep hend hbody
        have hcfg : u.cfg = s.cfg := by rw [hquiet]
        obtain ⟨f', p', hp', hlt⟩ := LessWork.of_bhStep hfacts hp hend hbody
        rw [hk, ← hcfg] at hlt
        obtain ⟨m, t, hrun, hover⟩ := ih _ hlt (blockInv_of_step hinv (hstep []))
          (by rw [hquiet]; exact hf) hp' (by rw [hquiet]; exact hscheduled) rfl
        exact ⟨m + 1, t, (run_next (hstep _)).trans hrun, hover⟩

/-- The state in which BOTTOM_HALF's first step leaves the block (R166). -/
def State.bottomHalfBegun (s : State) : State :=
  { s with bhScheduled := false, intPhase := .bh ⟨s.pendingMask &&& s.enabledMask, 0#32, ⟨0, .rd⟩⟩ .test
           port := Call.vacant }

theorem step_issue_bottomHalf {c : Call} (hl : s.live) (hidle : s.intPhase = .idle) (ha : c.agent = .interrupt)
    (hw : c.word = encode .bottomHalf) (ins : List Input) :
    step { s with inputs := .issue c :: ins } = .next { s.bottomHalfBegun with inputs := ins } := by
  have hready : State.ready { s with inputs := ins, port := c } :=
    ⟨hl, by rw [ha]; exact agentIdle_interrupt.mpr hidle⟩
  have hdecode : decode c.word = .ok .bottomHalf := hw ▸ decodeOfEncodeIsTheInstruction .bottomHalf rfl
  rw [step_issue rfl, issueWord_ok (s := { s with inputs := ins, port := c }) hdecode,
    bottomHalfBeginsWithTheEnabledPendingBits _ hready ha]
  rfl

/-- Settles O46: the issue begins a bottom half, of which each step before BH_END leaves less to do. -/
theorem bottomHalfEnds : Obligations.BottomHalfEnds := by
  unfold Obligations.BottomHalfEnds
  intro s c hinv hf hidle ha hw
  have hissue := step_issue_bottomHalf ⟨(inv_iff.mp hinv).wf, hf⟩ hidle ha hw
  obtain ⟨m, t, hrun, hover⟩ := exists_run_bottomHalfOver (blockInv_of_step hinv (hissue [])) hf rfl rfl
  refine ⟨m, t, ?_, hover⟩
  rw [opInputs, ha, run_next (hissue _)]
  exact hrun

end Sys2Proof.Machine
end
